-- ==== Sys2Proof/Word.lean ====
section
/-! DEFINITION. The word types of the machine (spec/10_state.md R20, R24, R29; spec/20_memory.md R60). -/

namespace Sys2Proof

/-- The contents of a general register, 64 bits (R20). -/
abbrev Word := BitVec 64

/-- One byte of memory (R60). -/
abbrev Byte := BitVec 8

/-- An address: `AW` bits (R24, R60), `AW` at its default 64 (log 9). -/
abbrev Addr := BitVec 64

/-- The contents of FPSCR (R29). -/
abbrev FpscrWord := BitVec 32

/-- A set of exception kinds: bit 0 invalid operation, 1 overflow, 2 underflow, 3 divide by zero, 4 inexact
(R16, R280). -/
abbrev Kinds := BitVec 5

/-- A set of invalid-operation types, FPSCR bits 7:0 (X1T, R30, R133). -/
abbrev Types := BitVec 8

end Sys2Proof
end

