-- ==== Sys2Proof/Config.lean ====
section
/-! DEFINITION. What an implementation fixes: the open parameters of spec/00_scope.md R8, as plain data, and the
free values (`draw T`, R13), as constants without a body. -/

namespace Sys2Proof

/-- The parameter `TININESS` (R8, R129): when underflow is detected. -/
inductive Tininess where
  | beforeRounding
  | afterRounding
  deriving DecidableEq, Repr

/-- The values the parameter `FTOI_ROUND` ranges over (R8, R201): each satisfies what R201 assumes of `RoundInt`. -/
inductive RoundDir where
  | towardZero
  | nearestEven
  | towardNegative
  | towardPositive
  deriving DecidableEq, Repr

/-- The parameter `GX_POLICY` (R8, R38): whether FPSCR bit 9 is derived when read, or stored. -/
inductive GxPolicy where
  | derived
  | sticky
  deriving DecidableEq, Repr

/-- The open parameters of R8. They are fixed for a machine; the step reads them and nothing writes them (log 1). -/
structure Params where
  /-- `CondHolds` (R9): row `Pc`, column the number of the flag combination (`PredFlags.index`). -/
  condTable : Vector (Vector Bool 16) 16
  /-- `R0_ZERO` (R13). -/
  r0Zero : Bool
  /-- `TININESS` (R129). -/
  tininess : Tininess
  /-- `FTOI_ROUND` (R201). -/
  ftoiRound : RoundDir
  /-- `NS_VALUE` (R34). -/
  nsValue : Bool
  /-- `GX_POLICY` (R38). -/
  gxPolicy : GxPolicy
  /-- `FMAC_IMPLEMENTED` (R101). -/
  fmacImplemented : Bool
  /-- `FMAC_FUSED` (R262). -/
  fmacFused : Bool
  deriving DecidableEq, Repr

/-- The free bits of a quiet NaN an operation generates (`NaNDraw`, R132). -/
opaque Config.freeNaN : Nat → Word

/-- The free bits of the quiet NaN that the product inside an unfused multiply-accumulate generates (R132, R262). -/
opaque Config.freeProductNaN : Nat → Word

/-- Bits 63:32 of a register written with a single-precision result (`SINGLE_HI`, R123). -/
opaque Config.freeUpper : Nat → BitVec 32

/-- What the target register holds when an enabled exception is delivered (R147, R204). -/
opaque Config.freeTarget : Nat → Word

/-- The integer FTOI and FTOIS write for an operand that has none (`FTOI_INVALID_RESULT`, R202). -/
opaque Config.freeInteger : Nat → Word

/-- What FSIGN and FSIGNS write for a NaN (R188, R189). -/
opaque Config.freeSign : Nat → Word

/-- FPSCR[20:16] after FTOI and FTOIS (R145, R204). -/
opaque Config.freeClass : Nat → BitVec 5

/-- FPSCR bit 15 as FSTAT returns it (R36, R243). -/
opaque Config.freeSwt : Nat → BitVec 1

end Sys2Proof
end

