-- ==== Sys2Proof/Machine/Float.lean ====
section
/-! DEFINITION. Number formats, classes, exact values, rounding, the shared arithmetic, conversion and comparison
procedures (spec/40_numerics.md R120 to R136, spec/43_conversion.md R200 to R203, spec/44_compare.md R221 to R226,
spec/46_fmac_planned.md R262). Pure functions of bit patterns; what they leave to a draw comes in as an argument.

A pattern of either format stands in a `Word`; a single is bits 31:0 (R123). A finite value is held exactly, as an
integer number of UNITS, one unit being the smallest positive denormal of the format, 2^(emin-p+1) (R126). -/

namespace Sys2Proof.Machine

/-- The two formats (R120, R122). -/
inductive Fmt where
  | double
  | single
  deriving DecidableEq, Repr

/-- `width` (R126). -/
def Fmt.width : Fmt → Nat
  | .double => 64
  | .single => 32

/-- `p`, the precision with the hidden bit (R126). -/
def Fmt.prec : Fmt → Nat
  | .double => 53
  | .single => 24

/-- Bits of the stored fraction `M` (R120, R122). -/
def Fmt.fracBits : Fmt → Nat
  | .double => 52
  | .single => 23

/-- Bits of the exponent field `E` (R120, R122). -/
def Fmt.expBits : Fmt → Nat
  | .double => 11
  | .single => 8

/-- The exponent field of infinities and NaNs, all ones (R124, R125). -/
def Fmt.expMax : Fmt → Nat
  | .double => 2047
  | .single => 255

/-- A unit is 2^(-unitExp): unitExp = -(emin - p + 1) (R126). -/
def Fmt.unitExp : Fmt → Nat
  | .double => 1074
  | .single => 149

/-- How many units the number one is. -/
def Fmt.one (f : Fmt) : Nat := 2 ^ f.unitExp

/-- 2^emin, the smallest positive normal, in units (R126). -/
def Fmt.minNormal (f : Fmt) : Nat := 2 ^ f.fracBits

/-- 2^(emax+1), the first magnitude that overflows, in units (R126, R129). -/
def Fmt.overflowMag (f : Fmt) : Nat := 2 ^ (f.fracBits + f.expMax - 1)

/-- The sign `s` of a pattern (R120, R122). -/
def fpSign (f : Fmt) (v : Word) : Bool := v.getLsbD (f.width - 1)

/-- The exponent field `E` (R120, R122). -/
def fpExp (f : Fmt) (v : Word) : Nat := v.toNat / 2 ^ f.fracBits % 2 ^ f.expBits

/-- The fraction `M` (R120, R122). -/
def fpFrac (f : Fmt) (v : Word) : Nat := v.toNat % 2 ^ f.fracBits

/-- A NaN, quiet or signalling (R124, R125). -/
def isNaN (f : Fmt) (v : Word) : Bool := decide (fpExp f v = f.expMax ∧ fpFrac f v ≠ 0)

/-- The top fraction bit, which tells a quiet NaN (R124, R125). -/
def quietBit (f : Fmt) (v : Word) : Bool := v.getLsbD (f.fracBits - 1)

/-- A quiet NaN (R124, R125). -/
def isQNaN (f : Fmt) (v : Word) : Bool := isNaN f v && quietBit f v

/-- A signalling NaN (R124, R125). -/
def isSNaN (f : Fmt) (v : Word) : Bool := isNaN f v && !quietBit f v

/-- An infinity (R124, R125). -/
def isInf (f : Fmt) (v : Word) : Bool := decide (fpExp f v = f.expMax ∧ fpFrac f v = 0)

/-- A zero of either sign (R124, R125). -/
def isZero (f : Fmt) (v : Word) : Bool := decide (fpExp f v = 0 ∧ fpFrac f v = 0)

/-- A denormalized number (R124, R125). -/
def isDenormal (f : Fmt) (v : Word) : Bool := decide (fpExp f v = 0 ∧ fpFrac f v ≠ 0)

/-- A pattern that is neither an infinity nor a NaN (R124, R125). -/
def isFinite (f : Fmt) (v : Word) : Bool := decide (fpExp f v < f.expMax)

/-- The magnitude of a finite pattern in units: `M` when `E = 0`, else (2^(p-1) + M) * 2^(E-1) (R124, R125). -/
def fpMag (f : Fmt) (v : Word) : Nat :=
  if fpExp f v = 0 then fpFrac f v else (2 ^ f.fracBits + fpFrac f v) * 2 ^ (fpExp f v - 1)

/-- The value `D(v)` or `S(v)` of a finite pattern, in units (R124, R125). -/
def fpValue (f : Fmt) (v : Word) : Int := if fpSign f v then -(fpMag f v : Int) else (fpMag f v : Int)

/-- The pattern with the given sign, exponent field and fraction (R120, R122). -/
def fpPack (f : Fmt) (neg : Bool) (e m : Nat) : Word :=
  BitVec.ofNat 64 ((if neg then 2 ^ (f.width - 1) else 0) + e * 2 ^ f.fracBits + m)

/-- The zero of a sign. -/
def fpZero (f : Fmt) (neg : Bool) : Word := fpPack f neg 0 0

/-- The infinity of a sign. -/
def fpInf (f : Fmt) (neg : Bool) : Word := fpPack f neg f.expMax 0

/-- The pattern of a magnitude of `mag` units (R129): `E = 0` when it is below 2^emin, else the leading bit is hidden. -/
def fpOfMag (f : Fmt) (neg : Bool) (mag : Nat) : Word :=
  if mag < f.minNormal then fpPack f neg 0 mag
  else
    let k := Nat.log2 mag - f.fracBits
    fpPack f neg (k + 1) (mag / 2 ^ k - f.minNormal)

/-- The bit of a word that is the sign bit of the format. -/
def signMask : Fmt → Word
  | .double => 0x8000000000000000
  | .single => 0x80000000

/-- The sign bit inverted (R136, R184, R185). -/
def flipSign (f : Fmt) (v : Word) : Word := v ^^^ signMask f

/-- `NaNDraw` (R132): a quiet NaN of the format, sign and lower fraction bits free. -/
def quietNaN (f : Fmt) (free : Word) : Word :=
  match f with
  | .double => free ||| 0x7FF8000000000000
  | .single => (free &&& 0xFFFFFFFF) ||| 0x7FC00000

/-- `num / den` rounded to the nearest natural number, ties to even (R129). -/
def roundDiv (num den : Nat) : Nat :=
  let lo := num / den
  let r := num % den
  if 2 * r < den then lo
  else if den < 2 * r then lo + 1
  else if lo % 2 = 0 then lo else lo + 1

/-- What `Round` returns (R128). -/
structure Rounded where
  bits : Word
  inexact : Bool
  away : Bool
  overflow : Bool
  underflow : Bool
  deriving DecidableEq, Repr

/-- The exponent, in units, of the grid of representable magnitudes near `num / den` units: `q - emin` of R129, with
`q = max(floor(log2 m), emin)`. -/
def gridExp (f : Fmt) (num den : Nat) : Nat := Nat.log2 (num / den) - f.fracBits

/-- `tiny` of R129. After rounding, the magnitude is rounded to `p` significant bits with the exponent unbounded below:
it is scaled up by 2^j first, so far that its own binade lies on the integers. -/
def isTiny (f : Fmt) (t : Tininess) (num den : Nat) : Bool :=
  match t with
  | .beforeRounding => decide (num < f.minNormal * den)
  | .afterRounding =>
    let j := f.prec + Nat.log2 den
    let k := gridExp f (num * 2 ^ j) den
    decide (roundDiv (num * 2 ^ j) (den * 2 ^ k) * 2 ^ k < f.minNormal * 2 ^ j)

/-- `Round(fmt, e)` (R129) for the exact non-zero value of sign `neg` and magnitude `num / den` units. -/
def fpRound (f : Fmt) (t : Tininess) (neg : Bool) (num den : Nat) : Rounded :=
  let k := gridExp f num den
  let mag := roundDiv num (den * 2 ^ k) * 2 ^ k
  let inexact := decide (mag * den ≠ num)
  if f.overflowMag ≤ mag then
    { bits := fpInf f neg, inexact := true, away := true, overflow := true, underflow := false }
  else
    { bits := fpOfMag f neg mag
      inexact := inexact
      away := decide (num < mag * den)
      overflow := false
      underflow := isTiny f t num den && inexact }

/-- What a floating-point procedure returns (R136): the result, the exception kinds, the invalid-operation types and
the two rounding Booleans. -/
structure FpResult where
  bits : Word
  kinds : Kinds
  types : Types
  inexact : Bool
  away : Bool
  deriving DecidableEq, Repr

/-- A result that is exact and signals nothing. -/
def FpResult.exact (bits : Word) : FpResult := { bits, kinds := 0, types := 0, inexact := false, away := false }

/-- An invalid operation of type bit `t` (R133): kind 0, the given result. -/
def FpResult.invalid (t : Nat) (bits : Word) : FpResult :=
  { bits, kinds := 1, types := 1#8 <<< t, inexact := false, away := false }

/-- Bit `i` of a set of kinds. -/
def kindBit (i : Nat) (b : Bool) : Kinds := if b then 1#5 <<< i else 0

/-- A rounded result with the kinds `Round` reports: 1 overflow, 2 underflow, 4 inexact (R135). -/
def FpResult.rounded (r : Rounded) : FpResult :=
  { bits := r.bits
    kinds := kindBit 1 r.overflow ||| kindBit 2 r.underflow ||| kindBit 4 r.inexact
    types := 0
    inexact := r.inexact
    away := r.away }

/-- The four operations of `FpArith` (R136). -/
inductive FpOp where
  | add
  | sub
  | mul
  | div
  deriving DecidableEq, Repr

/-- The finite sum of R136: `e` units, `zeroNeg` the sign an exact zero takes (note Z); `den` scales the units. -/
def finishSum (f : Fmt) (t : Tininess) (e : Int) (den : Nat) (zeroNeg : Bool) : FpResult :=
  if e = 0 then .exact (fpZero f zeroNeg)
  else .rounded (fpRound f t (decide (e < 0)) e.natAbs den)

/-- The add and sub case of R136, `b` already with its sign inverted for sub. -/
def addCase (f : Fmt) (t : Tininess) (nan a b : Word) : FpResult :=
  if isInf f a ∧ isInf f b ∧ fpSign f a ≠ fpSign f b then .invalid 1 nan
  else if isInf f a then .exact a
  else if isInf f b then .exact b
  else finishSum f t (fpValue f a + fpValue f b) 1 (fpSign f a && fpSign f b)

/-- The mul case of R136. -/
def mulCase (f : Fmt) (t : Tininess) (nan a b : Word) : FpResult :=
  let neg := fpSign f a != fpSign f b
  if (isInf f a ∧ isZero f b) ∨ (isZero f a ∧ isInf f b) then .invalid 4 nan
  else if isInf f a ∨ isInf f b then .exact (fpInf f neg)
  else if isZero f a ∨ isZero f b then .exact (fpZero f neg)
  else .rounded (fpRound f t neg (fpMag f a * fpMag f b) f.one)

/-- The div case of R136. -/
def divCase (f : Fmt) (t : Tininess) (nan a b : Word) : FpResult :=
  let neg := fpSign f a != fpSign f b
  if isInf f a ∧ isInf f b then .invalid 2 nan
  else if isZero f a ∧ isZero f b then .invalid 3 nan
  else if isInf f a then .exact (fpInf f neg)
  else if isInf f b then .exact (fpZero f neg)
  else if isZero f b then { bits := fpInf f neg, kinds := kindBit 3 true, types := 0, inexact := false, away := false }
  else if isZero f a then .exact (fpZero f neg)
  else .rounded (fpRound f t neg (fpMag f a * f.one) (fpMag f b))

/-- `FpArith(fmt, op, a, b)` (R131, R136). `nan` is the generated quiet NaN. -/
def fpArith (f : Fmt) (t : Tininess) (op : FpOp) (nan a b : Word) : FpResult :=
  if isSNaN f a ∨ isSNaN f b then .invalid 0 nan
  else if isNaN f a ∨ isNaN f b then .exact nan
  else
    match op with
    | .add => addCase f t nan a b
    | .sub => addCase f t nan a (flipSign f b)
    | .mul => mulCase f t nan a b
    | .div => divCase f t nan a b

/-- The fused branch of `FMacOp` (R262), `c` already with its sign inverted if it is subtracted. -/
def fusedMac (f : Fmt) (t : Tininess) (nan a b c : Word) : FpResult :=
  let neg := fpSign f a != fpSign f b
  if isSNaN f a ∨ isSNaN f b ∨ isSNaN f c then .invalid 0 nan
  else if isNaN f a ∨ isNaN f b ∨ isNaN f c then .exact nan
  else if (isInf f a ∧ isZero f b) ∨ (isZero f a ∧ isInf f b) then .invalid 4 nan
  else if (isInf f a ∨ isInf f b) ∧ isInf f c ∧ neg ≠ fpSign f c then .invalid 1 nan
  else if isInf f a ∨ isInf f b then .exact (fpInf f neg)
  else if isInf f c then .exact c
  else finishSum f t (fpValue f a * fpValue f b + fpValue f c * f.one) f.one (neg && fpSign f c)

/-- The unfused branch of `FMacOp` (R262): a product, then a sum, each rounded. Kinds and types are those of both, as
R262 joins them, so two type bits, or an invalid sum beside the product's overflow, underflow or inexact, can be set by
one instruction. R289 allows one type bit and no kind beside an invalid operation; DESIGN CHOICE: R262 is followed
(log 26; for a quiet NaN operand, log 13). -/
def unfusedMac (f : Fmt) (t : Tininess) (nanProduct nan a b c : Word) : FpResult :=
  let q := fpArith f t .mul nanProduct a b
  let r := fpArith f t .add nan q.bits c
  { bits := r.bits
    kinds := q.kinds ||| r.kinds
    types := q.types ||| r.types
    inexact := q.inexact || r.inexact
    away := r.away }

/-- The final negation of `FMacOp` (R262): exact, and not of a NaN. -/
def negateResult (f : Fmt) (r : FpResult) : FpResult :=
  if isNaN f r.bits then r else { r with bits := flipSign f r.bits }

/-- `FMacOp(fmt, a, b, c, subc, negr)` (R262). -/
def fMacOp (f : Fmt) (t : Tininess) (fused subc negr : Bool) (nanProduct nan a b c : Word) : FpResult :=
  let c' := if subc then flipSign f c else c
  let r := if fused then fusedMac f t nan a b c' else unfusedMac f t nanProduct nan a b c'
  if negr then negateResult f r else r

/-- `RoundInt` (R201) of `n / d`, `d` positive, in the direction `FTOI_ROUND`. -/
def roundInt (dir : RoundDir) (n : Int) (d : Nat) : Int :=
  match dir with
  | .towardZero => n.tdiv d
  | .nearestEven => n.sign * roundDiv n.natAbs d
  | .towardNegative => n.fdiv d
  | .towardPositive => -((-n).fdiv d)

/-- `FToI(fmt, a)` (R202, R203). `free` is the integer of an impossible conversion. -/
def fToI (f : Fmt) (dir : RoundDir) (free a : Word) : FpResult :=
  let n := roundInt dir (fpValue f a) f.one
  if isNaN f a ∨ isInf f a ∨ n < -(2 ^ 63) ∨ 2 ^ 63 - 1 < n then .invalid 7 free
  else
    let inexact := decide (n * f.one ≠ fpValue f a)
    { bits := BitVec.ofInt 64 n
      kinds := kindBit 4 inexact
      types := 0
      inexact := inexact
      away := decide (fpMag f a < n.natAbs * f.one) }

/-- ITOF and ITOFS (R207, R208): the signed integer `a` as a floating-point number. Only the inexact kind is reported. -/
def iToF (f : Fmt) (t : Tininess) (a : Word) : FpResult :=
  let n := a.toInt
  if n = 0 then .exact (fpZero f false)
  else
    let r := fpRound f t (decide (n < 0)) (n.natAbs * f.one) 1
    { bits := r.bits, kinds := kindBit 4 r.inexact, types := 0, inexact := r.inexact, away := r.away }

/-- A value on the extended real line (R221): minus infinity, a finite number of units, plus infinity. -/
inductive ExtValue where
  | negInf
  | finite (units : Int)
  | posInf
  deriving DecidableEq, Repr

/-- The order of the extended real line. -/
def ExtValue.less : ExtValue → ExtValue → Bool
  | .negInf, .negInf => false
  | .negInf, _ => true
  | .finite _, .negInf => false
  | .finite a, .finite b => decide (a < b)
  | .finite _, .posInf => true
  | .posInf, _ => false

/-- The extended value of a pattern that is not a NaN (R124, R125, R221). -/
def extValue (f : Fmt) (v : Word) : ExtValue :=
  if isInf f v then (if fpSign f v then .negInf else .posInf) else .finite (fpValue f v)

/-- The magnitude of a pattern that is not a NaN (R222). -/
def extMag (f : Fmt) (v : Word) : ExtValue := if isInf f v then .posInf else .finite (fpMag f v)

end Sys2Proof.Machine
end

