-- ==== Sys2Proof/Syntax.lean ====
section
/-! DEFINITION. The 40 instructions of spec/opcode_table.json (spec/00_scope.md R2), operands as the fields number them
(spec/30_encoding.md R84, R85). Operand numbers are natural numbers; `Instr.wellFormed` says which fit their fields. -/

namespace Sys2Proof

/-- The predicate byte every instruction begins with (R83): predicate register number and condition. -/
structure Pred where
  /-- `Pn`, bits 7:4. -/
  pn : Nat
  /-- `Pc`, bits 3:0. -/
  pc : Nat
  deriving DecidableEq, Repr

/-- An instruction. `p` is the predicate byte, `rt` the target, `ra`, `rb`, `rc` the sources, `pt` the target
predicate register, `imm` the field Immed6. -/
inductive Instr where
  -- opcode byte 77h (R93): double precision and FPSCR access
  | fmov (p : Pred) (rt ra : Nat)
  | ftoi (p : Pred) (rt ra : Nat)
  | itof (p : Pred) (rt ra : Nat)
  | fneg (p : Pred) (rt ra : Nat)
  | fabs (p : Pred) (rt ra : Nat)
  | fsign (p : Pred) (rt ra : Nat)
  | fman (p : Pred) (rt ra : Nat)
  | fstat (p : Pred) (rt : Nat)
  | frm (p : Pred) (ra imm : Nat)
  -- opcode byte 79h (R94): single precision and exception control
  | fmovs (p : Pred) (rt ra : Nat)
  | ftois (p : Pred) (rt ra : Nat)
  | itofs (p : Pred) (rt ra : Nat)
  | fnegs (p : Pred) (rt ra : Nat)
  | fabss (p : Pred) (rt ra : Nat)
  | fsigns (p : Pred) (rt ra : Nat)
  | fmans (p : Pred) (rt ra : Nat)
  | ftx (p : Pred) (ra imm : Nat)
  | fcx (p : Pred) (ra imm : Nat)
  | fex (p : Pred) (ra imm : Nat)
  | fdx (p : Pred) (ra imm : Nat)
  -- opcode byte 78h (R95): arithmetic
  | fadd (p : Pred) (rt ra rb : Nat)
  | fsub (p : Pred) (rt ra rb : Nat)
  | fmul (p : Pred) (rt ra rb : Nat)
  | fdiv (p : Pred) (rt ra rb : Nat)
  | fadds (p : Pred) (rt ra rb : Nat)
  | fsubs (p : Pred) (rt ra rb : Nat)
  | fmuls (p : Pred) (rt ra rb : Nat)
  | fdivs (p : Pred) (rt ra rb : Nat)
  -- opcode bytes 10h to 1Fh and 00h to 0Fh (R97): compare and test
  | fcmp (p : Pred) (pt ra rb : Nat)
  | fcmps (p : Pred) (pt ra rb : Nat)
  | ftst (p : Pred) (pt ra : Nat)
  | ftsts (p : Pred) (pt ra : Nat)
  -- opcode byte 76h (R96): the planned multiply-accumulate family
  | fmacS (p : Pred) (rt ra rb rc : Nat)
  | fmasS (p : Pred) (rt ra rb rc : Nat)
  | fnmacS (p : Pred) (rt ra rb rc : Nat)
  | fnmasS (p : Pred) (rt ra rb rc : Nat)
  | fmac (p : Pred) (rt ra rb rc : Nat)
  | fmas (p : Pred) (rt ra rb rc : Nat)
  | fnmac (p : Pred) (rt ra rb rc : Nat)
  | fnmas (p : Pred) (rt ra rb rc : Nat)
  deriving DecidableEq, Repr

/-- The predicate byte of an instruction (R83). -/
def Instr.pred : Instr → Pred
  | .fmov p .. | .ftoi p .. | .itof p .. | .fneg p .. | .fabs p .. | .fsign p .. | .fman p .. | .fstat p .. | .frm p ..
  | .fmovs p .. | .ftois p .. | .itofs p .. | .fnegs p .. | .fabss p .. | .fsigns p .. | .fmans p .. | .ftx p ..
  | .fcx p .. | .fex p .. | .fdx p .. | .fadd p .. | .fsub p .. | .fmul p .. | .fdiv p .. | .fadds p .. | .fsubs p ..
  | .fmuls p .. | .fdivs p .. | .fcmp p .. | .fcmps p .. | .ftst p .. | .ftsts p .. | .fmacS p .. | .fmasS p ..
  | .fnmacS p .. | .fnmasS p .. | .fmac p .. | .fmas p .. | .fnmac p .. | .fnmas p .. => p

/-- The planned family (R2, R101). -/
def Instr.isPlanned : Instr → Bool
  | .fmacS .. | .fmasS .. | .fnmacS .. | .fnmasS .. | .fmac .. | .fmas .. | .fnmac .. | .fnmas .. => true
  | _ => false

/-- The arithmetic and conversion instructions and the planned family: those that write the result status and may
record or raise exceptions (R35, R280). -/
def Instr.recordsStatus : Instr → Bool
  | .fadd .. | .fsub .. | .fmul .. | .fdiv .. | .fadds .. | .fsubs .. | .fmuls .. | .fdivs .. | .ftoi .. | .ftois ..
  | .itof .. | .itofs .. | .fmacS .. | .fmasS .. | .fnmacS .. | .fnmasS .. | .fmac .. | .fmas .. | .fnmac ..
  | .fnmas .. => true
  | _ => false

/-- The general register an instruction writes, if it writes one (R23). -/
def Instr.target : Instr → Option Nat
  | .fmov _ rt _ | .ftoi _ rt _ | .itof _ rt _ | .fneg _ rt _ | .fabs _ rt _ | .fsign _ rt _ | .fman _ rt _
  | .fmovs _ rt _ | .ftois _ rt _ | .itofs _ rt _ | .fnegs _ rt _ | .fabss _ rt _ | .fsigns _ rt _ | .fmans _ rt _
  | .fstat _ rt
  | .fadd _ rt _ _ | .fsub _ rt _ _ | .fmul _ rt _ _ | .fdiv _ rt _ _
  | .fadds _ rt _ _ | .fsubs _ rt _ _ | .fmuls _ rt _ _ | .fdivs _ rt _ _
  | .fmacS _ rt _ _ _ | .fmasS _ rt _ _ _ | .fnmacS _ rt _ _ _ | .fnmasS _ rt _ _ _
  | .fmac _ rt _ _ _ | .fmas _ rt _ _ _ | .fnmac _ rt _ _ _ | .fnmas _ rt _ _ _ => some rt
  | .frm .. | .ftx .. | .fcx .. | .fex .. | .fdx .. | .fcmp .. | .fcmps .. | .ftst .. | .ftsts .. => none

/-- The predicate register an instruction writes, if it writes one (R27). -/
def Instr.predTarget : Instr → Option Nat
  | .fcmp _ pt _ _ | .fcmps _ pt _ _ | .ftst _ pt _ | .ftsts _ pt _ => some pt
  | _ => none

end Sys2Proof
end

