-- ==== Sys2Proof/WellFormed.lean ====
section
/-! DEFINITION. Which instructions have an encoding: every operand fits its field (spec/30_encoding.md R84, R85, R83). -/

namespace Sys2Proof

/-- The predicate byte holds two 4-bit numbers (R83). -/
def Pred.fits (p : Pred) : Bool := decide (p.pn < 16) && decide (p.pc < 16)

/-- A general register number or the immediate fits six bits (R84, R85). -/
def fits6 (n : Nat) : Bool := decide (n < 64)

/-- A predicate register number fits four bits (R84). -/
def fits4 (n : Nat) : Bool := decide (n < 16)

/-- Every operand of the instruction fits its field. -/
def Instr.wellFormed : Instr → Bool
  | .fmov p rt ra | .ftoi p rt ra | .itof p rt ra | .fneg p rt ra | .fabs p rt ra | .fsign p rt ra | .fman p rt ra
  | .fmovs p rt ra | .ftois p rt ra | .itofs p rt ra | .fnegs p rt ra | .fabss p rt ra | .fsigns p rt ra
  | .fmans p rt ra => p.fits && fits6 rt && fits6 ra
  | .fstat p rt => p.fits && fits6 rt
  | .frm p ra imm | .ftx p ra imm | .fcx p ra imm | .fex p ra imm | .fdx p ra imm => p.fits && fits6 ra && fits6 imm
  | .fadd p rt ra rb | .fsub p rt ra rb | .fmul p rt ra rb | .fdiv p rt ra rb
  | .fadds p rt ra rb | .fsubs p rt ra rb | .fmuls p rt ra rb | .fdivs p rt ra rb =>
    p.fits && fits6 rt && fits6 ra && fits6 rb
  | .fcmp p pt ra rb | .fcmps p pt ra rb => p.fits && fits4 pt && fits6 ra && fits6 rb
  | .ftst p pt ra | .ftsts p pt ra => p.fits && fits4 pt && fits6 ra
  | .fmacS p rt ra rb rc | .fmasS p rt ra rb rc | .fnmacS p rt ra rb rc | .fnmasS p rt ra rb rc
  | .fmac p rt ra rb rc | .fmas p rt ra rb rc | .fnmac p rt ra rb rc | .fnmas p rt ra rb rc =>
    p.fits && fits6 rt && fits6 ra && fits6 rb && fits6 rc

end Sys2Proof
end

