-- ==== Sys2Proof/Decode.lean ====
section
/-! DEFINITION. Decoding bytes (spec/30_encoding.md R80 to R102), total and rejecting by name; then the encoder, written
from the same format tables (R87 to R97); then the match and mask table of R98; then the host's `decodeTableWord`. -/

namespace Sys2Proof

/-- Why a byte string is no instruction. -/
inductive Reject where
  /-- fewer bytes than the instruction's length (R81) -/
  | truncated
  /-- an opcode byte the source does not list (R81, R100) -/
  | unlistedOpcode (op : Byte)
  /-- a listed opcode byte with a function code the source does not list (R93 to R97, R100) -/
  | unlistedFunction (op : Byte) (fn : Nat)
  deriving DecidableEq, Repr

/-- What decoding answers: an instruction and its length in bytes, or the reason there is none. -/
inductive Decoded where
  | ok (i : Instr) (len : Nat)
  | reject (r : Reject)
  deriving DecidableEq, Repr

/-- The length in bytes, a function of the opcode byte alone (R81). -/
def instrLength (op : Byte) : Option Nat :=
  if op.toNat < 0x10 then some 3
  else if op.toNat < 0x20 then some 4
  else if op = 0x76 then some 6
  else if op = 0x77 then some 4
  else if op = 0x78 then some 5
  else if op = 0x79 then some 4
  else none

/-- Bits `lo + n - 1` down to `lo` of an instruction word (R10). -/
def field (w lo n : Nat) : Nat := w / 2 ^ lo % 2 ^ n

/-- The predicate byte, bits 7:0 (R83). -/
def predField (w : Nat) : Pred := { pn := field w 4 4, pc := field w 0 4 }

/-- Formats FR2 and FI with opcode byte 77h (R89, R90, R93). -/
def decode77 (w : Nat) : Option Instr :=
  let p := predField w
  let ra := field w 16 6
  let rt := field w 22 6
  match field w 28 4 with
  | 0x0 => some (.fmov p rt ra)
  | 0x2 => some (.ftoi p rt ra)
  | 0x3 => some (.itof p rt ra)
  | 0x4 => some (.fneg p rt ra)
  | 0x5 => some (.fabs p rt ra)
  | 0x6 => some (.fsign p rt ra)
  | 0x7 => some (.fman p rt ra)
  | 0xC => some (.fstat p rt)
  | 0xD => some (.frm p ra rt)
  | _ => none

/-- Formats FR2 and FI with opcode byte 79h (R89, R90, R94). -/
def decode79 (w : Nat) : Option Instr :=
  let p := predField w
  let ra := field w 16 6
  let rt := field w 22 6
  match field w 28 4 with
  | 0x0 => some (.fmovs p rt ra)
  | 0x2 => some (.ftois p rt ra)
  | 0x3 => some (.itofs p rt ra)
  | 0x4 => some (.fnegs p rt ra)
  | 0x5 => some (.fabss p rt ra)
  | 0x6 => some (.fsigns p rt ra)
  | 0x7 => some (.fmans p rt ra)
  | 0xC => some (.ftx p ra rt)
  | 0xD => some (.fcx p ra rt)
  | 0xE => some (.fex p ra rt)
  | 0xF => some (.fdx p ra rt)
  | _ => none

/-- Format FR3, opcode byte 78h (R91, R95). -/
def decode78 (w : Nat) : Option Instr :=
  let p := predField w
  let ra := field w 16 6
  let rb := field w 22 6
  let rt := field w 28 6
  match field w 34 6 with
  | 0x08 => some (.fadd p rt ra rb)
  | 0x09 => some (.fsub p rt ra rb)
  | 0x0A => some (.fmul p rt ra rb)
  | 0x0B => some (.fdiv p rt ra rb)
  | 0x18 => some (.fadds p rt ra rb)
  | 0x19 => some (.fsubs p rt ra rb)
  | 0x1A => some (.fmuls p rt ra rb)
  | 0x1B => some (.fdivs p rt ra rb)
  | _ => none

/-- Format FR4, opcode byte 76h (R92, R96); bits 47:45 are ignored (R99). -/
def decode76 (w : Nat) : Option Instr :=
  let p := predField w
  let ra := field w 16 6
  let rb := field w 22 6
  let rc := field w 28 6
  let rt := field w 34 6
  match field w 40 5 with
  | 8 => some (.fmacS p rt ra rb rc)
  | 9 => some (.fmasS p rt ra rb rc)
  | 10 => some (.fnmacS p rt ra rb rc)
  | 11 => some (.fnmasS p rt ra rb rc)
  | 16 => some (.fmac p rt ra rb rc)
  | 17 => some (.fmas p rt ra rb rc)
  | 18 => some (.fnmac p rt ra rb rc)
  | 19 => some (.fnmas p rt ra rb rc)
  | _ => none

/-- Format FC32, opcode bytes 10h to 1Fh (R88, R97). -/
def decodeCompare (w : Nat) : Option Instr :=
  let p := predField w
  let pt := field w 8 4
  let ra := field w 16 6
  let rb := field w 22 6
  match field w 28 4 with
  | 2 => some (.fcmp p pt ra rb)
  | 1 => some (.fcmps p pt ra rb)
  | _ => none

/-- Format FT24, opcode bytes 00h to 0Fh (R87, R97). -/
def decodeTest (w : Nat) : Option Instr :=
  let p := predField w
  let pt := field w 8 4
  let ra := field w 16 6
  match field w 22 2 with
  | 2 => some (.ftst p pt ra)
  | 1 => some (.ftsts p pt ra)
  | _ => none

/-- The function code of a word, the field R93 to R97 select by. -/
def functionCode (w : Nat) : Nat :=
  let op := field w 8 8
  if op < 0x10 then field w 22 2
  else if op = 0x78 then field w 34 6
  else if op = 0x76 then field w 40 5
  else field w 28 4

/-- The instruction a whole word is (R93 to R97), or none. -/
def decodeWord (w : Nat) : Option Instr :=
  let op := field w 8 8
  if op < 0x10 then decodeTest w
  else if op < 0x20 then decodeCompare w
  else if op = 0x76 then decode76 w
  else if op = 0x77 then decode77 w
  else if op = 0x78 then decode78 w
  else if op = 0x79 then decode79 w
  else none

/-- The number a list of bytes is, the first byte least significant (R62, R63). -/
def wordOf : List Byte → Nat
  | [] => 0
  | b :: bs => b.toNat + 256 * wordOf bs

/-- The `n` low-order bytes of a number, least significant first (R62, R64). -/
def bytesOf : Nat → Nat → List Byte
  | 0, _ => []
  | n + 1, w => BitVec.ofNat 8 w :: bytesOf n (w / 256)

/-- Decoding the bytes that stand at `pc` (R82). The instruction is the first bytes of the list, as many as its length. -/
def decode (bytes : List Byte) : Decoded :=
  match bytes with
  | _ :: op :: _ =>
    match instrLength op with
    | none => .reject (.unlistedOpcode op)
    | some n =>
      if bytes.length < n then .reject .truncated
      else
        let w := wordOf (bytes.take n)
        match decodeWord w with
        | some i => .ok i n
        | none => .reject (.unlistedFunction op (functionCode w))
  | _ => .reject .truncated

/-- The length in bytes of an instruction (R25, R81). -/
def Instr.length : Instr → Nat
  | .ftst .. | .ftsts .. => 3
  | .fadd .. | .fsub .. | .fmul .. | .fdiv .. | .fadds .. | .fsubs .. | .fmuls .. | .fdivs .. => 5
  | .fmacS .. | .fmasS .. | .fnmacS .. | .fnmasS .. | .fmac .. | .fmas .. | .fnmac .. | .fnmas .. => 6
  | _ => 4

/-- The bits 15:0 of a word: opcode byte and predicate byte (R80, R83). -/
def encodeHead (p : Pred) (op : Nat) : Nat := p.pc + p.pn * 2 ^ 4 + op * 2 ^ 8

/-- Format FR2, and format FI with the immediate in the place of Rt (R89, R90). -/
def encodeFR2 (p : Pred) (op fn rt ra : Nat) : Nat := encodeHead p op + ra * 2 ^ 16 + rt * 2 ^ 22 + fn * 2 ^ 28

/-- Format FR3 (R91). -/
def encodeFR3 (p : Pred) (fn rt ra rb : Nat) : Nat :=
  encodeHead p 0x78 + ra * 2 ^ 16 + rb * 2 ^ 22 + rt * 2 ^ 28 + fn * 2 ^ 34

/-- Format FR4 (R92), the unused bits 47:45 zero (R99). -/
def encodeFR4 (p : Pred) (o5 rt ra rb rc : Nat) : Nat :=
  encodeHead p 0x76 + ra * 2 ^ 16 + rb * 2 ^ 22 + rc * 2 ^ 28 + rt * 2 ^ 34 + o5 * 2 ^ 40

/-- Format FC32 (R88). -/
def encodeFC32 (p : Pred) (fn pt ra rb : Nat) : Nat :=
  encodeHead p (0x10 + pt) + ra * 2 ^ 16 + rb * 2 ^ 22 + fn * 2 ^ 28

/-- Format FT24 (R87). -/
def encodeFT24 (p : Pred) (fn pt ra : Nat) : Nat := encodeHead p pt + ra * 2 ^ 16 + fn * 2 ^ 22

/-- The word of an instruction, unused fields zero (R87 to R99). -/
def encodeWord : Instr → Nat
  | .fmov p rt ra => encodeFR2 p 0x77 0x0 rt ra
  | .ftoi p rt ra => encodeFR2 p 0x77 0x2 rt ra
  | .itof p rt ra => encodeFR2 p 0x77 0x3 rt ra
  | .fneg p rt ra => encodeFR2 p 0x77 0x4 rt ra
  | .fabs p rt ra => encodeFR2 p 0x77 0x5 rt ra
  | .fsign p rt ra => encodeFR2 p 0x77 0x6 rt ra
  | .fman p rt ra => encodeFR2 p 0x77 0x7 rt ra
  | .fstat p rt => encodeFR2 p 0x77 0xC rt 0
  | .frm p ra imm => encodeFR2 p 0x77 0xD imm ra
  | .fmovs p rt ra => encodeFR2 p 0x79 0x0 rt ra
  | .ftois p rt ra => encodeFR2 p 0x79 0x2 rt ra
  | .itofs p rt ra => encodeFR2 p 0x79 0x3 rt ra
  | .fnegs p rt ra => encodeFR2 p 0x79 0x4 rt ra
  | .fabss p rt ra => encodeFR2 p 0x79 0x5 rt ra
  | .fsigns p rt ra => encodeFR2 p 0x79 0x6 rt ra
  | .fmans p rt ra => encodeFR2 p 0x79 0x7 rt ra
  | .ftx p ra imm => encodeFR2 p 0x79 0xC imm ra
  | .fcx p ra imm => encodeFR2 p 0x79 0xD imm ra
  | .fex p ra imm => encodeFR2 p 0x79 0xE imm ra
  | .fdx p ra imm => encodeFR2 p 0x79 0xF imm ra
  | .fadd p rt ra rb => encodeFR3 p 0x08 rt ra rb
  | .fsub p rt ra rb => encodeFR3 p 0x09 rt ra rb
  | .fmul p rt ra rb => encodeFR3 p 0x0A rt ra rb
  | .fdiv p rt ra rb => encodeFR3 p 0x0B rt ra rb
  | .fadds p rt ra rb => encodeFR3 p 0x18 rt ra rb
  | .fsubs p rt ra rb => encodeFR3 p 0x19 rt ra rb
  | .fmuls p rt ra rb => encodeFR3 p 0x1A rt ra rb
  | .fdivs p rt ra rb => encodeFR3 p 0x1B rt ra rb
  | .fcmp p pt ra rb => encodeFC32 p 2 pt ra rb
  | .fcmps p pt ra rb => encodeFC32 p 1 pt ra rb
  | .ftst p pt ra => encodeFT24 p 2 pt ra
  | .ftsts p pt ra => encodeFT24 p 1 pt ra
  | .fmacS p rt ra rb rc => encodeFR4 p 8 rt ra rb rc
  | .fmasS p rt ra rb rc => encodeFR4 p 9 rt ra rb rc
  | .fnmacS p rt ra rb rc => encodeFR4 p 10 rt ra rb rc
  | .fnmasS p rt ra rb rc => encodeFR4 p 11 rt ra rb rc
  | .fmac p rt ra rb rc => encodeFR4 p 16 rt ra rb rc
  | .fmas p rt ra rb rc => encodeFR4 p 17 rt ra rb rc
  | .fnmac p rt ra rb rc => encodeFR4 p 18 rt ra rb rc
  | .fnmas p rt ra rb rc => encodeFR4 p 19 rt ra rb rc

/-- The bytes of a well-formed instruction in memory order (R62). -/
def encode (i : Instr) : List Byte := bytesOf i.length (encodeWord i)

/-- The instruction decoded from a table row's word: `w` has `nbits` bits, every bit above them is 0 up to the longest
instruction, six bytes (R80). -/
def decodeTableWord (nbits w : Nat) : Option Instr :=
  match decode (bytesOf 6 (w % 2 ^ nbits)) with
  | .ok i _ => some i
  | .reject _ => none

/-- A row of the match and mask table of R98. -/
structure OpcodeRow where
  mnemonic : String
  len : Nat
  mask : Nat
  pattern : Nat
  deriving DecidableEq, Repr

/-- The double-precision and FPSCR rows of R98. -/
def opcodeRowsDouble : List OpcodeRow :=
  [⟨"FMOV", 4, 0xF000FF00, 0x00007700⟩, ⟨"FTOI", 4, 0xF000FF00, 0x20007700⟩, ⟨"ITOF", 4, 0xF000FF00, 0x30007700⟩,
   ⟨"FNEG", 4, 0xF000FF00, 0x40007700⟩, ⟨"FABS", 4, 0xF000FF00, 0x50007700⟩, ⟨"FSIGN", 4, 0xF000FF00, 0x60007700⟩,
   ⟨"FMAN", 4, 0xF000FF00, 0x70007700⟩, ⟨"FSTAT", 4, 0xF000FF00, 0xC0007700⟩, ⟨"FRM", 4, 0xF000FF00, 0xD0007700⟩]

/-- The single-precision and exception-control rows of R98. -/
def opcodeRowsSingle : List OpcodeRow :=
  [⟨"FMOVS", 4, 0xF000FF00, 0x00007900⟩, ⟨"FTOIS", 4, 0xF000FF00, 0x20007900⟩, ⟨"ITOFS", 4, 0xF000FF00, 0x30007900⟩,
   ⟨"FNEGS", 4, 0xF000FF00, 0x40007900⟩, ⟨"FABSS", 4, 0xF000FF00, 0x50007900⟩, ⟨"FSIGNS", 4, 0xF000FF00, 0x60007900⟩,
   ⟨"FMANS", 4, 0xF000FF00, 0x70007900⟩, ⟨"FTX", 4, 0xF000FF00, 0xC0007900⟩, ⟨"FCX", 4, 0xF000FF00, 0xD0007900⟩,
   ⟨"FEX", 4, 0xF000FF00, 0xE0007900⟩, ⟨"FDX", 4, 0xF000FF00, 0xF0007900⟩]

/-- The arithmetic rows of R98. -/
def opcodeRowsArithmetic : List OpcodeRow :=
  [⟨"FADD", 5, 0xFC0000FF00, 0x2000007800⟩, ⟨"FSUB", 5, 0xFC0000FF00, 0x2400007800⟩,
   ⟨"FMUL", 5, 0xFC0000FF00, 0x2800007800⟩, ⟨"FDIV", 5, 0xFC0000FF00, 0x2C00007800⟩,
   ⟨"FADDS", 5, 0xFC0000FF00, 0x6000007800⟩, ⟨"FSUBS", 5, 0xFC0000FF00, 0x6400007800⟩,
   ⟨"FMULS", 5, 0xFC0000FF00, 0x6800007800⟩, ⟨"FDIVS", 5, 0xFC0000FF00, 0x6C00007800⟩]

/-- The compare, test and planned rows of R98. -/
def opcodeRowsOther : List OpcodeRow :=
  [⟨"FCMP", 4, 0xF000F000, 0x20001000⟩, ⟨"FCMPS", 4, 0xF000F000, 0x10001000⟩,
   ⟨"FTST", 3, 0xC0F000, 0x800000⟩, ⟨"FTSTS", 3, 0xC0F000, 0x400000⟩,
   ⟨"FMAC.S", 6, 0x1F000000FF00, 0x080000007600⟩, ⟨"FMAS.S", 6, 0x1F000000FF00, 0x090000007600⟩,
   ⟨"FNMAC.S", 6, 0x1F000000FF00, 0x0A0000007600⟩, ⟨"FNMAS.S", 6, 0x1F000000FF00, 0x0B0000007600⟩,
   ⟨"FMAC", 6, 0x1F000000FF00, 0x100000007600⟩, ⟨"FMAS", 6, 0x1F000000FF00, 0x110000007600⟩,
   ⟨"FNMAC", 6, 0x1F000000FF00, 0x120000007600⟩, ⟨"FNMAS", 6, 0x1F000000FF00, 0x130000007600⟩]

/-- The match and mask table of R98. -/
def opcodeRows : List OpcodeRow := opcodeRowsDouble ++ opcodeRowsSingle ++ opcodeRowsArithmetic ++ opcodeRowsOther

/-- An instruction's mnemonic as spec/opcode_table.json spells it (R105). -/
def Instr.mnemonic : Instr → String
  | .fmov .. => "FMOV" | .ftoi .. => "FTOI" | .itof .. => "ITOF" | .fneg .. => "FNEG" | .fabs .. => "FABS"
  | .fsign .. => "FSIGN" | .fman .. => "FMAN" | .fstat .. => "FSTAT" | .frm .. => "FRM"
  | .fmovs .. => "FMOVS" | .ftois .. => "FTOIS" | .itofs .. => "ITOFS" | .fnegs .. => "FNEGS" | .fabss .. => "FABSS"
  | .fsigns .. => "FSIGNS" | .fmans .. => "FMANS" | .ftx .. => "FTX" | .fcx .. => "FCX" | .fex .. => "FEX"
  | .fdx .. => "FDX" | .fadd .. => "FADD" | .fsub .. => "FSUB" | .fmul .. => "FMUL" | .fdiv .. => "FDIV"
  | .fadds .. => "FADDS" | .fsubs .. => "FSUBS" | .fmuls .. => "FMULS" | .fdivs .. => "FDIVS"
  | .fcmp .. => "FCMP" | .fcmps .. => "FCMPS" | .ftst .. => "FTST" | .ftsts .. => "FTSTS"
  | .fmacS .. => "FMAC.S" | .fmasS .. => "FMAS.S" | .fnmacS .. => "FNMAC.S" | .fnmasS .. => "FNMAS.S"
  | .fmac .. => "FMAC" | .fmas .. => "FMAS" | .fnmac .. => "FNMAC" | .fnmas .. => "FNMAS"

end Sys2Proof
end

