-- ==== Sys2Proof/Machine/Params.lean ====
section
/-! DEFINITION. The values State.reset gives to what spec/70_reset_and_hazards.md R311 leaves unspecified and to the
open parameters of spec/00_scope.md R8. Each is the model's choice, named in the assumption log (log 2 to 8, 12); no
statement rests on one, but where it says so. -/

namespace Sys2Proof.Machine

/-- `RESET_PC` (R311, D30 OPEN). DESIGN CHOICE, log 5. -/
def resetPc : Addr := 0

/-- A general register at reset (R311 unspecified). DESIGN CHOICE, log 6. -/
def resetReg : Word := 0

/-- FPSCR at reset (R311 unspecified). DESIGN CHOICE, log 8. -/
def resetFpscr : FpscrWord := 0

/-- The parameters State.reset holds: the spec's default where R8 gives one, else a DESIGN CHOICE (log 2, 3, 4). -/
def resetParams : Params where
  condTable := Vector.replicate 16 (Vector.replicate 16 true)
  r0Zero := false
  tininess := .afterRounding
  ftoiRound := .towardZero
  nsValue := false
  gxPolicy := .derived
  fmacImplemented := false
  fmacFused := false

end Sys2Proof.Machine
end

