-- ==== Sys2Proof/Machine/State.lean ====
section
/-! DEFINITION. The state of the machine (spec/10_state.md R20 to R44), the reasons a step can stop, and the state after
reset (spec/70_reset_and_hazards.md R311). -/

namespace Sys2Proof.Machine

/-- A predicate register: four flags (R26). -/
structure PredFlags where
  lt : Bool
  ltu : Bool
  eq : Bool
  un : Bool
  deriving DecidableEq, Repr

/-- The instruction memory (R42, R60): the bytes it holds, addresses strictly rising. An address that is not listed
holds no byte (R68). -/
abbrev Memory := List Host.Cell

/-- The state: registers, predicates, pc, FPSCR and instruction memory (R20, R24, R26, R29, R42); then what the model
adds: the open parameters (log 1) and the index of the next free values (log 12). -/
structure State where
  /-- x[0] to x[63] -/
  regs : Vector Word 64
  /-- p[0] to p[15] -/
  preds : Vector PredFlags 16
  /-- the address of the current instruction's predicate byte -/
  pc : Addr
  /-- FPSCR; bits 15 and 23 are storage FSTAT does not return (R34, R36), bit 9 is stored only under `sticky` (R38) -/
  fpscr : FpscrWord
  /-- the loaded program -/
  mem : Memory
  /-- the open parameters of R8 -/
  params : Params
  /-- the index of the next free values -/
  draws : Nat
  deriving DecidableEq, Repr

/-- Why the machine stops. -/
inductive Fault where
  /-- `raise FpException(kinds)` (R286), by the arithmetic, conversion and multiply-accumulate instructions and by FTX
  when a kind occurs that is enabled. `delivered` is the state at the moment of delivery (R287): FPSCR recorded, the
  target a free value, the pc at the instruction. Safe: the spec's default FP_TRAP is that the run stops (log 15). -/
  | fpException (kinds : Kinds) (delivered : State)
  /-- a fetch from an address the memory does not hold (R68): no step, a stuck state; raised by `step`. Safe (log 10). -/
  | fetchOutsideProgram (pc : Addr)
  deriving DecidableEq, Repr

/-- Why no claim is made of a word. -/
inductive Refusal where
  /-- an instruction without a meaning in this model; raised by `exec` only, and by no instruction now. Safe. -/
  | notModelled (mnemonic : String)
  /-- an opcode byte the source does not list (R100); raised by `step` before the predicate is looked at. Safe. -/
  | unlistedOpcode (op : Byte)
  /-- a listed opcode byte with an unlisted function code (R100); raised by `step` likewise. Safe. -/
  | unlistedFunction (op : Byte) (fn : Nat)
  /-- fewer bytes than the instruction's length; `step` never raises it, since fetch reads them all. Safe. -/
  | truncated
  /-- a planned instruction while FMAC_IMPLEMENTED is false (R101); raised by the multiply-accumulate meanings before
  the predicate is looked at. Safe. -/
  | plannedNotImplemented (mnemonic : String)
  deriving DecidableEq, Repr

/-- What a step answers. -/
abbrev Result := Host.Outcome State Fault Refusal

/-- The state after reset (R311): every value the spec leaves unspecified is the one Params.lean names, memory holds
nothing (the program is a launch parameter, log 11). -/
def State.reset : State where
  regs := Vector.replicate 64 resetReg
  preds := Vector.replicate 16 { lt := false, ltu := false, eq := false, un := false }
  pc := resetPc
  fpscr := resetFpscr
  mem := []
  params := resetParams
  draws := 0

end Sys2Proof.Machine
end

