-- ==== Sys2Proof/Machine/Ops.lean ====
section
/-! DEFINITION. The named operations on the state: general and predicate registers, memory, the predicate test, the
advance of pc, the delivery of an exception. There is no return from an exception (spec/60_exceptions.md R288). -/

namespace Sys2Proof.Machine

/-- The number of a general register: its six-bit field (R84). On a well-formed instruction it is `r` itself (log 17). -/
def regIndex (r : Nat) : Fin 64 := Fin.ofNat 64 r

/-- The number of a predicate register: its four-bit field (R84; log 17). -/
def predIndex (r : Nat) : Fin 16 := Fin.ofNat 16 r

/-- `x[r]` read (R13). -/
def State.readX (s : State) (r : Nat) : Word :=
  if s.params.r0Zero = true ∧ regIndex r = 0 then 0 else s.regs[regIndex r]

/-- `x[r] <- v` (R13). -/
def State.writeX (s : State) (r : Nat) (v : Word) : State :=
  if s.params.r0Zero = true ∧ regIndex r = 0 then s else { s with regs := s.regs.set (regIndex r) v }

/-- `p[r]` read (R13). -/
def State.readP (s : State) (r : Nat) : PredFlags := s.preds[predIndex r]

/-- All four flags of `p[r]` written (R220). -/
def State.writeP (s : State) (r : Nat) (f : PredFlags) : State := { s with preds := s.preds.set (predIndex r) f }

/-- FPSCR written whole; the field updates are in Flags.lean (R29). -/
def State.setFpscr (s : State) (v : FpscrWord) : State := { s with fpscr := v }

/-- The number of a flag combination, a column of the condition table. -/
def PredFlags.index (f : PredFlags) : Fin 16 :=
  Fin.ofNat 16 (f.lt.toNat + 2 * f.ltu.toNat + 4 * f.eq.toNat + 8 * f.un.toNat)

/-- `CondHolds(Pc, flags)` (R9). -/
def Params.condHolds (ps : Params) (c : Nat) (f : PredFlags) : Bool := (ps.condTable[predIndex c])[f.index]

/-- `PredTrue()` (R9, R13). -/
def State.predTrue (s : State) (p : Pred) : Bool := Params.condHolds s.params p.pc (s.readP p.pn)

/-- The instruction is done: pc moves past its `len` bytes, modulo 2^AW (R15, R25), and the next instruction has free
values of its own (log 12). -/
def State.advance (s : State) (len : Nat) : State :=
  { s with pc := s.pc + BitVec.ofNat 64 len, draws := s.draws + 1 }

/-- What follows an instruction's body: pc advances, unless the body stopped (R15, R286). -/
def advanceNext (len : Nat) : Result → Result
  | .next s => .next (s.advance len)
  | .fault r => .fault r
  | .refused r => .refused r

/-- The step skeleton of R15: the body runs only if the predicate holds; then pc advances. -/
def predicated (p : Pred) (len : Nat) (body : State → Result) (s : State) : Result :=
  if s.predTrue p then advanceNext len (body s) else .next (s.advance len)

/-- `raise FpException(en)` under the default FP_TRAP (R286, R287): the step faults with the kinds, at the state the
caller has brought about; pc is not advanced and no handler runs. -/
def raiseFpException (en : Kinds) (s : State) : Result := .fault (.fpException en s)

/-- The byte an address holds, if it holds one (R60, R68). -/
def Memory.byteAt : Memory → Nat → Option Byte
  | [], _ => none
  | (a, b) :: m, x => if x = a then some b else Memory.byteAt m x

/-- A byte stored at an address; the list stays in rising order (R64). -/
def Memory.store : Memory → Nat → Byte → Memory
  | [], x, v => [(x, v)]
  | (a, b) :: m, x, v =>
    if x < a then (x, v) :: (a, b) :: m
    else if x = a then (x, v) :: m
    else (a, b) :: Memory.store m x v

/-- The canonical form from an address on: rising addresses, each below 2^64. Nothing else is asked, since an unlisted
address holds no byte. -/
def Memory.wfFrom : Nat → Memory → Bool
  | _, [] => true
  | lo, (a, _) :: m => decide (lo ≤ a) && decide (a < 2 ^ 64) && Memory.wfFrom (a + 1) m

/-- The canonical form: equal memories are equal lists. -/
def Memory.wf (m : Memory) : Bool := Memory.wfFrom 0 m

/-- The `n` bytes at `addr`, addresses modulo 2^AW (R63), or none where one is not held (R68). -/
def Memory.readBytes (m : Memory) (addr : Addr) : Nat → Option (List Byte)
  | 0 => some []
  | n + 1 =>
    match m.byteAt addr.toNat, Memory.readBytes m (addr + 1) n with
    | some b, some bs => some (b :: bs)
    | _, _ => none

/-- `MemRead(addr, n)` (R63). -/
def Memory.memRead (m : Memory) (addr : Addr) (n : Nat) : Option Nat := (m.readBytes addr n).map wordOf

/-- Bytes stored from `addr` upward, addresses modulo 2^AW (R63, R64). -/
def Memory.writeBytes (m : Memory) (addr : Addr) : List Byte → Memory
  | [] => m
  | b :: bs => Memory.writeBytes (m.store addr.toNat b) (addr + 1) bs

/-- `MemWrite(addr, n, v)` (R64). No instruction calls it; it loads a program (log 11). -/
def Memory.memWrite (m : Memory) (addr : Addr) (n v : Nat) : Memory := m.writeBytes addr (bytesOf n v)

end Sys2Proof.Machine
end

