-- ==== Sys2Proof/Machine/Flags.lean ====
section
/-! DEFINITION. Every flag computation: the fields of FPSCR (spec/10_state.md R29 to R41), the result status and the
recording and signalling of exceptions (spec/40_numerics.md R141 to R147), the flags of a comparison
(spec/44_compare.md R221 to R226). -/

namespace Sys2Proof.Machine

/-- A word with its bits `lo + n - 1` down to `lo` replaced by `x` (R13). -/
def setField (v : FpscrWord) (lo : Nat) {n : Nat} (x : BitVec n) : FpscrWord :=
  (v &&& ~~~((BitVec.allOnes n).setWidth 32 <<< lo)) ||| (x.setWidth 32 <<< lo)

/-- RM, bits 31:29 (R32). -/
def fpscrRM (v : FpscrWord) : BitVec 3 := v.extractLsb' 29 3

/-- E5 to E1, bits 28:24 (R33). -/
def fpscrEnables (v : FpscrWord) : Kinds := v.extractLsb' 24 5

/-- X5 to X1, bits 14:10 (R37). -/
def fpscrOccurred (v : FpscrWord) : Kinds := v.extractLsb' 10 5

/-- SX, bit 8 (R39). -/
def fpscrSX (v : FpscrWord) : Bool := v.getLsbD 8

/-- X1T, bits 7:0 (R40). -/
def fpscrTypes (v : FpscrWord) : Types := v.extractLsb' 0 8

/-- The class bits 20:16 (R35, R143). -/
def fpscrClass (v : FpscrWord) : BitVec 5 := v.extractLsb' 16 5

/-- GX as it is read under the policy (R38). -/
def fpscrGX (pol : GxPolicy) (v : FpscrWord) : Bool :=
  match pol with
  | .derived => decide (fpscrOccurred v &&& fpscrEnables v ≠ 0)
  | .sticky => v.getLsbD 9

/-- FPSCR as FSTAT returns it (R243): bit 9 by the policy, bit 15 the free value, bit 23 `NS_VALUE`. -/
def fpscrRead (ps : Params) (swt : BitVec 1) (v : FpscrWord) : FpscrWord :=
  setField (setField (setField v 9 (BitVec.ofBool (fpscrGX ps.gxPolicy v))) 15 swt) 23 (BitVec.ofBool ps.nsValue)

/-- The class bits `C, neg, pos, zero, inf` of a result, FPSCR[20:16] (R143, R144). -/
def classBits (f : Fmt) (r : Word) : BitVec 5 :=
  BitVec.ofBool (isDenormal f r || (isZero f r && fpSign f r) || isQNaN f r) ++
  BitVec.ofBool (fpSign f r && !isZero f r && !isNaN f r) ++
  BitVec.ofBool (!fpSign f r && !isZero f r && !isNaN f r) ++
  BitVec.ofBool (isZero f r) ++
  BitVec.ofBool (isInf f r || isQNaN f r)

/-- Bits 22:16 and 7:0 after an arithmetic or conversion instruction, `cls` its class bits (R141, R142, R147, R204). -/
def recordStatus (cls : BitVec 5) (r : FpResult) (v : FpscrWord) : FpscrWord :=
  let fractie := r.inexact || (r.kinds.getLsbD 1 && !v.getLsbD 25)
  let v := setField v 22 (BitVec.ofBool fractie)
  let v := setField v 21 (BitVec.ofBool r.away)
  let v := setField v 16 cls
  setField v 0 (fpscrTypes v ||| r.types)

/-- The kinds of a set that are enabled (R146). -/
def enabledOf (k : Kinds) (v : FpscrWord) : Kinds := k &&& fpscrEnables v

/-- What `Signal(k)` records (R146): X1 to X5, SX, and GX where it is stored and a kind is enabled. -/
def recordKinds (pol : GxPolicy) (k : Kinds) (v : FpscrWord) : FpscrWord :=
  if k = 0 then v
  else
    let w := setField (setField v 10 (fpscrOccurred v ||| k)) 8 1#1
    if pol = .sticky ∧ enabledOf k v ≠ 0 then setField w 9 1#1 else w

/-- `Signal(k)` (R146): the kinds are recorded, and the enabled ones raised. -/
def signal (k : Kinds) (s : State) : Result :=
  let s' := s.setFpscr (recordKinds s.params.gxPolicy k s.fpscr)
  if enabledOf k s.fpscr = 0 then .next s' else raiseFpException (enabledOf k s.fpscr) s'

/-- The generated quiet NaN of this instruction (R132). -/
def State.nanDraw (s : State) (f : Fmt) : Word := quietNaN f (Config.freeNaN s.draws)

/-- `SingleResult(v)` (R123): bits 31:0 of `v` under a free upper half. -/
def State.singleResult (s : State) (v : Word) : Word := Config.freeUpper s.draws ++ v.setWidth 32

/-- The 64 bits a result of the format is written as (R123, R147). -/
def State.resultWord (s : State) (f : Fmt) (v : Word) : Word :=
  match f with
  | .double => v
  | .single => s.singleResult v

/-- The shared tail of R147 and R204: status and types are recorded; the target receives `word`, or a free value when
an enabled kind occurred; then the kinds are signalled. -/
def finishWith (rt : Nat) (word : Word) (cls : BitVec 5) (r : FpResult) (s : State) : Result :=
  let s' := s.setFpscr (recordStatus cls r s.fpscr)
  let written := if enabledOf r.kinds s.fpscr = 0 then word else Config.freeTarget s.draws
  signal r.kinds (s'.writeX rt written)

/-- `FpFinish(fmt, Rt, r, ...)` (R147). -/
def fpFinish (f : Fmt) (rt : Nat) (r : FpResult) (s : State) : Result :=
  finishWith rt (s.resultWord f r.bits) (classBits f r.bits) r s

/-- The tail of FTOI and FTOIS (R204): an integer result, the class bits free (R145). -/
def intFinish (rt : Nat) (r : FpResult) (s : State) : Result :=
  finishWith rt r.bits (Config.freeClass s.draws) r s

/-- `FpCompare(fmt, a, b)` (R221 to R226). -/
def fpCompare (f : Fmt) (a b : Word) : PredFlags :=
  let un := isNaN f a || isNaN f b
  { lt := !un && (extValue f a).less (extValue f b)
    ltu := !un && (extMag f a).less (extMag f b)
    eq := !un && decide (extValue f a = extValue f b)
    un := un }

/-- The flags of FTST and FTSTS (R230, R231). -/
def fpTest (f : Fmt) (a : Word) : PredFlags :=
  { lt := !isNaN f a && (extValue f a).less (.finite 0)
    ltu := false
    eq := isZero f a
    un := isNaN f a }

end Sys2Proof.Machine
end

