-- ==== Sys2Proof/Machine/Operands.lean ====
section
/-! DEFINITION. Every operand form of the instructions (spec/30_encoding.md R84, R85, R102; spec/40_numerics.md R123). -/

namespace Sys2Proof.Machine

/-- A floating-point operand: all of the register for a double, bits 31:0 for a single (R12, R123). -/
def State.fpOperand (s : State) (f : Fmt) (r : Nat) : Word :=
  match f with
  | .double => s.readX r
  | .single => ((s.readX r).setWidth 32).setWidth 64

/-- `x[Ra] | zext_64(Immed6)` (R85). -/
def State.orOperand (s : State) (ra imm : Nat) : Word := s.readX ra ||| (BitVec.ofNat 6 imm).setWidth 64

/-- The mask operand `m` of FTX, FCX, FEX and FDX, six bits (R241). -/
def State.maskOperand (s : State) (ra imm : Nat) : BitVec 6 := (s.orOperand ra imm).setWidth 6

/-- The kinds a mask names, `m[4:0]` (R241). -/
def maskKinds (m : BitVec 6) : Kinds := m.setWidth 5

end Sys2Proof.Machine
end

