-- ==== Sys2Proof/Machine/Arithmetic.lean ====
section
/-! DEFINITION. FADD, FSUB, FMUL, FDIV and their S forms (spec/41_arithmetic.md R160 to R169). -/

namespace Sys2Proof.Machine

/-- The body every rule of the family has (R160): operands, `FpArith`, `FpFinish`. -/
def arithBody (f : Fmt) (op : FpOp) (rt ra rb : Nat) (s : State) : Result :=
  fpFinish f rt (fpArith f s.params.tininess op (s.nanDraw f) (s.fpOperand f ra) (s.fpOperand f rb)) s

/-- FADD (R162). -/
def execFadd (p : Pred) (rt ra rb : Nat) (s : State) : Result := predicated p 5 (arithBody .double .add rt ra rb) s

/-- FADDS (R163). -/
def execFadds (p : Pred) (rt ra rb : Nat) (s : State) : Result := predicated p 5 (arithBody .single .add rt ra rb) s

/-- FSUB (R161, R164): `Ra - Rb`. -/
def execFsub (p : Pred) (rt ra rb : Nat) (s : State) : Result := predicated p 5 (arithBody .double .sub rt ra rb) s

/-- FSUBS (R165). -/
def execFsubs (p : Pred) (rt ra rb : Nat) (s : State) : Result := predicated p 5 (arithBody .single .sub rt ra rb) s

/-- FMUL (R166). -/
def execFmul (p : Pred) (rt ra rb : Nat) (s : State) : Result := predicated p 5 (arithBody .double .mul rt ra rb) s

/-- FMULS (R167). -/
def execFmuls (p : Pred) (rt ra rb : Nat) (s : State) : Result := predicated p 5 (arithBody .single .mul rt ra rb) s

/-- FDIV (R161, R168): `Ra / Rb`. -/
def execFdiv (p : Pred) (rt ra rb : Nat) (s : State) : Result := predicated p 5 (arithBody .double .div rt ra rb) s

/-- FDIVS (R169). -/
def execFdivs (p : Pred) (rt ra rb : Nat) (s : State) : Result := predicated p 5 (arithBody .single .div rt ra rb) s

end Sys2Proof.Machine
end

