-- ==== Sys2Proof/Machine/Compare.lean ====
section
/-! DEFINITION. FCMP, FCMPS, FTST, FTSTS (spec/44_compare.md R220 to R231): the four flags of p[Pt] and nothing else. -/

namespace Sys2Proof.Machine

/-- The body of FCMP and FCMPS (R220, R226). -/
def compareBody (f : Fmt) (pt ra rb : Nat) (s : State) : Result :=
  .next (s.writeP pt (fpCompare f (s.fpOperand f ra) (s.fpOperand f rb)))

/-- The body of FTST and FTSTS (R220, R230). -/
def testBody (f : Fmt) (pt ra : Nat) (s : State) : Result := .next (s.writeP pt (fpTest f (s.fpOperand f ra)))

/-- FCMP (R228). -/
def execFcmp (p : Pred) (pt ra rb : Nat) (s : State) : Result := predicated p 4 (compareBody .double pt ra rb) s

/-- FCMPS (R229). -/
def execFcmps (p : Pred) (pt ra rb : Nat) (s : State) : Result := predicated p 4 (compareBody .single pt ra rb) s

/-- FTST (R230). -/
def execFtst (p : Pred) (pt ra : Nat) (s : State) : Result := predicated p 3 (testBody .double pt ra) s

/-- FTSTS (R231). -/
def execFtsts (p : Pred) (pt ra : Nat) (s : State) : Result := predicated p 3 (testBody .single pt ra) s

end Sys2Proof.Machine
end

