-- ==== Sys2Proof/Machine/Control.lean ====
section
/-! DEFINITION. FRM, FSTAT, FTX, FCX, FEX, FDX (spec/45_control_status.md R240 to R247). -/

namespace Sys2Proof.Machine

/-- FRM writes RM with bits 2:0 of the operand (R242). -/
def frmBody (ra imm : Nat) (s : State) : Result :=
  .next (s.setFpscr (setField s.fpscr 29 ((s.orOperand ra imm).setWidth 3)))

/-- FSTAT reads FPSCR, zero extended (R243). -/
def fstatBody (rt : Nat) (s : State) : Result :=
  .next (s.writeX rt ((fpscrRead s.params (Config.freeSwt s.draws) s.fpscr).setWidth 64))

/-- FTX signals the kinds its mask names (R244). -/
def ftxBody (ra imm : Nat) (s : State) : Result := signal (maskKinds (s.maskOperand ra imm)) s

/-- What FCX clears (R245): X1 to X5 by mask bits 0 to 4, FPSCR[5:1] by mask bit 0, SX by mask bit 5. -/
def clearKinds (m : BitVec 6) (v : FpscrWord) : FpscrWord :=
  let v := setField v 10 (fpscrOccurred v &&& ~~~maskKinds m)
  let v := if m.getLsbD 0 then setField v 1 0#5 else v
  if m.getLsbD 5 then setField v 8 0#1 else v

/-- FCX (R245). -/
def fcxBody (ra imm : Nat) (s : State) : Result := .next (s.setFpscr (clearKinds (s.maskOperand ra imm) s.fpscr))

/-- FEX sets enable bits (R246). -/
def fexBody (ra imm : Nat) (s : State) : Result :=
  .next (s.setFpscr (setField s.fpscr 24 (fpscrEnables s.fpscr ||| maskKinds (s.maskOperand ra imm))))

/-- FDX clears enable bits (R247). -/
def fdxBody (ra imm : Nat) (s : State) : Result :=
  .next (s.setFpscr (setField s.fpscr 24 (fpscrEnables s.fpscr &&& ~~~maskKinds (s.maskOperand ra imm))))

/-- FRM (R242). -/
def execFrm (p : Pred) (ra imm : Nat) (s : State) : Result := predicated p 4 (frmBody ra imm) s

/-- FSTAT (R243). -/
def execFstat (p : Pred) (rt : Nat) (s : State) : Result := predicated p 4 (fstatBody rt) s

/-- FTX (R244). -/
def execFtx (p : Pred) (ra imm : Nat) (s : State) : Result := predicated p 4 (ftxBody ra imm) s

/-- FCX (R245). -/
def execFcx (p : Pred) (ra imm : Nat) (s : State) : Result := predicated p 4 (fcxBody ra imm) s

/-- FEX (R246). -/
def execFex (p : Pred) (ra imm : Nat) (s : State) : Result := predicated p 4 (fexBody ra imm) s

/-- FDX (R247). -/
def execFdx (p : Pred) (ra imm : Nat) (s : State) : Result := predicated p 4 (fdxBody ra imm) s

end Sys2Proof.Machine
end

