-- ==== Sys2Proof/Machine/Conversion.lean ====
section
/-! DEFINITION. FTOI, FTOIS, ITOF, ITOFS (spec/43_conversion.md R200 to R208). -/

namespace Sys2Proof.Machine

/-- The body of FTOI and FTOIS (R202, R204). -/
def ftoiBody (f : Fmt) (rt ra : Nat) (s : State) : Result :=
  intFinish rt (fToI f s.params.ftoiRound (Config.freeInteger s.draws) (s.fpOperand f ra)) s

/-- The body of ITOF and ITOFS (R207, R208): the operand is the whole register (R200). -/
def itofBody (f : Fmt) (rt ra : Nat) (s : State) : Result :=
  fpFinish f rt (iToF f s.params.tininess (s.readX ra)) s

/-- FTOI (R205). -/
def execFtoi (p : Pred) (rt ra : Nat) (s : State) : Result := predicated p 4 (ftoiBody .double rt ra) s

/-- FTOIS (R206). -/
def execFtois (p : Pred) (rt ra : Nat) (s : State) : Result := predicated p 4 (ftoiBody .single rt ra) s

/-- ITOF (R207). -/
def execItof (p : Pred) (rt ra : Nat) (s : State) : Result := predicated p 4 (itofBody .double rt ra) s

/-- ITOFS (R208). -/
def execItofs (p : Pred) (rt ra : Nat) (s : State) : Result := predicated p 4 (itofBody .single rt ra) s

end Sys2Proof.Machine
end

