-- ==== Sys2Proof/Machine/Fmac.lean ====
section
/-! DEFINITION. The planned multiply-accumulate family (spec/46_fmac_planned.md R260 to R271). -/

namespace Sys2Proof.Machine

/-- The body of R263: three operands, `FMacOp`, `FpFinish`. -/
def macBody (f : Fmt) (subc negr : Bool) (rt ra rb rc : Nat) (s : State) : Result :=
  fpFinish f rt
    (fMacOp f s.params.tininess s.params.fmacFused subc negr (quietNaN f (Config.freeProductNaN s.draws)) (s.nanDraw f)
      (s.fpOperand f ra) (s.fpOperand f rb) (s.fpOperand f rc)) s

/-- A planned instruction (R101, R260): refused, before the predicate is looked at (R100), unless FMAC_IMPLEMENTED. -/
def planned (mnemonic : String) (p : Pred) (body : State → Result) (s : State) : Result :=
  if s.params.fmacImplemented then predicated p 6 body s else .refused (.plannedNotImplemented mnemonic)

/-- FMAC.S (R264). -/
def execFmacS (p : Pred) (rt ra rb rc : Nat) (s : State) : Result :=
  planned "FMAC.S" p (macBody .single false false rt ra rb rc) s

/-- FMAS.S (R265). -/
def execFmasS (p : Pred) (rt ra rb rc : Nat) (s : State) : Result :=
  planned "FMAS.S" p (macBody .single true false rt ra rb rc) s

/-- FNMAC.S (R266). -/
def execFnmacS (p : Pred) (rt ra rb rc : Nat) (s : State) : Result :=
  planned "FNMAC.S" p (macBody .single false true rt ra rb rc) s

/-- FNMAS.S (R267). -/
def execFnmasS (p : Pred) (rt ra rb rc : Nat) (s : State) : Result :=
  planned "FNMAS.S" p (macBody .single true true rt ra rb rc) s

/-- FMAC (R268). -/
def execFmac (p : Pred) (rt ra rb rc : Nat) (s : State) : Result :=
  planned "FMAC" p (macBody .double false false rt ra rb rc) s

/-- FMAS (R269). -/
def execFmas (p : Pred) (rt ra rb rc : Nat) (s : State) : Result :=
  planned "FMAS" p (macBody .double true false rt ra rb rc) s

/-- FNMAC (R270). -/
def execFnmac (p : Pred) (rt ra rb rc : Nat) (s : State) : Result :=
  planned "FNMAC" p (macBody .double false true rt ra rb rc) s

/-- FNMAS (R271). -/
def execFnmas (p : Pred) (rt ra rb rc : Nat) (s : State) : Result :=
  planned "FNMAS" p (macBody .double true true rt ra rb rc) s

end Sys2Proof.Machine
end

