-- ==== Sys2Proof/Machine/SignMove.lean ====
section
/-! DEFINITION. FMOV, FNEG, FABS, FSIGN, FMAN and their S forms (spec/42_sign_move.md R180 to R191): a function of the
bits of x[Ra] is written to x[Rt], and no flag is touched. -/

namespace Sys2Proof.Machine

/-- The body every rule of the family has (R180). -/
def unaryBody (rt : Nat) (value : State → Word) (s : State) : Result := .next (s.writeX rt (value s))

/-- What FSIGN and FSIGNS write (R188, R189): a free value for a NaN, else 0.0, -1.0 or +1.0. -/
def State.signOf (s : State) (f : Fmt) (one a : Word) : Word :=
  if isNaN f a then Config.freeSign s.draws
  else if isZero f a then s.resultWord f 0
  else if fpSign f a then s.resultWord f (flipSign f one)
  else s.resultWord f one

/-- FMOV (R182). -/
def execFmov (p : Pred) (rt ra : Nat) (s : State) : Result := predicated p 4 (unaryBody rt fun s => s.readX ra) s

/-- FMOVS (R183): all 64 bits. -/
def execFmovs (p : Pred) (rt ra : Nat) (s : State) : Result := predicated p 4 (unaryBody rt fun s => s.readX ra) s

/-- FNEG (R184). -/
def execFneg (p : Pred) (rt ra : Nat) (s : State) : Result :=
  predicated p 4 (unaryBody rt fun s => s.readX ra ^^^ 0x8000000000000000) s

/-- FNEGS (R185). -/
def execFnegs (p : Pred) (rt ra : Nat) (s : State) : Result :=
  predicated p 4 (unaryBody rt fun s => s.singleResult (s.fpOperand .single ra ^^^ 0x80000000)) s

/-- FABS (R186). -/
def execFabs (p : Pred) (rt ra : Nat) (s : State) : Result :=
  predicated p 4 (unaryBody rt fun s => s.readX ra &&& 0x7FFFFFFFFFFFFFFF) s

/-- FABSS (R187). -/
def execFabss (p : Pred) (rt ra : Nat) (s : State) : Result :=
  predicated p 4 (unaryBody rt fun s => s.singleResult (s.fpOperand .single ra &&& 0x7FFFFFFF)) s

/-- FSIGN (R188). -/
def execFsign (p : Pred) (rt ra : Nat) (s : State) : Result :=
  predicated p 4 (unaryBody rt fun s => s.signOf .double 0x3FF0000000000000 (s.fpOperand .double ra)) s

/-- FSIGNS (R189). -/
def execFsigns (p : Pred) (rt ra : Nat) (s : State) : Result :=
  predicated p 4 (unaryBody rt fun s => s.signOf .single 0x3F800000 (s.fpOperand .single ra)) s

/-- FMAN (R190): the 52 fraction bits, zero extended. -/
def execFman (p : Pred) (rt ra : Nat) (s : State) : Result :=
  predicated p 4 (unaryBody rt fun s => ((s.readX ra).setWidth 52).setWidth 64) s

/-- FMANS (R191): the 23 fraction bits, zero extended to 64. -/
def execFmans (p : Pred) (rt ra : Nat) (s : State) : Result :=
  predicated p 4 (unaryBody rt fun s => ((s.readX ra).setWidth 23).setWidth 64) s

end Sys2Proof.Machine
end

