-- ==== Sys2Proof/Machine/Dispatch.lean ====
section
/-! DEFINITION. One arm for each instruction. -/

namespace Sys2Proof.Machine

/-- The effect of an instruction. -/
def exec (i : Instr) (s : State) : Host.Outcome State Fault Refusal :=
  match i with
  | .fmov p rt ra => Sys2Proof.Machine.execFmov p rt ra s
  | .ftoi p rt ra => Sys2Proof.Machine.execFtoi p rt ra s
  | .itof p rt ra => Sys2Proof.Machine.execItof p rt ra s
  | .fneg p rt ra => Sys2Proof.Machine.execFneg p rt ra s
  | .fabs p rt ra => Sys2Proof.Machine.execFabs p rt ra s
  | .fsign p rt ra => Sys2Proof.Machine.execFsign p rt ra s
  | .fman p rt ra => Sys2Proof.Machine.execFman p rt ra s
  | .fstat p rt => Sys2Proof.Machine.execFstat p rt s
  | .frm p ra imm => Sys2Proof.Machine.execFrm p ra imm s
  | .fmovs p rt ra => Sys2Proof.Machine.execFmovs p rt ra s
  | .ftois p rt ra => Sys2Proof.Machine.execFtois p rt ra s
  | .itofs p rt ra => Sys2Proof.Machine.execItofs p rt ra s
  | .fnegs p rt ra => Sys2Proof.Machine.execFnegs p rt ra s
  | .fabss p rt ra => Sys2Proof.Machine.execFabss p rt ra s
  | .fsigns p rt ra => Sys2Proof.Machine.execFsigns p rt ra s
  | .fmans p rt ra => Sys2Proof.Machine.execFmans p rt ra s
  | .ftx p ra imm => Sys2Proof.Machine.execFtx p ra imm s
  | .fcx p ra imm => Sys2Proof.Machine.execFcx p ra imm s
  | .fex p ra imm => Sys2Proof.Machine.execFex p ra imm s
  | .fdx p ra imm => Sys2Proof.Machine.execFdx p ra imm s
  | .fadd p rt ra rb => Sys2Proof.Machine.execFadd p rt ra rb s
  | .fsub p rt ra rb => Sys2Proof.Machine.execFsub p rt ra rb s
  | .fmul p rt ra rb => Sys2Proof.Machine.execFmul p rt ra rb s
  | .fdiv p rt ra rb => Sys2Proof.Machine.execFdiv p rt ra rb s
  | .fadds p rt ra rb => Sys2Proof.Machine.execFadds p rt ra rb s
  | .fsubs p rt ra rb => Sys2Proof.Machine.execFsubs p rt ra rb s
  | .fmuls p rt ra rb => Sys2Proof.Machine.execFmuls p rt ra rb s
  | .fdivs p rt ra rb => Sys2Proof.Machine.execFdivs p rt ra rb s
  | .fcmp p pt ra rb => Sys2Proof.Machine.execFcmp p pt ra rb s
  | .fcmps p pt ra rb => Sys2Proof.Machine.execFcmps p pt ra rb s
  | .ftst p pt ra => Sys2Proof.Machine.execFtst p pt ra s
  | .ftsts p pt ra => Sys2Proof.Machine.execFtsts p pt ra s
  | .fmacS p rt ra rb rc => Sys2Proof.Machine.execFmacS p rt ra rb rc s
  | .fmasS p rt ra rb rc => Sys2Proof.Machine.execFmasS p rt ra rb rc s
  | .fnmacS p rt ra rb rc => Sys2Proof.Machine.execFnmacS p rt ra rb rc s
  | .fnmasS p rt ra rb rc => Sys2Proof.Machine.execFnmasS p rt ra rb rc s
  | .fmac p rt ra rb rc => Sys2Proof.Machine.execFmac p rt ra rb rc s
  | .fmas p rt ra rb rc => Sys2Proof.Machine.execFmas p rt ra rb rc s
  | .fnmac p rt ra rb rc => Sys2Proof.Machine.execFnmac p rt ra rb rc s
  | .fnmas p rt ra rb rc => Sys2Proof.Machine.execFnmas p rt ra rb rc s

end Sys2Proof.Machine
end

