-- ==== Sys2Proof/Machine/Fetch.lean ====
section
/-! DEFINITION. Fetch and decode at pc (spec/30_encoding.md R82), and storing an instruction where it is fetched. -/

namespace Sys2Proof.Machine

/-- What a fetch answers. -/
inductive Fetched where
  | instr (i : Instr)
  | missing
  | rejected (r : Reject)
  deriving DecidableEq, Repr

/-- The fetch of R82: predicate byte, opcode byte, length, then the whole instruction. A byte the memory does not hold
leaves nothing to run (R68). -/
def State.fetch (s : State) : Fetched :=
  match s.mem.readBytes s.pc 2 with
  | some [_, op] =>
    match instrLength op with
    | none => .rejected (.unlistedOpcode op)
    | some n =>
      match s.mem.readBytes s.pc n with
      | none => .missing
      | some bytes =>
        match decode bytes with
        | .ok i _ => .instr i
        | .reject r => .rejected r
  | _ => .missing

/-- The refusal of a word that is no instruction (R100). -/
def refusalOf : Reject → Refusal
  | .truncated => .truncated
  | .unlistedOpcode op => .unlistedOpcode op
  | .unlistedFunction op fn => .unlistedFunction op fn

/-- The state with bytes stored from pc upward (R64). -/
def State.storeAtPc (s : State) (n w : Nat) : State := { s with mem := s.mem.memWrite s.pc n w }

end Sys2Proof.Machine
end

