-- ==== Sys2Proof/Machine/Step.lean ====
section
/-! DEFINITION. One step of the machine (spec/00_scope.md R15) and the host's way to place one instruction. -/

namespace Sys2Proof.Machine

/-- The step of R15: fetch and decode; refuse what is no instruction; else run it. The predicate test and the advance
of pc are in each meaning (`predicated`). -/
def step (s : State) : Host.Outcome State Fault Refusal :=
  match s.fetch with
  | .instr i => exec i s
  | .missing => .fault (.fetchOutsideProgram s.pc)
  | .rejected r => .refused (refusalOf r)

/-- The state with an instruction of `nbits` bits stored at pc, the bits above them zero up to six bytes (log 11). -/
def State.withFetchWord (s : State) (nbits w : Nat) : State := s.storeAtPc 6 (w % 2 ^ nbits)

end Sys2Proof.Machine
end

