-- ==== Sys2Proof/Safety.lean ====
section
/-! DEFINITION. What counts as a safe run (spec/70_reset_and_hazards.md R314, spec/60_exceptions.md R286), the
invariant of the machine, and the terms the statements use: what an instruction changes and leaves, the value of a
pattern as a rational number (spec/40_numerics.md R124 to R126), a correctly rounded result (R129). -/

namespace Sys2Proof.Machine

/-- The step from this state is neither a fault nor a refusal. -/
def State.Steps (s : State) : Prop := ∃ t, step s = .next t

/-- A run to `END_PC` (R314): at most `fuel` steps, stopping where `pc = endPc`, at a fault or at a refusal. None means
that the run is not over. -/
def runTo (endPc : Addr) : Nat → State → Option Result
  | 0, s => if s.pc = endPc then some (.next s) else none
  | fuel + 1, s =>
    if s.pc = endPc then some (.next s)
    else
      match step s with
      | .next t => runTo endPc fuel t
      | .fault r => some (.fault r)
      | .refused r => some (.refused r)

/-- A run that ends in a final state: at `END_PC`, no fault and no refusal (R314). -/
def SafeRun (endPc : Addr) (fuel : Nat) (s : State) : Prop := ∃ t, runTo endPc fuel s = some (.next t)

/-- The invariant every step keeps: memory is in canonical form, and a recorded type of bits 5:1 comes with X1, since
the instructions that set one set both (R40) and the one that clears X1 clears these (R245). -/
def State.Inv (s : State) : Prop :=
  s.mem.wf = true ∧ (s.fpscr.extractLsb' 1 5 ≠ 0 → s.fpscr.getLsbD 10 = true)

/-- The instruction ends in the state `t`: as its next state, or delivered with an exception (R287). -/
def Instr.Leads (i : Instr) (s t : State) : Prop := exec i s = .next t ∨ ∃ en, exec i s = .fault (.fpException en t)

/-- An outcome with the state it ends in changed: the next state, or the one an exception is delivered in. The kinds
delivered, and the reason of any other stop, stay. -/
def onState (g : State → State) : Result → Result
  | .next t => .next (g t)
  | .fault (.fpException en d) => .fault (.fpException en (g d))
  | .fault (.fetchOutsideProgram a) => .fault (.fetchOutsideProgram a)
  | .refused r => .refused r

/-- An instruction of `len` bytes is done: pc is past it, and no byte of memory and no parameter has changed. -/
def State.Advanced (s t : State) (len : Nat) : Prop :=
  t.pc = s.pc + BitVec.ofNat 64 len ∧ (∀ a, t.mem.byteAt a = s.mem.byteAt a) ∧ t.params = s.params

/-- Every general register reads as before. -/
def State.SameRegisters (s t : State) : Prop := ∀ r, t.readX r = s.readX r

/-- Every predicate register reads as before. -/
def State.SamePredicates (s t : State) : Prop := ∀ q, t.readP q = s.readP q

/-- Register `rt` holds a value of which `P` is true, unless it is the hard-wired zero register, which still reads zero
(R13); every other register reads as before. -/
def State.TargetHolds (s t : State) (rt : Nat) (P : Word → Prop) : Prop :=
  (if s.params.r0Zero = true ∧ regIndex rt = 0 then t.readX rt = 0 else P (t.readX rt)) ∧
    ∀ r, regIndex r ≠ regIndex rt → t.readX r = s.readX r

/-- Only register `rt` has changed, and pc. -/
def State.WritesRegister (s t : State) (len rt : Nat) (P : Word → Prop) : Prop :=
  s.Advanced t len ∧ s.TargetHolds t rt P ∧ s.SamePredicates t ∧ t.fpscr = s.fpscr

/-- Only predicate register `pt` has changed, and pc. -/
def State.WritesPredicate (s t : State) (len pt : Nat) (f : PredFlags) : Prop :=
  s.Advanced t len ∧ s.SameRegisters t ∧ t.readP pt = f ∧
    (∀ q, predIndex q ≠ predIndex pt → t.readP q = s.readP q) ∧ t.fpscr = s.fpscr

/-- Only FPSCR has changed, and pc: bit `i` of FPSCR is now `bit i`. -/
def State.WritesFpscr (s t : State) (len : Nat) (bit : Nat → Bool) : Prop :=
  s.Advanced t len ∧ s.SameRegisters t ∧ s.SamePredicates t ∧ ∀ i < 32, t.fpscr.getLsbD i = bit i

/-- What recording the kinds `k` makes of bit `i` of an FPSCR that was `v`, for the bits `Signal` may write and every
bit but those of `resultBit` (R146, R37 to R39). -/
def signalBit (pol : GxPolicy) (k : Kinds) (v : FpscrWord) (i : Nat) : Bool :=
  if i = 8 then v.getLsbD 8 || decide (k ≠ 0)
  else if i = 9 then v.getLsbD 9 || decide (pol = .sticky ∧ enabledOf k v ≠ 0)
  else if 10 ≤ i ∧ i < 15 then v.getLsbD i || k.getLsbD (i - 10)
  else v.getLsbD i

/-- What an arithmetic or conversion instruction makes of bit `i` of an FPSCR that was `v` (R141 to R147): `cls` the
class bits, `r` what its procedure returned. -/
def resultBit (pol : GxPolicy) (cls : BitVec 5) (r : FpResult) (v : FpscrWord) (i : Nat) : Bool :=
  if i < 8 then v.getLsbD i || r.types.getLsbD i
  else if 16 ≤ i ∧ i < 21 then cls.getLsbD (i - 16)
  else if i = 21 then r.away
  else if i = 22 then r.inexact || (r.kinds.getLsbD 1 && !v.getLsbD 25)
  else signalBit pol r.kinds v i

/-- The result and its status are recorded: register `rt` as `TargetHolds` says, FPSCR bit by bit, nothing else, and pc. -/
def State.WritesResult (s t : State) (len rt : Nat) (P : Word → Prop) (cls : BitVec 5) (r : FpResult) : Prop :=
  s.Advanced t len ∧ s.TargetHolds t rt P ∧ s.SamePredicates t ∧
    ∀ i < 32, t.fpscr.getLsbD i = resultBit s.params.gxPolicy cls r s.fpscr i

/-- The instruction delivers an exception (R286, R287): of the kinds of `k` that are enabled, in a state `d` whose pc is
still the instruction's, where FPSCR bit `i` is `bit i`, and no register but the target, if there is one, no predicate,
no byte of memory and no parameter has changed. -/
def Instr.Delivers (i : Instr) (s : State) (k : Kinds) (bit : Nat → Bool) : Prop :=
  ∃ en d, exec i s = .fault (.fpException en d) ∧
    (∀ j < 5, en.getLsbD j = (k.getLsbD j && s.fpscr.getLsbD (24 + j))) ∧ en ≠ 0 ∧
    d.pc = s.pc ∧ (∀ a, d.mem.byteAt a = s.mem.byteAt a) ∧ d.params = s.params ∧ s.SamePredicates d ∧
    (∀ r, (∀ rt, i.target = some rt → regIndex r ≠ regIndex rt) → d.readX r = s.readX r) ∧
    ∀ j < 32, d.fpscr.getLsbD j = bit j

/-- A kind of `k` is enabled (R33). -/
def State.EnabledKind (s : State) (k : Kinds) : Prop := ∃ j < 5, k.getLsbD j = true ∧ s.fpscr.getLsbD (24 + j) = true

/-- A register holds a result of a format: all 64 bits of a double, bits 31:0 of a single (R123). -/
def Fmt.Holds (f : Fmt) (v w : Word) : Prop :=
  match f with
  | .double => w = v
  | .single => w.setWidth 32 = v.setWidth 32

/-- Length, opcode byte and function code of an instruction's encoding (R81, R93 to R97). -/
def Instr.HasCode (i : Instr) (len op fn : Nat) : Prop :=
  i.wellFormed = true → i.length = len ∧ field (encodeWord i) 8 8 = op ∧ functionCode (encodeWord i) = fn

/-- A word has the fields of format FR2: `Rt` in bits 27:22, or the immediate of format FI (R83, R89, R90). -/
def FieldsFR2 (w : Nat) (p : Pred) (op fn rt ra : Nat) : Prop :=
  w < 2 ^ 32 ∧ field w 28 4 = fn ∧ field w 22 6 = rt ∧ field w 16 6 = ra ∧ field w 8 8 = op ∧ field w 4 4 = p.pn ∧
    field w 0 4 = p.pc

/-- A word has the fields of format FR3 (R83, R91). -/
def FieldsFR3 (w : Nat) (p : Pred) (fn rt ra rb : Nat) : Prop :=
  w < 2 ^ 40 ∧ field w 34 6 = fn ∧ field w 28 6 = rt ∧ field w 22 6 = rb ∧ field w 16 6 = ra ∧ field w 8 8 = 0x78 ∧
    field w 4 4 = p.pn ∧ field w 0 4 = p.pc

/-- A word has the fields of format FR4, bits 47:45 zero (R83, R92, R99). -/
def FieldsFR4 (w : Nat) (p : Pred) (o5 rt ra rb rc : Nat) : Prop :=
  w < 2 ^ 48 ∧ field w 45 3 = 0 ∧ field w 40 5 = o5 ∧ field w 34 6 = rt ∧ field w 28 6 = rc ∧ field w 22 6 = rb ∧
    field w 16 6 = ra ∧ field w 8 8 = 0x76 ∧ field w 4 4 = p.pn ∧ field w 0 4 = p.pc

/-- A word has the fields of format FC32 (R83, R88). -/
def FieldsFC32 (w : Nat) (p : Pred) (fn pt ra rb : Nat) : Prop :=
  w < 2 ^ 32 ∧ field w 28 4 = fn ∧ field w 22 6 = rb ∧ field w 16 6 = ra ∧ field w 12 4 = 1 ∧ field w 8 4 = pt ∧
    field w 4 4 = p.pn ∧ field w 0 4 = p.pc

/-- A word has the fields of format FT24 (R83, R87). -/
def FieldsFT24 (w : Nat) (p : Pred) (fn pt ra : Nat) : Prop :=
  w < 2 ^ 24 ∧ field w 22 2 = fn ∧ field w 16 6 = ra ∧ field w 12 4 = 0 ∧ field w 8 4 = pt ∧ field w 4 4 = p.pn ∧
    field w 0 4 = p.pc

/-- Bit `i` of the mask operand of FTX, FCX, FEX and FDX, and of FRM's operand: the union of the register and the
immediate (R85, R241). -/
def State.maskBit (s : State) (ra imm i : Nat) : Bool := (s.readX ra).getLsbD i || imm.testBit i

/-- The arithmetic instruction of a format and an operation (R162 to R169). -/
def arithInstr : Fmt → FpOp → Pred → Nat → Nat → Nat → Instr
  | .double, .add => .fadd
  | .double, .sub => .fsub
  | .double, .mul => .fmul
  | .double, .div => .fdiv
  | .single, .add => .fadds
  | .single, .sub => .fsubs
  | .single, .mul => .fmuls
  | .single, .div => .fdivs

/-- The multiply-accumulate instruction of a format, `subc` and `negr` (R264 to R271). -/
def macInstr : Fmt → Bool → Bool → Pred → Nat → Nat → Nat → Nat → Instr
  | .single, false, false => .fmacS
  | .single, true, false => .fmasS
  | .single, false, true => .fnmacS
  | .single, true, true => .fnmasS
  | .double, false, false => .fmac
  | .double, true, false => .fmas
  | .double, false, true => .fnmac
  | .double, true, true => .fnmas

/-- What `FpArith` returns for an arithmetic instruction in a state (R160); the generated NaN is this step's free one. -/
def State.arithResult (s : State) (f : Fmt) (op : FpOp) (ra rb : Nat) : FpResult :=
  fpArith f s.params.tininess op (s.nanDraw f) (s.fpOperand f ra) (s.fpOperand f rb)

/-- What `FMacOp` returns for a multiply-accumulate instruction in a state (R263). -/
def State.macResult (s : State) (f : Fmt) (subc negr : Bool) (ra rb rc : Nat) : FpResult :=
  fMacOp f s.params.tininess s.params.fmacFused subc negr (quietNaN f (Config.freeProductNaN s.draws)) (s.nanDraw f)
    (s.fpOperand f ra) (s.fpOperand f rb) (s.fpOperand f rc)

/-- `emin` (R126). -/
def Fmt.emin : Fmt → Int
  | .double => -1022
  | .single => -126

/-- `emax` (R126). -/
def Fmt.emax : Fmt → Int
  | .double => 1023
  | .single => 127

/-- The value `D(v)` or `S(v)` of a finite pattern, by the formulas of R124 and R125. -/
def realValue (f : Fmt) (v : Word) : ℚ :=
  let magnitude : ℚ :=
    if fpExp f v = 0 then 2 ^ f.emin * ((fpFrac f v : ℚ) / 2 ^ f.fracBits)
    else 2 ^ ((fpExp f v : Int) - f.emax) * (1 + (fpFrac f v : ℚ) / 2 ^ f.fracBits)
  if fpSign f v then -magnitude else magnitude

/-- The value of a pattern that is not a NaN on the extended line, where the infinities are the ends (R221). -/
def extended (f : Fmt) (v : Word) : WithBot (WithTop ℚ) :=
  if isInf f v then (if fpSign f v then ⊥ else ((⊤ : WithTop ℚ) : WithBot (WithTop ℚ)))
  else ((realValue f v : WithTop ℚ) : WithBot (WithTop ℚ))

/-- The largest finite magnitude plus half its spacing: a magnitude rounds to infinity from here on (R126, R129). -/
def Fmt.overflowAt (f : Fmt) : ℚ := (2 - 1 / 2 ^ f.prec) * 2 ^ f.emax

/-- An exact value is tiny (R129): below 2^emin before rounding, or so far below that rounding to `p` significant bits
with the exponent unbounded stays below it. -/
def Tiny (f : Fmt) (t : Tininess) (e : ℚ) : Prop :=
  match t with
  | .beforeRounding => |e| < 2 ^ f.emin
  | .afterRounding => |e| < (1 - 1 / 2 ^ (f.prec + 1)) * 2 ^ f.emin

/-- `r` is the exact non-zero value `e` rounded to the nearest number of the format, ties to even, with the Booleans
that R129 gives beside it. -/
def CorrectlyRounded (f : Fmt) (t : Tininess) (e : ℚ) (r : Rounded) : Prop :=
  fpSign f r.bits = decide (e < 0) ∧
  (r.overflow = true ↔ f.overflowAt ≤ |e|) ∧
  (r.underflow = true ↔ Tiny f t e ∧ r.inexact = true) ∧
  (r.overflow = true → isInf f r.bits = true ∧ r.inexact = true ∧ r.away = true) ∧
  (r.overflow = false →
    isFinite f r.bits = true ∧ (r.inexact = true ↔ realValue f r.bits ≠ e) ∧
    (r.away = true ↔ |e| < |realValue f r.bits|) ∧
    ∀ w, isFinite f w = true →
      |realValue f r.bits - e| ≤ |realValue f w - e| ∧
      (|realValue f r.bits - e| = |realValue f w - e| → realValue f w ≠ realValue f r.bits → fpFrac f r.bits % 2 = 0))

end Sys2Proof.Machine
end

