-- ==== Sys2Proof/Certificates/Slice0/Obligations.lean ====
section
/-! DEFINITION. The statements for the provers, one `def Obligations.<Name> : Prop` each; OBLIGATIONS.json lists them
with the rules they rest on. Their vocabulary is in Safety.lean. A result that the spec leaves to a draw appears as the
free value of Config it is in the model, or is not constrained at all; no statement rests on what a free value is. -/

section Statements

open Sys2Proof Sys2Proof.Machine

/-! ### Encoding -/

/-- Decoding the encoding of any well-formed instruction, whatever bytes follow, gives it back with its length
(30_encoding.md R80 to R97). -/
def Obligations.DecodeUndoesEncode : Prop :=
  ∀ i : Instr, i.wellFormed = true → ∀ rest, decode (encode i ++ rest) = .ok i i.length

/-- What decoding gives is well formed, as long as its opcode byte says (R81), and its encoding agrees with the bytes in
every bit but the unused ones of R99. -/
def Obligations.EncodeUndoesDecode : Prop :=
  ∀ bytes i n, decode bytes = .ok i n →
    i.wellFormed = true ∧ n = i.length ∧ n ≤ bytes.length ∧
    ∀ b < 8 * n, ¬ (i.mnemonic = "FSTAT" ∧ 16 ≤ b ∧ b < 22) → ¬ (i.isPlanned = true ∧ 45 ≤ b) →
      (wordOf (bytes.take n)).testBit b = (encodeWord i).testBit b

/-- The rows of R98 that match a word of the length its opcode byte gives are, by mnemonic, the instruction the decoder
reads from it, and there is none exactly where the decoder reads none: the rows never overlap (R82). -/
def Obligations.DecoderAgreesWithOpcodeTable : Prop :=
  ∀ w n, instrLength (BitVec.ofNat 8 (field w 8 8)) = some n →
    ((opcodeRows.filter fun r => decide (r.len = n ∧ w &&& r.mask = r.pattern)).map (·.mnemonic)) =
      ((decodeWord w).map Instr.mnemonic).toList

/-- Where every field of an encoding stands (R83, R84, R87 to R92): first of each format, FI being FR2 with the immediate
in the place of Rt; then of every instruction, with its opcode byte and function code (R93 to R97), the unused fields
zero (R99). -/
def Obligations.FieldsOfTheFormats : Prop :=
  (∀ p op fn rt ra, Pred.fits p = true → op < 256 → fn < 16 → rt < 64 → ra < 64 →
    FieldsFR2 (encodeFR2 p op fn rt ra) p op fn rt ra) ∧
  (∀ p fn rt ra rb, Pred.fits p = true → fn < 64 → rt < 64 → ra < 64 → rb < 64 →
    FieldsFR3 (encodeFR3 p fn rt ra rb) p fn rt ra rb) ∧
  (∀ p o5 rt ra rb rc, Pred.fits p = true → o5 < 32 → rt < 64 → ra < 64 → rb < 64 → rc < 64 →
    FieldsFR4 (encodeFR4 p o5 rt ra rb rc) p o5 rt ra rb rc) ∧
  (∀ p fn pt ra rb, Pred.fits p = true → fn < 16 → pt < 16 → ra < 64 → rb < 64 →
    FieldsFC32 (encodeFC32 p fn pt ra rb) p fn pt ra rb) ∧
  (∀ p fn pt ra, Pred.fits p = true → fn < 4 → pt < 16 → ra < 64 → FieldsFT24 (encodeFT24 p fn pt ra) p fn pt ra) ∧
  (∀ p rt ra, Pred.fits p = true → rt < 64 → ra < 64 →
    (∀ x ∈ [(Instr.fmov, 0x77, 0x0), (Instr.ftoi, 0x77, 0x2), (Instr.itof, 0x77, 0x3), (Instr.fneg, 0x77, 0x4),
        (Instr.fabs, 0x77, 0x5), (Instr.fsign, 0x77, 0x6), (Instr.fman, 0x77, 0x7), (Instr.fmovs, 0x79, 0x0),
        (Instr.ftois, 0x79, 0x2), (Instr.itofs, 0x79, 0x3), (Instr.fnegs, 0x79, 0x4), (Instr.fabss, 0x79, 0x5),
        (Instr.fsigns, 0x79, 0x6), (Instr.fmans, 0x79, 0x7)],
      FieldsFR2 (encodeWord (x.1 p rt ra)) p x.2.1 x.2.2 rt ra) ∧
    FieldsFR2 (encodeWord (.fstat p rt)) p 0x77 0xC rt 0) ∧
  (∀ p ra imm, Pred.fits p = true → ra < 64 → imm < 64 →
    ∀ x ∈ [(Instr.frm, 0x77, 0xD), (Instr.ftx, 0x79, 0xC), (Instr.fcx, 0x79, 0xD), (Instr.fex, 0x79, 0xE),
        (Instr.fdx, 0x79, 0xF)],
      FieldsFR2 (encodeWord (x.1 p ra imm)) p x.2.1 x.2.2 imm ra) ∧
  (∀ p rt ra rb, Pred.fits p = true → rt < 64 → ra < 64 → rb < 64 →
    ∀ x ∈ [(Instr.fadd, 0x08), (Instr.fsub, 0x09), (Instr.fmul, 0x0A), (Instr.fdiv, 0x0B), (Instr.fadds, 0x18),
        (Instr.fsubs, 0x19), (Instr.fmuls, 0x1A), (Instr.fdivs, 0x1B)],
      FieldsFR3 (encodeWord (x.1 p rt ra rb)) p x.2 rt ra rb) ∧
  (∀ p rt ra rb rc, Pred.fits p = true → rt < 64 → ra < 64 → rb < 64 → rc < 64 →
    ∀ x ∈ [(Instr.fmacS, 8), (Instr.fmasS, 9), (Instr.fnmacS, 10), (Instr.fnmasS, 11), (Instr.fmac, 16),
        (Instr.fmas, 17), (Instr.fnmac, 18), (Instr.fnmas, 19)],
      FieldsFR4 (encodeWord (x.1 p rt ra rb rc)) p x.2 rt ra rb rc) ∧
  (∀ p pt ra rb, Pred.fits p = true → pt < 16 → ra < 64 → rb < 64 →
    FieldsFC32 (encodeWord (.fcmp p pt ra rb)) p 2 pt ra rb ∧ FieldsFC32 (encodeWord (.fcmps p pt ra rb)) p 1 pt ra rb) ∧
  (∀ p pt ra, Pred.fits p = true → pt < 16 → ra < 64 →
    FieldsFT24 (encodeWord (.ftst p pt ra)) p 2 pt ra ∧ FieldsFT24 (encodeWord (.ftsts p pt ra)) p 1 pt ra)

/-- Words written out in the examples of R162, R168, R182, R205, R228, R230, R243, R245 and R268, under the predicate
byte A5h, decode to the instructions they stand for. -/
def Obligations.SpecWordsDecode : Prop :=
  decode [0xA5, 0x78, 0x81, 0x30, 0x20] = .ok (.fadd ⟨10, 5⟩ 3 1 2) 5 ∧
  decode [0xA5, 0x78, 0x81, 0x30, 0x2C] = .ok (.fdiv ⟨10, 5⟩ 3 1 2) 5 ∧
  decode [0xA5, 0x77, 0x81, 0x00] = .ok (.fmov ⟨10, 5⟩ 2 1) 4 ∧
  decode [0xA5, 0x77, 0x81, 0x20] = .ok (.ftoi ⟨10, 5⟩ 2 1) 4 ∧
  decode [0xA5, 0x11, 0x81, 0x20] = .ok (.fcmp ⟨10, 5⟩ 1 1 2) 4 ∧
  decode [0xA5, 0x02, 0x81] = .ok (.ftst ⟨10, 5⟩ 2 1) 3 ∧
  decode [0xA5, 0x77, 0xC0, 0xC1] = .ok (.fstat ⟨10, 5⟩ 7) 4 ∧
  decode [0xA5, 0x79, 0xC0, 0xDF] = .ok (.fcx ⟨10, 5⟩ 0 0x3F) 4 ∧
  decode [0xA5, 0x76, 0x81, 0x30, 0x10, 0x10] = .ok (.fmac ⟨10, 5⟩ 4 1 2 3) 6

/-! ### The step -/

/-- When the bytes at pc decode to an instruction, the step is that instruction's meaning, which tests the predicate and
advances pc itself (R15, R82); nothing is added around it. -/
def Obligations.StepRunsDecodedInstruction : Prop :=
  ∀ (s : State) bytes i n, s.mem.readBytes s.pc n = some bytes → decode bytes = .ok i n → step s = exec i s

/-- A word the source does not list is refused, whatever its predicate byte (R100): an opcode byte outside 00h to 1Fh
and 76h to 79h, or a function code that R93 to R97 do not list under its opcode byte. -/
def Obligations.UnlistedEncodingsRefused : Prop :=
  (∀ (s : State) b op, s.mem.readBytes s.pc 2 = some [b, op] → 0x20 ≤ op.toNat →
    op ≠ 0x76 → op ≠ 0x77 → op ≠ 0x78 → op ≠ 0x79 → step s = .refused (.unlistedOpcode op)) ∧
  (∀ (s : State) b op rest, s.mem.readBytes s.pc (rest.length + 2) = some (b :: op :: rest) →
    instrLength op = some (rest.length + 2) →
    let fn := functionCode (wordOf (b :: op :: rest))
    (op.toNat < 0x20 → fn ∉ [1, 2]) →
    (op = 0x76 → fn ∉ [8, 9, 10, 11, 16, 17, 18, 19]) →
    (op = 0x77 → fn ∉ [0, 2, 3, 4, 5, 6, 7, 0xC, 0xD]) →
    (op = 0x78 → fn ∉ [0x08, 0x09, 0x0A, 0x0B, 0x18, 0x19, 0x1A, 0x1B]) →
    (op = 0x79 → fn ∉ [0, 2, 3, 4, 5, 6, 7, 0xC, 0xD, 0xE, 0xF]) →
    step s = .refused (.unlistedFunction op fn))

/-- A fetch from an address the memory does not hold has no step (R68): the two bytes that give the length, or the
instruction's own. R68 says stuck, and not a fault of the chip; that the model answers it with the named fault
fetchOutsideProgram is its deduction (log 10, DEDUCED). -/
def Obligations.FetchOutsideProgramStops : Prop :=
  ∀ s : State,
    (s.mem.readBytes s.pc 2 = none → step s = .fault (.fetchOutsideProgram s.pc)) ∧
    (∀ b op n, s.mem.readBytes s.pc 2 = some [b, op] → instrLength op = some n → s.mem.readBytes s.pc n = none →
      step s = .fault (.fetchOutsideProgram s.pc))

/-- An instruction whose predicate is false does nothing but advance pc (R9, R15). Whether it is true is
`CondHolds(Pc, p[Pn])` of its own predicate byte (R9, R83): the condition is Pc, the flags are all four of p[Pn], and
nothing else counts. `CondHolds` is open; that it is a table in `params` is the model's choice (log 2): every function of
a condition and the four flags is some table, and every table is such a function. -/
def Obligations.FalsePredicateOnlyAdvances : Prop :=
  (∀ (i : Instr) (s : State), (i.isPlanned = true → s.params.fmacImplemented = true) → s.predTrue i.pred = false →
    ∃ t, exec i s = .next t ∧ s.Advanced t i.length ∧ s.SameRegisters t ∧ s.SamePredicates t ∧ t.fpscr = s.fpscr) ∧
  (∀ holds : Fin 16 → PredFlags → Bool, ∃ table, ∀ s : State, s.params.condTable = table →
    ∀ p : Pred, s.predTrue p = holds (predIndex p.pc) (s.readP p.pn)) ∧
  (∀ table, ∃ holds : Fin 16 → PredFlags → Bool, ∀ s : State, s.params.condTable = table →
    ∀ p : Pred, s.predTrue p = holds (predIndex p.pc) (s.readP p.pn))

/-- Every instruction advances pc by its own length, whether or not its predicate holds; the lengths are those of R25;
and nothing an instruction does depends on pc: from another pc it completes in the same state but for pc, delivers the
same kinds in the same state but for pc, and is refused for the same reason. The advance is modulo 2^64 and not 2^AW:
AW = 64 is the model's choice (log 9). With pc the index of the free values moves on, so that each instruction has draws
of its own: the model's choice (log 12). -/
def Obligations.PcAdvancesByLength : Prop :=
  (∀ i s t, exec i s = .next t → t.pc = s.pc + BitVec.ofNat 64 i.length ∧ t.draws = s.draws + 1) ∧
  (∀ i : Instr,
    (i.mnemonic ∈ ["FTST", "FTSTS"] → i.length = 3) ∧ (i.mnemonic ∈ ["FCMP", "FCMPS"] → i.length = 4) ∧
    (i.wellFormed = true →
      (field (encodeWord i) 8 8 = 0x77 ∨ field (encodeWord i) 8 8 = 0x79 → i.length = 4) ∧
      (field (encodeWord i) 8 8 = 0x78 → i.length = 5) ∧ (field (encodeWord i) 8 8 = 0x76 → i.length = 6))) ∧
  (∀ i s a,
    (∀ t, exec i s = .next t → exec i { s with pc := a } = .next { t with pc := a + BitVec.ofNat 64 i.length }) ∧
    (∀ en d, exec i s = .fault (.fpException en d) →
      exec i { s with pc := a } = .fault (.fpException en { d with pc := a })) ∧
    (∀ r, exec i s = .refused r → exec i { s with pc := a } = .refused r))

/-- With FMAC_IMPLEMENTED false each of the eight planned instructions, six bytes long, is refused by its name; with
FMAC_IMPLEMENTED true none is; and no other instruction is ever refused (R101). -/
def Obligations.PlannedFamilyRefused : Prop :=
  (∀ (i : Instr) s, i.isPlanned = true → s.params.fmacImplemented = false →
    exec i s = .refused (.plannedNotImplemented i.mnemonic)) ∧
  (∀ i : Instr, i.isPlanned = true → i.length = 6) ∧
  (∀ i s r, exec i s = .refused r → i.isPlanned = true ∧ s.params.fmacImplemented = false)

/-! ### State and memory -/

/-- `MemRead` is the little-endian number of the bytes (R63). `MemWrite` stores the bytes of its value, the least
significant at the address, and no other byte; no instruction calls it (R64). The model's own choice: addresses are
modulo 2^64 where R63 says 2^AW (log 9), and memory has a canonical form, which `MemWrite` keeps (log 25). -/
def Obligations.MemoryReadAndWrite : Prop :=
  (∀ (m : Memory) (addr : Addr) (n : Nat) (byte : Nat → Byte), n ≤ 8 →
    (∀ i < n, m.byteAt (addr + BitVec.ofNat 64 i).toNat = some (byte i)) →
    m.memRead addr n = some (∑ i ∈ Finset.range n, (byte i).toNat * 2 ^ (8 * i))) ∧
  (∀ (m : Memory) (addr : Addr) (n v : Nat), n ≤ 8 →
    (∀ i < n, (m.memWrite addr n v).byteAt (addr + BitVec.ofNat 64 i).toNat = some (BitVec.ofNat 8 (v / 2 ^ (8 * i)))) ∧
    (∀ a, (∀ i < n, a ≠ (addr + BitVec.ofNat 64 i).toNat) → (m.memWrite addr n v).byteAt a = m.byteAt a) ∧
    (m.wf = true → (m.memWrite addr n v).wf = true)) ∧
  (∀ i s t, exec i s = .next t → t.mem = s.mem)

/-- A register reads what was last written to it and no write reaches another; with R0_ZERO, register 0 reads as zero
and drops what is written to it (R13). -/
def Obligations.RegisterReadAfterWrite : Prop :=
  ∀ (s : State) (r q : Nat) (v : Word),
    (s.writeX r v).readX q =
      if s.params.r0Zero = true ∧ regIndex q = 0 then 0 else if regIndex q = regIndex r then v else s.readX q

/-- Which general register and which predicate register an instruction writes (R23, R27): its Rt or its Pt, if the tables
give it one, and no other, whether it completes or delivers an exception. -/
def Obligations.OnlyTheTargetChanges : Prop :=
  (∀ i : Instr,
    (i.target = none ↔ i.mnemonic ∈ ["FCMP", "FCMPS", "FTST", "FTSTS", "FRM", "FTX", "FCX", "FEX", "FDX"]) ∧
    (i.predTarget ≠ none ↔ i.mnemonic ∈ ["FCMP", "FCMPS", "FTST", "FTSTS"])) ∧
  ∀ i s t, Instr.Leads i s t →
    (∀ r, (∀ rt, i.target = some rt → regIndex r ≠ regIndex rt) → t.readX r = s.readX r) ∧
    (∀ q, (∀ pt, i.predTarget = some pt → predIndex q ≠ predIndex pt) → t.readP q = s.readP q)

/-- No instruction stores: the program stays as it is (R316). The parameters stay too: that they are a field of State,
which no instruction writes, is the model's choice (log 1). -/
def Obligations.ProgramNeverChanges : Prop :=
  (∀ s t, step s = .next t → t.mem = s.mem ∧ t.params = s.params) ∧
  (∀ i s t, Instr.Leads i s t → t.mem = s.mem ∧ t.params = s.params)

/-- The invariant is kept by every step that gives a next state, and holds in the state an exception is delivered in. -/
def Obligations.StepKeepsInvariant : Prop :=
  ∀ s : State, s.Inv → (∀ t, step s = .next t → t.Inv) ∧ (∀ en d, step s = .fault (.fpException en d) → d.Inv)

/-- The reset state meets the invariant. The FPSCR value it starts from is the model's choice (log 8). -/
def Obligations.ResetMeetsInvariant : Prop := State.reset.Inv

/-- The reset state. R311 gives its registers, predicate flags, FPSCR and pc no value: those here are the model's own
choice (log 5, 6, 7, 8), as are the parameters without a default: every condition holds (log 2), R0_ZERO is false
(log 3), NS_VALUE and FMAC_FUSED are false (log 4); that memory holds nothing before a program is loaded is the model's
deduction (log 11). The defaults of the other four parameters are R8's. -/
def Obligations.ResetState : Prop :=
  (∀ r, State.reset.readX r = 0) ∧ (∀ q, State.reset.readP q = ⟨false, false, false, false⟩) ∧
  State.reset.pc = 0 ∧ State.reset.fpscr = 0 ∧ State.reset.mem = [] ∧
  (∀ c f, Params.condHolds State.reset.params c f = true) ∧ State.reset.params.r0Zero = false ∧
  State.reset.params.nsValue = false ∧ State.reset.params.fmacFused = false ∧
  State.reset.params.tininess = .afterRounding ∧ State.reset.params.ftoiRound = .towardZero ∧
  State.reset.params.gxPolicy = .derived ∧ State.reset.params.fmacImplemented = false

/-! ### FPSCR as a whole -/

/-- RM is written by FRM alone, the enables by FEX and FDX alone, and bits 23 and 15 by nothing (R32, R33, R34, R36). -/
def Obligations.FpscrFieldsHaveOneWriter : Prop :=
  ∀ i s t, Instr.Leads i s t →
    (i.mnemonic ≠ "FRM" → fpscrRM t.fpscr = fpscrRM s.fpscr) ∧
    (i.mnemonic ≠ "FEX" → i.mnemonic ≠ "FDX" → fpscrEnables t.fpscr = fpscrEnables s.fpscr) ∧
    t.fpscr.getLsbD 23 = s.fpscr.getLsbD 23 ∧ t.fpscr.getLsbD 15 = s.fpscr.getLsbD 15

/-- The result status, bits 22:16: only the arithmetic and conversion instructions write it, and they overwrite all of
it, so that nothing they do depends on what it was: not the state they end in, not the kinds they deliver (R35). -/
def Obligations.ResultStatusIsOverwritten : Prop :=
  (∀ i : Instr, i.recordsStatus = true ↔
    i.isPlanned = true ∨ i.mnemonic ∈ ["FADD", "FADDS", "FSUB", "FSUBS", "FMUL", "FMULS", "FDIV", "FDIVS", "FTOI",
      "FTOIS", "ITOF", "ITOFS"]) ∧
  (∀ i s t, Instr.Leads i s t → i.recordsStatus = false →
    ∀ j, 16 ≤ j → j < 23 → t.fpscr.getLsbD j = s.fpscr.getLsbD j) ∧
  (∀ i s (x : BitVec 7), i.recordsStatus = true → s.predTrue i.pred = true →
    exec i { s with fpscr := setField s.fpscr 16 x } = exec i s)

/-- X1 to X5 are sticky: one that is set stays set unless FCX names it, and one becomes set only by an arithmetic or
conversion instruction or by FTX (R37). -/
def Obligations.OccurredBitsAreSticky : Prop :=
  ∀ i s t, Instr.Leads i s t → ∀ k < 5,
    (s.fpscr.getLsbD (10 + k) = true → t.fpscr.getLsbD (10 + k) = false →
      ∃ p ra imm, i = .fcx p ra imm ∧ s.maskBit ra imm k = true) ∧
    (s.fpscr.getLsbD (10 + k) = false → t.fpscr.getLsbD (10 + k) = true → i.recordsStatus = true ∨ i.mnemonic = "FTX")

/-- SX is set whenever any of X1 to X5 is set by any rule, regardless of the enables, and is cleared only by FCX with
mask bit 5, which clearing X1 to X5 is not (R39). -/
def Obligations.SummaryBit : Prop :=
  (∀ k s t, (signal k s = .next t ∨ ∃ en, signal k s = .fault (.fpException en t)) → k ≠ 0 →
    fpscrSX t.fpscr = true) ∧
  (∀ i s t, Instr.Leads i s t →
    (∀ k < 5, s.fpscr.getLsbD (10 + k) = false → t.fpscr.getLsbD (10 + k) = true → fpscrSX t.fpscr = true) ∧
    (fpscrSX s.fpscr = true → fpscrSX t.fpscr = false →
      ∃ p ra imm, i = .fcx p ra imm ∧ s.maskBit ra imm 5 = true))

/-- The type bits 7:0: one that becomes set comes with X1, and neither bit 5 nor bit 6 ever does; one that becomes clear
is one of 5 to 1, and FCX with mask bit 0 cleared it, and X1 with it; and FCX with mask bit 0, where its predicate holds,
leaves bits 5 to 1 and X1 clear (R40, R245). -/
def Obligations.InvalidTypeBitsAreSticky : Prop :=
  (∀ i s t, Instr.Leads i s t → ∀ j < 8,
    (s.fpscr.getLsbD j = false → t.fpscr.getLsbD j = true → t.fpscr.getLsbD 10 = true ∧ j ≠ 5 ∧ j ≠ 6) ∧
    (s.fpscr.getLsbD j = true → t.fpscr.getLsbD j = false →
      1 ≤ j ∧ j ≤ 5 ∧ t.fpscr.getLsbD 10 = false ∧ ∃ p ra imm, i = .fcx p ra imm ∧ s.maskBit ra imm 0 = true)) ∧
  (∀ p ra imm s t, s.predTrue p = true → s.maskBit ra imm 0 = true → Instr.Leads (.fcx p ra imm) s t →
    t.fpscr.getLsbD 10 = false ∧ ∀ j, 1 ≤ j → j ≤ 5 → t.fpscr.getLsbD j = false)

/-- GX: under the derived policy it is read as 1 exactly when a kind is enabled and recorded; under the sticky policy it is
stored, signalling an enabled kind sets it, and nothing clears it (R38). Under the derived policy R38 stores no bit 9;
that the model still has one, which nothing writes and nothing reads, is its choice (log 23). -/
def Obligations.GxUnderEachPolicy : Prop :=
  (∀ v : FpscrWord, (fpscrGX .derived v = true ↔ ∃ k < 5, v.getLsbD (10 + k) = true ∧ v.getLsbD (24 + k) = true) ∧
    fpscrGX .sticky v = v.getLsbD 9) ∧
  (∀ i s t, Instr.Leads i s t →
    (s.params.gxPolicy = .derived → t.fpscr.getLsbD 9 = s.fpscr.getLsbD 9) ∧
    (s.fpscr.getLsbD 9 = true → t.fpscr.getLsbD 9 = true)) ∧
  (∀ k s en d, signal k s = .fault (.fpException en d) → s.params.gxPolicy = .sticky → d.fpscr.getLsbD 9 = true) ∧
  (∀ k s d, signal k s = .next d → d.fpscr.getLsbD 9 = s.fpscr.getLsbD 9)

/-- FPSCR.RM changes nothing that any instruction does, but for FSTAT, which reads it: under another RM every other
instruction has the same outcome, the kinds an exception delivers and the reason of a refusal included, in a state that
differs in RM alone, and FRM, where it runs, in the same state (R130). -/
def Obligations.RoundingModeHasNoEffect : Prop :=
  ∀ i s (x : BitVec 3), i.mnemonic ≠ "FSTAT" →
    exec i { s with fpscr := setField s.fpscr 29 x } =
      onState (fun t =>
        if i.mnemonic = "FRM" ∧ s.predTrue i.pred = true then t else { t with fpscr := setField t.fpscr 29 x }) (exec i s)

/-- Every fault of an instruction is the delivery of kinds that are enabled and recorded; pc is still the instruction's,
SX is set and GX reads 1, and no memory, parameter, predicate or register but the target has changed (R286, R287). The
default FP_TRAP, by which the step faults, is the only one the model has: its choice (log 15). -/
def Obligations.FaultsAreEnabledExceptions : Prop :=
  ∀ i s e, exec i s = .fault e →
    (i.recordsStatus = true ∨ i.mnemonic = "FTX") ∧ s.predTrue i.pred = true ∧
    ∃ en d, e = .fpException en d ∧ en ≠ 0 ∧
      (∀ k < 5, en.getLsbD k = true → s.fpscr.getLsbD (24 + k) = true ∧ d.fpscr.getLsbD (10 + k) = true) ∧
      fpscrSX d.fpscr = true ∧ fpscrGX s.params.gxPolicy d.fpscr = true ∧
      d.pc = s.pc ∧ d.mem = s.mem ∧ d.params = s.params ∧ s.SamePredicates d ∧
      ∀ r, (∀ rt, i.target = some rt → regIndex r ≠ regIndex rt) → d.readX r = s.readX r

/-! ### Move, sign and field instructions -/

/-- FMOV and FMOVS copy all 64 bits (R182, R183). -/
def Obligations.Move : Prop :=
  ∀ p rt ra (s : State), s.predTrue p = true →
    Instr.HasCode (.fmov p rt ra) 4 0x77 0 ∧ Instr.HasCode (.fmovs p rt ra) 4 0x79 0 ∧
    (∃ t, exec (.fmov p rt ra) s = .next t ∧ s.WritesRegister t 4 rt fun w => w = s.readX ra) ∧
    (∃ t, exec (.fmovs p rt ra) s = .next t ∧ s.WritesRegister t 4 rt fun w => w = s.readX ra)

/-- FNEG inverts the sign bit of a double, FABS clears it, and no other bit changes (R184, R186). -/
def Obligations.SignOfDouble : Prop :=
  ∀ p rt ra (s : State), s.predTrue p = true →
    Instr.HasCode (.fneg p rt ra) 4 0x77 4 ∧ Instr.HasCode (.fabs p rt ra) 4 0x77 5 ∧
    (∃ t, exec (.fneg p rt ra) s = .next t ∧ s.WritesRegister t 4 rt fun w => ∀ i < 64,
      w.getLsbD i = if i = 63 then !(s.readX ra).getLsbD 63 else (s.readX ra).getLsbD i) ∧
    (∃ t, exec (.fabs p rt ra) s = .next t ∧ s.WritesRegister t 4 rt fun w => ∀ i < 64,
      w.getLsbD i = if i = 63 then false else (s.readX ra).getLsbD i)

/-- FNEGS inverts the sign bit of a single, FABSS clears it; bits 30:0 are copied and bits 63:32 are any value
(R185, R187). -/
def Obligations.SignOfSingle : Prop :=
  ∀ p rt ra (s : State), s.predTrue p = true →
    Instr.HasCode (.fnegs p rt ra) 4 0x79 4 ∧ Instr.HasCode (.fabss p rt ra) 4 0x79 5 ∧
    (∃ t, exec (.fnegs p rt ra) s = .next t ∧ s.WritesRegister t 4 rt fun w => ∀ i < 32,
      w.getLsbD i = if i = 31 then !(s.readX ra).getLsbD 31 else (s.readX ra).getLsbD i) ∧
    (∃ t, exec (.fabss p rt ra) s = .next t ∧ s.WritesRegister t 4 rt fun w => ∀ i < 32,
      w.getLsbD i = if i = 31 then false else (s.readX ra).getLsbD i)

/-- FSIGN and FSIGNS write +1.0, 0.0 or -1.0 by the sign of the number, 0.0 for a zero of either sign, and any value for a
NaN (R188, R189). -/
def Obligations.SignNumber : Prop :=
  ∀ p rt ra (s : State), s.predTrue p = true →
    Instr.HasCode (.fsign p rt ra) 4 0x77 6 ∧ Instr.HasCode (.fsigns p rt ra) 4 0x79 6 ∧
    (∃ t, exec (.fsign p rt ra) s = .next t ∧ s.WritesRegister t 4 rt fun w =>
      isNaN .double (s.readX ra) = false →
        w = if isZero .double (s.readX ra) then 0
          else if (s.readX ra).getLsbD 63 then 0xBFF0000000000000 else 0x3FF0000000000000) ∧
    (∃ t, exec (.fsigns p rt ra) s = .next t ∧ s.WritesRegister t 4 rt fun w =>
      isNaN .single (s.readX ra) = false →
        w.setWidth 32 = if isZero .single (s.readX ra) then 0#32
          else if (s.readX ra).getLsbD 31 then 0xBF800000#32 else 0x3F800000#32)

/-- FMAN and FMANS write the fraction field, zero extended to 64 bits (R190, R191). -/
def Obligations.Mantissa : Prop :=
  ∀ p rt ra (s : State), s.predTrue p = true →
    Instr.HasCode (.fman p rt ra) 4 0x77 7 ∧ Instr.HasCode (.fmans p rt ra) 4 0x79 7 ∧
    (∃ t, exec (.fman p rt ra) s = .next t ∧ s.WritesRegister t 4 rt fun w =>
      w = s.readX ra &&& 0x000FFFFFFFFFFFFF) ∧
    (∃ t, exec (.fmans p rt ra) s = .next t ∧ s.WritesRegister t 4 rt fun w => w = s.readX ra &&& 0x7FFFFF)

/-! ### Compare and test -/

/-- FCMP and FCMPS write the four flags of p[Pt] from the comparison of their operands, and nothing else; they never
raise (R227, R228, R229). -/
def Obligations.CompareInstructions : Prop :=
  ∀ p pt ra rb (s : State), s.predTrue p = true →
    Instr.HasCode (.fcmp p pt ra rb) 4 (0x10 + pt) 2 ∧ Instr.HasCode (.fcmps p pt ra rb) 4 (0x10 + pt) 1 ∧
    (∃ t, exec (.fcmp p pt ra rb) s = .next t ∧
      s.WritesPredicate t 4 pt (fpCompare .double (s.readX ra) (s.readX rb))) ∧
    (∃ t, exec (.fcmps p pt ra rb) s = .next t ∧
      s.WritesPredicate t 4 pt (fpCompare .single ((s.readX ra).setWidth 32 |>.setWidth 64)
        ((s.readX rb).setWidth 32 |>.setWidth 64)))

/-- FTST and FTSTS write the four flags of p[Pt] from the comparison of their operand with zero, and nothing else; they
never raise (R230, R231). -/
def Obligations.TestInstructions : Prop :=
  ∀ p pt ra (s : State), s.predTrue p = true →
    Instr.HasCode (.ftst p pt ra) 3 pt 2 ∧ Instr.HasCode (.ftsts p pt ra) 3 pt 1 ∧
    (∃ t, exec (.ftst p pt ra) s = .next t ∧ s.WritesPredicate t 3 pt
      { lt := !isNaN .double (s.readX ra) && !isZero .double (s.readX ra) && (s.readX ra).getLsbD 63
        ltu := false
        eq := isZero .double (s.readX ra)
        un := isNaN .double (s.readX ra) }) ∧
    (∃ t, exec (.ftsts p pt ra) s = .next t ∧ s.WritesPredicate t 3 pt
      { lt := !isNaN .single (s.readX ra) && !isZero .single (s.readX ra) && (s.readX ra).getLsbD 31
        ltu := false
        eq := isZero .single (s.readX ra)
        un := isNaN .single (s.readX ra) })

/-- The flags of a comparison are those of the values on the extended line: `lt` their order, `ltu` the order after
clearing both signs, `eq` their equality, `un` a NaN among them, under which the others are false; exactly one of `lt`,
`eq`, `un`, or none when a > b. A test is a comparison with zero whose `ltu` is false (R221 to R226). -/
def Obligations.CompareOutcomes : Prop :=
  (∀ f a b, let c := fpCompare f a b
    (c.un = true ↔ isNaN f a = true ∨ isNaN f b = true) ∧
    (c.lt = true ↔ c.un = false ∧ extended f a < extended f b) ∧
    (c.ltu = true ↔ c.un = false ∧ extended f (a &&& ~~~signMask f) < extended f (b &&& ~~~signMask f)) ∧
    (c.eq = true ↔ c.un = false ∧ extended f a = extended f b) ∧
    (c.lt = false ∧ c.eq = false ∧ c.un = false ↔
      isNaN f a = false ∧ isNaN f b = false ∧ extended f b < extended f a) ∧
    ¬ (c.lt = true ∧ c.eq = true)) ∧
  (∀ f a, let c := fpTest f a
    c.un = isNaN f a ∧ (c.lt = true ↔ c.un = false ∧ extended f a < extended f 0) ∧
    (c.eq = true ↔ c.un = false ∧ extended f a = extended f 0) ∧ c.ltu = false)

/-! ### Control and status -/

/-- FRM writes RM with bits 2:0 of the union of register and immediate; no other bit changes (R242). -/
def Obligations.SetRoundingMode : Prop :=
  ∀ p ra imm (s : State), s.predTrue p = true →
    Instr.HasCode (.frm p ra imm) 4 0x77 0xD ∧
    ∃ t, exec (.frm p ra imm) s = .next t ∧ s.WritesFpscr t 4 fun i =>
      if 29 ≤ i then s.maskBit ra imm (i - 29) else s.fpscr.getLsbD i

/-- FSTAT writes FPSCR zero extended, with GX by the policy in bit 9, NS_VALUE in bit 23 and any value in bit 15; it does
not change FPSCR (R243). -/
def Obligations.ReadStatus : Prop :=
  ∀ p rt (s : State), s.predTrue p = true →
    Instr.HasCode (.fstat p rt) 4 0x77 0xC ∧
    ∃ t, exec (.fstat p rt) s = .next t ∧ s.WritesRegister t 4 rt fun w => ∀ i < 64, i ≠ 15 →
      w.getLsbD i =
        if i = 9 then
          (match s.params.gxPolicy with
            | .derived => decide (s.fpscr.extractLsb' 10 5 &&& s.fpscr.extractLsb' 24 5 ≠ 0)
            | .sticky => s.fpscr.getLsbD 9)
        else if i = 23 then s.params.nsValue
        else s.fpscr.getLsbD i

/-- FTX, when no kind it names is enabled, records the kinds it names in X1 to X5 and SX and changes nothing else; with no
kind named it does nothing (R244). -/
def Obligations.TriggerCompletes : Prop :=
  ∀ p ra imm (s : State), s.predTrue p = true →
    (∀ k < 5, s.maskBit ra imm k = true → s.fpscr.getLsbD (24 + k) = false) →
    Instr.HasCode (.ftx p ra imm) 4 0x79 0xC ∧
    ∃ t, exec (.ftx p ra imm) s = .next t ∧ s.WritesFpscr t 4 fun i =>
      if 10 ≤ i ∧ i < 15 then s.fpscr.getLsbD i || s.maskBit ra imm (i - 10)
      else if i = 8 then s.fpscr.getLsbD 8 || (List.range 5).any (s.maskBit ra imm)
      else s.fpscr.getLsbD i

/-- FTX, when a kind it names is enabled, records the kinds it names and delivers the enabled ones together
(R244, R290), under the default FP_TRAP, the only one the model has: its choice (log 15). -/
def Obligations.TriggerRaises : Prop :=
  ∀ p ra imm (s : State), s.predTrue p = true →
    (∃ k < 5, s.maskBit ra imm k = true ∧ s.fpscr.getLsbD (24 + k) = true) →
    ∃ k : Kinds, (∀ j < 5, k.getLsbD j = s.maskBit ra imm j) ∧
      Instr.Delivers (.ftx p ra imm) s k (signalBit s.params.gxPolicy k s.fpscr)

/-- FCX clears the occurred bits its mask names, bits 5:1 by mask bit 0, SX by mask bit 5, and nothing else (R245). -/
def Obligations.ClearExceptions : Prop :=
  ∀ p ra imm (s : State), s.predTrue p = true →
    Instr.HasCode (.fcx p ra imm) 4 0x79 0xD ∧
    ∃ t, exec (.fcx p ra imm) s = .next t ∧ s.WritesFpscr t 4 fun i =>
      if 10 ≤ i ∧ i < 15 then s.fpscr.getLsbD i && !s.maskBit ra imm (i - 10)
      else if 1 ≤ i ∧ i ≤ 5 then s.fpscr.getLsbD i && !s.maskBit ra imm 0
      else if i = 8 then s.fpscr.getLsbD i && !s.maskBit ra imm 5
      else s.fpscr.getLsbD i

/-- FEX sets and FDX clears the enable bits their mask names, mask bit 5 has no effect, and nothing is raised
(R246, R247). -/
def Obligations.EnableAndDisable : Prop :=
  ∀ p ra imm (s : State), s.predTrue p = true →
    Instr.HasCode (.fex p ra imm) 4 0x79 0xE ∧ Instr.HasCode (.fdx p ra imm) 4 0x79 0xF ∧
    (∃ t, exec (.fex p ra imm) s = .next t ∧ s.WritesFpscr t 4 fun i =>
      if 24 ≤ i ∧ i < 29 then s.fpscr.getLsbD i || s.maskBit ra imm (i - 24) else s.fpscr.getLsbD i) ∧
    (∃ t, exec (.fdx p ra imm) s = .next t ∧ s.WritesFpscr t 4 fun i =>
      if 24 ≤ i ∧ i < 29 then s.fpscr.getLsbD i && !s.maskBit ra imm (i - 24) else s.fpscr.getLsbD i)

/-! ### Arithmetic, conversion, multiply-accumulate -/

/-- FADD, FADDS, FSUB, FSUBS, FMUL, FMULS, FDIV, FDIVS complete whenever no kind that occurs is enabled: the target holds
the result of `FpArith`, FPSCR its status, and nothing else changes (R160). -/
def Obligations.ArithmeticCompletes : Prop :=
  ∀ f op p rt ra rb (s : State), s.predTrue p = true → ¬ s.EnabledKind (s.arithResult f op ra rb).kinds →
    ∃ t, exec (arithInstr f op p rt ra rb) s = .next t ∧
      s.WritesResult t 5 rt (f.Holds (s.arithResult f op ra rb).bits) (classBits f (s.arithResult f op ra rb).bits)
        (s.arithResult f op ra rb)

/-- FMAC, FMAS, FNMAC, FNMAS and their .S forms, where they are implemented, complete whenever no kind that occurs is
enabled: the target holds the result of `FMacOp`, FPSCR its status, and nothing else changes (R263). -/
def Obligations.MacCompletes : Prop :=
  ∀ f subc negr p rt ra rb rc (s : State), s.params.fmacImplemented = true → s.predTrue p = true →
    ¬ s.EnabledKind (s.macResult f subc negr ra rb rc).kinds →
    ∃ t, exec (macInstr f subc negr p rt ra rb rc) s = .next t ∧
      s.WritesResult t 6 rt (f.Holds (s.macResult f subc negr ra rb rc).bits)
        (classBits f (s.macResult f subc negr ra rb rc).bits) (s.macResult f subc negr ra rb rc)

/-- ITOF and ITOFS complete unless the conversion is inexact and that kind is enabled: the target holds the converted
number, FPSCR its status, and nothing else changes (R207, R208). -/
def Obligations.IntegerToFloatCompletes : Prop :=
  ∀ p rt ra (s : State), s.predTrue p = true →
    (let r := iToF .double s.params.tininess (s.readX ra)
     Instr.HasCode (.itof p rt ra) 4 0x77 3 ∧
     (¬ (r.inexact = true ∧ s.fpscr.getLsbD 28 = true) →
      ∃ t, exec (.itof p rt ra) s = .next t ∧
        s.WritesResult t 4 rt (fun w => w = r.bits) (classBits .double r.bits) r)) ∧
    (let r := iToF .single s.params.tininess (s.readX ra)
     Instr.HasCode (.itofs p rt ra) 4 0x79 3 ∧
     (¬ (r.inexact = true ∧ s.fpscr.getLsbD 28 = true) →
      ∃ t, exec (.itofs p rt ra) s = .next t ∧
        s.WritesResult t 4 rt (fun w => w.setWidth 32 = r.bits.setWidth 32) (classBits .single r.bits) r))

/-- FTOI and FTOIS complete whenever no kind that occurs is enabled: all 64 bits of the target hold the integer of `FToI`,
FPSCR its status with any class bits, and nothing else changes (R204, R205, R206). -/
def Obligations.FloatToIntegerCompletes : Prop :=
  ∀ p rt ra (s : State), s.predTrue p = true →
    (let r := fToI .double s.params.ftoiRound (Config.freeInteger s.draws) (s.readX ra)
     Instr.HasCode (.ftoi p rt ra) 4 0x77 2 ∧
     (¬ s.EnabledKind r.kinds →
      ∃ t cls, exec (.ftoi p rt ra) s = .next t ∧ s.WritesResult t 4 rt (fun w => w = r.bits) cls r)) ∧
    (let r := fToI .single s.params.ftoiRound (Config.freeInteger s.draws) ((s.readX ra).setWidth 32 |>.setWidth 64)
     Instr.HasCode (.ftois p rt ra) 4 0x79 2 ∧
     (¬ s.EnabledKind r.kinds →
      ∃ t cls, exec (.ftois p rt ra) s = .next t ∧ s.WritesResult t 4 rt (fun w => w = r.bits) cls r))

/-- The arithmetic, conversion and multiply-accumulate instructions deliver the kinds that occur and are enabled, FPSCR
recorded first, the target unspecified (R147, R160, R204, R207, R208, R263, R286, R287), under the default FP_TRAP, the
only one the model has: its choice (log 15). -/
def Obligations.EnabledKindsAreDelivered : Prop :=
  (∀ f op p rt ra rb (s : State), s.predTrue p = true → s.EnabledKind (s.arithResult f op ra rb).kinds →
    Instr.Delivers (arithInstr f op p rt ra rb) s (s.arithResult f op ra rb).kinds
      (resultBit s.params.gxPolicy (classBits f (s.arithResult f op ra rb).bits) (s.arithResult f op ra rb) s.fpscr)) ∧
  (∀ p rt ra (s : State), s.predTrue p = true →
    (let r := iToF .double s.params.tininess (s.readX ra)
     s.EnabledKind r.kinds → Instr.Delivers (.itof p rt ra) s r.kinds
      (resultBit s.params.gxPolicy (classBits .double r.bits) r s.fpscr)) ∧
    (let r := iToF .single s.params.tininess (s.readX ra)
     s.EnabledKind r.kinds → Instr.Delivers (.itofs p rt ra) s r.kinds
      (resultBit s.params.gxPolicy (classBits .single r.bits) r s.fpscr)) ∧
    (let r := fToI .double s.params.ftoiRound (Config.freeInteger s.draws) (s.fpOperand .double ra)
     s.EnabledKind r.kinds → ∃ cls, Instr.Delivers (.ftoi p rt ra) s r.kinds
      (resultBit s.params.gxPolicy cls r s.fpscr)) ∧
    (let r := fToI .single s.params.ftoiRound (Config.freeInteger s.draws) (s.fpOperand .single ra)
     s.EnabledKind r.kinds → ∃ cls, Instr.Delivers (.ftois p rt ra) s r.kinds
      (resultBit s.params.gxPolicy cls r s.fpscr))) ∧
  (∀ f subc negr p rt ra rb rc (s : State), s.params.fmacImplemented = true → s.predTrue p = true →
    s.EnabledKind (s.macResult f subc negr ra rb rc).kinds →
    Instr.Delivers (macInstr f subc negr p rt ra rb rc) s (s.macResult f subc negr ra rb rc).kinds
      (resultBit s.params.gxPolicy (classBits f (s.macResult f subc negr ra rb rc).bits)
        (s.macResult f subc negr ra rb rc) s.fpscr))

/-- The class bits of a result, {C, neg, pos, zero, inf}, for every class a result can have (R144). -/
def Obligations.ResultClassTable : Prop :=
  ∀ f r, isSNaN f r = false →
    classBits f r =
      if isNaN f r then 0b10001
      else if isInf f r then (if fpSign f r then 0b01001 else 0b00101)
      else if isZero f r then (if fpSign f r then 0b10010 else 0b00010)
      else if isDenormal f r then (if fpSign f r then 0b11000 else 0b10100)
      else (if fpSign f r then 0b01000 else 0b00100)

/-! ### Numbers -/

/-- The classes of a pattern, by its fields (R124, R125); and the units the model computes with are its value: a finite
pattern is `fpValue` times 2^(emin-p+1). -/
def Obligations.ClassesAndValues : Prop :=
  (∀ v : Word, let e := (v.extractLsb' 52 11).toNat; let m := (v.extractLsb' 0 52).toNat
    (isZero .double v = true ↔ e = 0 ∧ m = 0) ∧ (isDenormal .double v = true ↔ e = 0 ∧ m ≠ 0) ∧
    (isInf .double v = true ↔ e = 2047 ∧ m = 0) ∧
    (isQNaN .double v = true ↔ e = 2047 ∧ m ≠ 0 ∧ v.getLsbD 51 = true) ∧
    (isSNaN .double v = true ↔ e = 2047 ∧ m ≠ 0 ∧ v.getLsbD 51 = false) ∧
    fpSign .double v = v.getLsbD 63 ∧
    (e < 2047 → (fpValue .double v : ℚ) * 2 ^ (-1074 : Int) =
      (if v.getLsbD 63 then -1 else 1) *
        if e = 0 then 2 ^ (-1022 : Int) * ((m : ℚ) / 2 ^ 52) else 2 ^ ((e : Int) - 1023) * (1 + (m : ℚ) / 2 ^ 52))) ∧
  (∀ v : Word, let e := (v.extractLsb' 23 8).toNat; let m := (v.extractLsb' 0 23).toNat
    (isZero .single v = true ↔ e = 0 ∧ m = 0) ∧ (isDenormal .single v = true ↔ e = 0 ∧ m ≠ 0) ∧
    (isInf .single v = true ↔ e = 255 ∧ m = 0) ∧
    (isQNaN .single v = true ↔ e = 255 ∧ m ≠ 0 ∧ v.getLsbD 22 = true) ∧
    (isSNaN .single v = true ↔ e = 255 ∧ m ≠ 0 ∧ v.getLsbD 22 = false) ∧
    fpSign .single v = v.getLsbD 31 ∧
    (e < 255 → (fpValue .single v : ℚ) * 2 ^ (-149 : Int) =
      (if v.getLsbD 31 then -1 else 1) *
        if e = 0 then 2 ^ (-126 : Int) * ((m : ℚ) / 2 ^ 23) else 2 ^ ((e : Int) - 127) * (1 + (m : ℚ) / 2 ^ 23)))

/-- Rounding returns an exactly representable value as it is, with all four Booleans false, and depends on nothing but the
format, the value and TININESS (R128). -/
def Obligations.RoundExact : Prop :=
  (∀ f t v (num den : Nat), 0 < den → isFinite f v = true → isZero f v = false → v.toNat < 2 ^ f.width →
    |realValue f v| = (num : ℚ) / ((den : ℚ) * 2 ^ f.unitExp) →
    fpRound f t (fpSign f v) num den = ⟨v, false, false, false, false⟩) ∧
  (∀ f t neg (num den num' den' : Nat), 0 < num → 0 < den → 0 < den' → (num : ℚ) / den = (num' : ℚ) / den' →
    fpRound f t neg num den = fpRound f t neg num' den')

/-- Rounding is to the nearest number of the format, ties to even, with gradual underflow: the whole of the default
`Round` (R129), for every non-zero rational value, in units of the smallest denormal. That the model has the default
alone is its choice (log 14). -/
def Obligations.RoundNearestEven : Prop :=
  ∀ f t neg (num den : Nat), 0 < num → 0 < den →
    CorrectlyRounded f t ((if neg then -1 else 1) * ((num : ℚ) / ((den : ℚ) * 2 ^ f.unitExp)))
      (fpRound f t neg num den)

/-- A sum, difference, product or quotient of finite numbers, the divisor not zero, is the exact one correctly rounded
where that is not zero, and a zero where it is, with no kind but overflow, underflow and inexact (R135, R136). Correctly
rounded is the default `Round` (R129), the only one the model has: its choice (log 14). -/
def Obligations.ArithmeticCorrectlyRounded : Prop :=
  ∀ f t op nan a b, isFinite f a = true → isFinite f b = true → (op = .div → isZero f b = false) →
    let e : ℚ := match op with
      | .add => realValue f a + realValue f b
      | .sub => realValue f a - realValue f b
      | .mul => realValue f a * realValue f b
      | .div => realValue f a / realValue f b
    let r := fpArith f t op nan a b
    (e = 0 → isZero f r.bits = true ∧ r.kinds = 0 ∧ r.inexact = false ∧ r.away = false) ∧
    (e ≠ 0 → CorrectlyRounded f t e
      ⟨r.bits, r.inexact, r.away, r.kinds.getLsbD 1, r.kinds.getLsbD 2⟩ ∧ r.kinds.getLsbD 4 = r.inexact ∧
      r.kinds.getLsbD 0 = false ∧ r.kinds.getLsbD 3 = false) ∧ r.types = 0

/-- The infinities and the zeros of R136: what a sum, difference, product or quotient is when an operand is infinite or
zero and the operation is valid, and the sign of an exactly zero sum or difference. That sign (note Z) is the one for the
default `Round`, the only one the model has: its choice (log 14). -/
def Obligations.InfinitiesAndZeros : Prop :=
  ∀ f t nan a b, isNaN f a = false → isNaN f b = false →
    let sign := fpSign f a != fpSign f b
    (isInf f a = true → (isInf f b = true → fpSign f a = fpSign f b) → fpArith f t .add nan a b = .exact a) ∧
    (isInf f b = true → isInf f a = false → fpArith f t .add nan a b = .exact b) ∧
    (isFinite f a = true → isFinite f b = true → realValue f a + realValue f b = 0 →
      fpArith f t .add nan a b = .exact (fpZero f (fpSign f a && fpSign f b))) ∧
    (isInf f a = true → (isInf f b = true → fpSign f a ≠ fpSign f b) → fpArith f t .sub nan a b = .exact a) ∧
    (isInf f b = true → isInf f a = false → fpArith f t .sub nan a b = .exact (flipSign f b)) ∧
    (isFinite f a = true → isFinite f b = true → realValue f a - realValue f b = 0 →
      fpArith f t .sub nan a b = .exact (fpZero f (fpSign f a && !fpSign f b))) ∧
    (isInf f a = true ∧ isZero f b = false ∨ isInf f b = true ∧ isZero f a = false →
      fpArith f t .mul nan a b = .exact (fpInf f sign)) ∧
    (isZero f a = true ∧ isInf f b = false ∨ isZero f b = true ∧ isInf f a = false →
      fpArith f t .mul nan a b = .exact (fpZero f sign)) ∧
    (isInf f a = true → isInf f b = false → fpArith f t .div nan a b = .exact (fpInf f sign)) ∧
    (isInf f b = true → isInf f a = false → fpArith f t .div nan a b = .exact (fpZero f sign)) ∧
    (isZero f a = true → isZero f b = false → fpArith f t .div nan a b = .exact (fpZero f sign))

/-- NaN operands (R131): a signalling one makes the operation invalid of type snanx, and the result is the generated NaN;
otherwise a quiet one makes the result the generated NaN and nothing occurs. So for the four operations and the fused
multiply-accumulate; the unfused one is R262's product and sum (log 13). -/
def Obligations.NaNOperands : Prop :=
  (∀ f t op nan a b,
    (isSNaN f a = true ∨ isSNaN f b = true → fpArith f t op nan a b = .invalid 0 nan) ∧
    (isSNaN f a = false → isSNaN f b = false → (isNaN f a = true ∨ isNaN f b = true) →
      fpArith f t op nan a b = .exact nan)) ∧
  (∀ f t subc negr np nan a b c, isNaN f nan = true →
    (isSNaN f a = true ∨ isSNaN f b = true ∨ isSNaN f c = true →
      fMacOp f t true subc negr np nan a b c = .invalid 0 nan) ∧
    (isSNaN f a = false → isSNaN f b = false → isSNaN f c = false →
      (isNaN f a = true ∨ isNaN f b = true ∨ isNaN f c = true) →
      fMacOp f t true subc negr np nan a b c = .exact nan))

/-- A generated NaN is a quiet NaN of the format, and every quiet NaN of the format is one that the draw can be
(R132). -/
def Obligations.GeneratedNaNIsAnyQuietNaN : Prop :=
  (∀ (s : State) f, isQNaN f (s.nanDraw f) = true ∧ (s.nanDraw f).toNat < 2 ^ f.width) ∧
  (∀ f v, isQNaN f v = true → v.toNat < 2 ^ f.width → ∃ free, quietNaN f free = v)

/-- Which invalid operation occurs, for the four operations and the conversion to an integer: each type bit exactly under
its condition of R133, kind 0 exactly with one, and bits 5 and 6 never. -/
def Obligations.InvalidOperations : Prop :=
  (∀ f t op nan a b, let r := fpArith f t op nan a b
    let numbers := isNaN f a = false ∧ isNaN f b = false
    let infinities := isInf f a = true ∧ isInf f b = true
    (r.types.getLsbD 0 = true ↔ isSNaN f a = true ∨ isSNaN f b = true) ∧
    (r.types.getLsbD 1 = true ↔ numbers ∧ infinities ∧
      (op = .add ∧ fpSign f a ≠ fpSign f b ∨ op = .sub ∧ fpSign f a = fpSign f b)) ∧
    (r.types.getLsbD 2 = true ↔ numbers ∧ op = .div ∧ infinities) ∧
    (r.types.getLsbD 3 = true ↔ numbers ∧ op = .div ∧ isZero f a = true ∧ isZero f b = true) ∧
    (r.types.getLsbD 4 = true ↔ numbers ∧ op = .mul ∧
      (isInf f a = true ∧ isZero f b = true ∨ isZero f a = true ∧ isInf f b = true)) ∧
    r.types.getLsbD 5 = false ∧ r.types.getLsbD 6 = false ∧ r.types.getLsbD 7 = false ∧
    (r.kinds.getLsbD 0 = true ↔ r.types ≠ 0) ∧ (r.kinds.getLsbD 0 = true → r.bits = nan)) ∧
  (∀ f dir free a, let r := fToI f dir free a
    (r.types = 0 ∨ r.types = 0x80) ∧ (r.kinds.getLsbD 0 = true ↔ r.types = 0x80) ∧
    (r.types = 0x80 ↔ isNaN f a = true ∨ isInf f a = true ∨ roundInt dir (fpValue f a) f.one < -(2 ^ 63) ∨
      2 ^ 63 - 1 < roundInt dir (fpValue f a) f.one))

/-- Divide by zero occurs exactly for a finite non-zero dividend and a zero divisor; the result is the infinity whose
sign is the exclusive or of the signs; infinity divided by zero is infinity and raises nothing (R134). -/
def Obligations.DivisionByZero : Prop :=
  ∀ f t op nan a b, let r := fpArith f t op nan a b
    (r.kinds.getLsbD 3 = true ↔
      op = .div ∧ isFinite f a = true ∧ isZero f a = false ∧ isZero f b = true) ∧
    (r.kinds.getLsbD 3 = true → r.bits = fpInf f (fpSign f a != fpSign f b) ∧ r.types = 0) ∧
    (op = .div → isInf f a = true → isZero f b = true → r = .exact (fpInf f (fpSign f a != fpSign f b)))

/-- Multiply-accumulate (R262). Fused, of finite numbers: the exact product plus or minus the third operand, rounded
once; an exactly zero sum is negative only where the product and the third operand are. Fused, with an infinite operand
and no NaN: infinity times zero is invalid of type infzero, an infinite product less an infinity of its sign invalid of
type subinfx, and otherwise the result is the infinite product or the infinite third operand. Unfused: the product,
rounded, then the sum, rounded, with the kinds and types of both. In either case the final negation inverts the sign of
a result that is no NaN and changes nothing else. The rounding is the default `Round` alone, the model's choice (log 14),
and it is the model's choice that the unfused form follows R262 where R131 and R289 say otherwise (log 13, log 26). -/
def Obligations.MultiplyAccumulate : Prop :=
  (∀ f t subc np nan a b c, isFinite f a = true → isFinite f b = true → isFinite f c = true →
    let e : ℚ := realValue f a * realValue f b + (if subc then -realValue f c else realValue f c)
    let r := fMacOp f t true subc false np nan a b c
    (e = 0 → r = .exact (fpZero f ((fpSign f a != fpSign f b) && (fpSign f c != subc)))) ∧
    (e ≠ 0 → CorrectlyRounded f t e ⟨r.bits, r.inexact, r.away, r.kinds.getLsbD 1, r.kinds.getLsbD 2⟩ ∧
      r.kinds.getLsbD 4 = r.inexact ∧ r.kinds.getLsbD 0 = false ∧ r.kinds.getLsbD 3 = false) ∧ r.types = 0) ∧
  (∀ f t subc np nan a b c, isNaN f a = false → isNaN f b = false → isNaN f c = false →
    let sign := fpSign f a != fpSign f b
    let third := if subc then flipSign f c else c
    let r := fMacOp f t true subc false np nan a b c
    let infiniteProduct := isInf f a = true ∧ isZero f b = false ∨ isInf f b = true ∧ isZero f a = false
    (isInf f a = true ∧ isZero f b = true ∨ isZero f a = true ∧ isInf f b = true → r = .invalid 4 nan) ∧
    (infiniteProduct → isInf f c = true → sign ≠ (fpSign f c != subc) → r = .invalid 1 nan) ∧
    (infiniteProduct → (isInf f c = true → sign = (fpSign f c != subc)) → r = .exact (fpInf f sign)) ∧
    (isInf f c = true → isInf f a = false → isInf f b = false → r = .exact third)) ∧
  (∀ f t subc np nan a b c,
    let q := fpArith f t .mul np a b
    let r := fpArith f t .add nan q.bits (if subc then flipSign f c else c)
    fMacOp f t false subc false np nan a b c =
      ⟨r.bits, q.kinds ||| r.kinds, q.types ||| r.types, q.inexact || r.inexact, r.away⟩) ∧
  (∀ f t fused subc np nan a b c, let r := fMacOp f t fused subc false np nan a b c
    fMacOp f t fused subc true np nan a b c =
      ⟨if isNaN f r.bits then r.bits else flipSign f r.bits, r.kinds, r.types, r.inexact, r.away⟩)

/-- `RoundInt` in each direction the parameter can have is exact on integers and within one of its argument, and the
default discards the fraction: 2.5 gives 2 and -2.5 gives -2 (R201). -/
def Obligations.RoundIntWithinOne : Prop :=
  (∀ dir n d, 0 < d → |((roundInt dir n d : Int) : ℚ) - (n : ℚ) / (d : ℚ)| < 1 ∧
    ∀ k : Int, n = k * d → roundInt dir n d = k) ∧
  (∀ n d, 0 < d → |((roundInt .towardZero n d : Int) : ℚ)| ≤ |(n : ℚ) / (d : ℚ)|) ∧
  roundInt .towardZero 5 2 = 2 ∧ roundInt .towardZero (-5) 2 = -2

/-- What a conversion to an integer returns when it is possible: the rounded value as a 64-bit two's complement pattern,
`inexact` and `away` by comparison with the exact value, and no kind but inexact (R202). -/
def Obligations.FloatToIntegerResult : Prop :=
  ∀ f dir free a, isFinite f a = true →
    let n := roundInt dir (fpValue f a) f.one
    n ≤ 2 ^ 63 - 1 → -(2 ^ 63) ≤ n →
    let r := fToI f dir free a
    r.bits.toInt = n ∧ |(n : ℚ) - realValue f a| < 1 ∧ (r.inexact = true ↔ (n : ℚ) ≠ realValue f a) ∧
      (r.away = true ↔ |realValue f a| < |(n : ℚ)|) ∧ r.kinds = (if r.inexact then 16 else 0) ∧ r.types = 0

/-- A conversion from an integer is the integer correctly rounded, zero giving +0; no kind but inexact occurs
(R207, R208). Correctly rounded is the default `Round` (R129), the only one the model has: its choice (log 14). -/
def Obligations.IntegerToFloatCorrectlyRounded : Prop :=
  ∀ f t (a : Word), let r := iToF f t a
    (a.toInt = 0 → r = .exact (fpZero f false)) ∧
    (a.toInt ≠ 0 → CorrectlyRounded f t (a.toInt : ℚ) ⟨r.bits, r.inexact, r.away, false, false⟩) ∧
    r.kinds = (if r.inexact then 16 else 0) ∧ r.types = 0

/-- An integer of at most p bits converts to a float and back to itself, exactly, in whichever direction FTOI rounds
(R203, R207, R208). -/
def Obligations.IntegerRoundTrip : Prop :=
  ∀ f t dir free (a : Word), a.toInt.natAbs ≤ 2 ^ f.prec →
    (iToF f t a).inexact = false ∧
    fToI f dir free (iToF f t a).bits = { bits := a, kinds := 0, types := 0, inexact := false, away := false }

end Statements
end

