-- ==== Sys2Proof/Laws/Float.lean ====
section
/-! SUPPORT. The number formats: packing and unpacking, and what rounding to the grid of a format does. -/

namespace Sys2Proof.Machine

/-- The rounded quotient is within half of the exact one (R129). -/
theorem roundDiv_near {num den : Nat} (h : 0 < den) :
    2 * (roundDiv num den * den) ≤ 2 * num + den ∧ 2 * num ≤ 2 * (roundDiv num den * den) + den := by
  have hm := Nat.div_add_mod num den
  have hr := Nat.mod_lt num h
  have e : num / den * den = den * (num / den) := Nat.mul_comm _ _
  have e1 : (num / den + 1) * den = den * (num / den) + den := by rw [Nat.add_mul, e, Nat.one_mul]
  unfold roundDiv
  simp only
  split
  · rw [e]; omega
  · split
    · rw [e1]; omega
    · split
      · rw [e]; omega
      · rw [e1]; omega

/-- A quotient exactly half way is rounded to the even number (R129). -/
theorem roundDiv_tie {num den : Nat} (h : 0 < den)
    (ht : 2 * num + den = 2 * (roundDiv num den * den) ∨ 2 * num = 2 * (roundDiv num den * den) + den) :
    roundDiv num den % 2 = 0 := by
  have hm := Nat.div_add_mod num den
  have hr := Nat.mod_lt num h
  have e : num / den * den = den * (num / den) := Nat.mul_comm _ _
  have e1 : (num / den + 1) * den = den * (num / den) + den := by rw [Nat.add_mul, e, Nat.one_mul]
  unfold roundDiv at ht ⊢
  simp only at ht ⊢
  split at ht
  · rw [e] at ht; omega
  · split at ht
    · rw [e1] at ht; omega
    · rename_i h1 h2
      rw [if_neg h1, if_neg h2]
      split <;> omega

/-- Any other natural number is at least as far from the exact quotient (R129). -/
theorem roundDiv_nearest {num den : Nat} (h : 0 < den) (j : Nat) :
    |((roundDiv num den * den : Nat) : Int) - num| ≤ |((j * den : Nat) : Int) - num| := by
  obtain ⟨h1, h2⟩ := roundDiv_near (num := num) h
  by_cases hj : j = roundDiv num den
  · rw [hj]
  · rcases Nat.lt_or_gt_of_ne hj with hlt | hgt
    · have : (j + 1) * den ≤ roundDiv num den * den := Nat.mul_le_mul_right _ hlt
      rw [Nat.add_mul, Nat.one_mul] at this
      push_cast at *
      rcases abs_cases ((roundDiv num den : Int) * den - num) with ⟨ha, _⟩ | ⟨ha, _⟩ <;>
        rcases abs_cases ((j : Int) * den - num) with ⟨hb, _⟩ | ⟨hb, _⟩ <;> rw [ha, hb] <;>
        (zify at h1 h2 this; omega)
    · have : (roundDiv num den + 1) * den ≤ j * den := Nat.mul_le_mul_right _ hgt
      rw [Nat.add_mul, Nat.one_mul] at this
      push_cast at *
      rcases abs_cases ((roundDiv num den : Int) * den - num) with ⟨ha, _⟩ | ⟨ha, _⟩ <;>
        rcases abs_cases ((j : Int) * den - num) with ⟨hb, _⟩ | ⟨hb, _⟩ <;> rw [ha, hb] <;>
        (zify at h1 h2 this; omega)

/-- Another number exactly as far means a tie. -/
theorem roundDiv_tie_of_equal {num den : Nat} (h : 0 < den) {j : Nat} (hj : j ≠ roundDiv num den)
    (he : |((roundDiv num den * den : Nat) : Int) - num| = |((j * den : Nat) : Int) - num|) :
    roundDiv num den % 2 = 0 := by
  obtain ⟨h1, h2⟩ := roundDiv_near (num := num) h
  apply roundDiv_tie h
  rcases Nat.lt_or_gt_of_ne hj with hlt | hgt
  · have : (j + 1) * den ≤ roundDiv num den * den := Nat.mul_le_mul_right _ hlt
    rw [Nat.add_mul, Nat.one_mul] at this
    rcases abs_cases (((roundDiv num den * den : Nat) : Int) - num) with ⟨ha, _⟩ | ⟨ha, _⟩ <;>
      rcases abs_cases (((j * den : Nat) : Int) - num) with ⟨hb, _⟩ | ⟨hb, _⟩ <;> rw [ha, hb] at he <;> omega
  · have : (roundDiv num den + 1) * den ≤ j * den := Nat.mul_le_mul_right _ hgt
    rw [Nat.add_mul, Nat.one_mul] at this
    rcases abs_cases (((roundDiv num den * den : Nat) : Int) - num) with ⟨ha, _⟩ | ⟨ha, _⟩ <;>
      rcases abs_cases (((j * den : Nat) : Int) - num) with ⟨hb, _⟩ | ⟨hb, _⟩ <;> rw [ha, hb] at he <;> omega

/-- An exact quotient is returned. -/
theorem roundDiv_exact (n : Nat) {den : Nat} (h : 0 < den) : roundDiv (n * den) den = n := by
  simp [roundDiv, Nat.mul_div_cancel _ h, h]

/-- Only the quotient matters (R128). -/
theorem roundDiv_scale (num den : Nat) {c : Nat} (h : 0 < c) : roundDiv (num * c) (den * c) = roundDiv num den := by
  have hm : num * c % (den * c) = num % den * c := Nat.mul_mod_mul_right c num den
  simp only [roundDiv, Nat.mul_div_mul_right _ _ h, hm]
  have e1 : 2 * (num % den * c) < den * c ↔ 2 * (num % den) < den := by
    rw [← Nat.mul_assoc]; exact Nat.mul_lt_mul_right h
  have e2 : den * c < 2 * (num % den * c) ↔ den < 2 * (num % den) := by
    rw [← Nat.mul_assoc]; exact Nat.mul_lt_mul_right h
  simp only [e1, e2]

theorem roundDiv_le {num den b : Nat} (h : 0 < den) (hb : num ≤ b * den) : roundDiv num den ≤ b := by
  obtain ⟨h1, h2⟩ := roundDiv_near (num := num) h
  by_contra hc
  have : (b + 1) * den ≤ roundDiv num den * den := Nat.mul_le_mul_right _ (by omega)
  rw [Nat.add_mul, Nat.one_mul] at this
  omega

theorem le_roundDiv {num den b : Nat} (h : 0 < den) (hb : b * den ≤ num) : b ≤ roundDiv num den := by
  obtain ⟨h1, h2⟩ := roundDiv_near (num := num) h
  by_contra hc
  have : (roundDiv num den + 1) * den ≤ b * den := Nat.mul_le_mul_right _ (by omega)
  rw [Nat.add_mul, Nat.one_mul] at this
  omega

/-- The fields of a packed pattern (R120, R122). -/
theorem fpExp_fpPack (f : Fmt) (neg : Bool) {e m : Nat} (he : e ≤ f.expMax) (hm : m < 2 ^ f.fracBits) :
    fpExp f (fpPack f neg e m) = e := by
  cases f <;> cases neg <;> simp only [Fmt.expMax, Fmt.fracBits] at he hm <;>
    simp [fpExp, fpPack, Fmt.width, Fmt.fracBits, Fmt.expBits] <;> omega

theorem fpFrac_fpPack (f : Fmt) (neg : Bool) {e m : Nat} (he : e ≤ f.expMax) (hm : m < 2 ^ f.fracBits) :
    fpFrac f (fpPack f neg e m) = m := by
  cases f <;> cases neg <;> simp only [Fmt.expMax, Fmt.fracBits] at he hm <;>
    simp [fpFrac, fpPack, Fmt.width, Fmt.fracBits] <;> omega

theorem fpSign_fpPack (f : Fmt) (neg : Bool) {e m : Nat} (he : e ≤ f.expMax) (hm : m < 2 ^ f.fracBits) :
    fpSign f (fpPack f neg e m) = neg := by
  cases f <;> cases neg <;> simp only [Fmt.expMax, Fmt.fracBits] at he hm <;>
    simp [fpSign, fpPack, Fmt.width, Fmt.fracBits, BitVec.getLsbD, Nat.testBit_eq_decide_div_mod_eq] <;> omega

theorem fpExp_le (f : Fmt) (v : Word) : fpExp f v ≤ f.expMax := by
  cases f <;> simp [fpExp, Fmt.expMax, Fmt.expBits] <;> omega

theorem fpFrac_lt (f : Fmt) (v : Word) : fpFrac f v < 2 ^ f.fracBits := Nat.mod_lt _ (Nat.two_pow_pos _)

theorem isFinite_iff (f : Fmt) (v : Word) : isFinite f v = true ↔ isNaN f v = false ∧ isInf f v = false := by
  have := fpExp_le f v
  by_cases h : fpExp f v = f.expMax <;> by_cases hm : fpFrac f v = 0 <;>
    simp [isFinite, isNaN, isInf, h, hm] <;> omega

/-- A pattern of the format is put together from its fields again (R120, R122); a single has its upper half zero. -/
theorem fpPack_fields (f : Fmt) (v : Word) (h : v.toNat < 2 ^ f.width) :
    fpPack f (fpSign f v) (fpExp f v) (fpFrac f v) = v := by
  apply BitVec.eq_of_toNat_eq
  cases f <;> simp only [Fmt.width] at h <;>
    simp only [fpPack, fpSign, fpExp, fpFrac, Fmt.width, Fmt.fracBits, Fmt.expBits, BitVec.getLsbD,
      Nat.testBit_eq_decide_div_mod_eq, BitVec.toNat_ofNat, decide_eq_true_eq] <;>
    split <;> omega

/-- A magnitude the format can hold: a significand of at most `p` bits times a power of two, below overflow (R126). -/
def Representable (f : Fmt) (mag : Nat) : Prop :=
  mag < f.overflowMag ∧ ∃ sig k, sig < 2 ^ (f.fracBits + 1) ∧ mag = sig * 2 ^ k

/-- Every finite pattern's magnitude is representable. -/
theorem representable_fpMag {f : Fmt} {v : Word} (h : isFinite f v = true) : Representable f (fpMag f v) := by
  have he : fpExp f v < f.expMax := by simpa [isFinite] using h
  have hm := fpFrac_lt f v
  unfold fpMag
  split
  · refine ⟨?_, fpFrac f v, 0, ?_, by simp⟩
    · refine hm.trans_le (Nat.pow_le_pow_right (by decide) ?_)
      cases f <;> decide
    · exact hm.trans (Nat.pow_lt_pow_right (by decide) (by omega))
  · rename_i h0
    have hs : 2 ^ f.fracBits + fpFrac f v < 2 ^ (f.fracBits + 1) := by rw [Nat.pow_succ]; omega
    refine ⟨?_, _, _, hs, rfl⟩
    calc (2 ^ f.fracBits + fpFrac f v) * 2 ^ (fpExp f v - 1)
        < 2 ^ (f.fracBits + 1) * 2 ^ (fpExp f v - 1) := Nat.mul_lt_mul_of_pos_right hs (Nat.two_pow_pos _)
      _ = 2 ^ (f.fracBits + 1 + (fpExp f v - 1)) := (Nat.pow_add ..).symm
      _ ≤ f.overflowMag := Nat.pow_le_pow_right (by decide) (by omega)

/-- The pattern of a representable magnitude: finite, of that sign and magnitude (R129). -/
theorem fpOfMag_spec {f : Fmt} (neg : Bool) {mag : Nat} (h : Representable f mag) :
    fpSign f (fpOfMag f neg mag) = neg ∧ isFinite f (fpOfMag f neg mag) = true ∧
      fpMag f (fpOfMag f neg mag) = mag := by
  obtain ⟨hov, sig, k', hsig, hmag⟩ := h
  unfold fpOfMag Fmt.minNormal
  have hpos : 0 < f.expMax := by cases f <;> decide
  split
  · rename_i hlt
    refine ⟨fpSign_fpPack f neg (Nat.zero_le _) hlt, ?_, ?_⟩
    · simp [isFinite, fpExp_fpPack f neg (Nat.zero_le _) hlt, hpos]
    · simp [fpMag, fpExp_fpPack f neg (Nat.zero_le _) hlt, fpFrac_fpPack f neg (Nat.zero_le _) hlt]
  · rename_i hge
    have hge : 2 ^ f.fracBits ≤ mag := by omega
    have hne : mag ≠ 0 := by have := Nat.two_pow_pos f.fracBits; omega
    obtain ⟨hl1, hl2⟩ : 2 ^ Nat.log2 mag ≤ mag ∧ mag < 2 ^ (Nat.log2 mag + 1) :=
      ⟨Nat.log2_self_le hne, Nat.lt_log2_self⟩
    have hlog : f.fracBits ≤ Nat.log2 mag := (Nat.le_log2 hne).mpr hge
    have hlog2 : Nat.log2 mag < f.fracBits + f.expMax - 1 := (Nat.log2_lt hne).mpr hov
    simp only
    generalize hk : Nat.log2 mag - f.fracBits = k
    have hlk : Nat.log2 mag = f.fracBits + k := by omega
    rw [hlk] at hl1 hl2
    -- the significand is a whole number
    have hkk : k ≤ k' := by
      by_contra hc
      have : mag < 2 ^ (f.fracBits + k) := by
        rw [hmag]
        calc sig * 2 ^ k' < 2 ^ (f.fracBits + 1) * 2 ^ k' := Nat.mul_lt_mul_of_pos_right hsig (Nat.two_pow_pos _)
          _ = 2 ^ (f.fracBits + 1 + k') := (Nat.pow_add ..).symm
          _ ≤ 2 ^ (f.fracBits + k) := Nat.pow_le_pow_right (by decide) (by omega)
      omega
    have hdvd : mag / 2 ^ k * 2 ^ k = mag := by
      apply Nat.div_mul_cancel
      rw [hmag]
      exact Dvd.dvd.mul_left (Nat.pow_dvd_pow 2 hkk) _
    have hq1 : 2 ^ f.fracBits ≤ mag / 2 ^ k := by
      rw [Nat.le_div_iff_mul_le (Nat.two_pow_pos _), ← Nat.pow_add]; exact hl1
    have hq2 : mag / 2 ^ k < 2 ^ f.fracBits * 2 := by
      rw [Nat.div_lt_iff_lt_mul (Nat.two_pow_pos _), ← Nat.pow_succ, ← Nat.pow_add]
      rwa [show f.fracBits + 1 + k = f.fracBits + k + 1 by omega]
    have hm : mag / 2 ^ k - 2 ^ f.fracBits < 2 ^ f.fracBits := by omega
    have he : k + 1 < f.expMax := by omega
    refine ⟨fpSign_fpPack f neg he.le hm, ?_, ?_⟩
    · simp [isFinite, fpExp_fpPack f neg he.le hm, he]
    · simp only [fpMag, fpExp_fpPack f neg he.le hm, fpFrac_fpPack f neg he.le hm]
      rw [if_neg (by omega), Nat.add_sub_cancel, Nat.add_sub_cancel' hq1, hdvd]

/-- A magnitude determines its finite pattern, up to the sign. -/
theorem fpOfMag_fpMag {f : Fmt} {v : Word} (hf : isFinite f v = true) (h : v.toNat < 2 ^ f.width) :
    fpOfMag f (fpSign f v) (fpMag f v) = v := by
  have he : fpExp f v < f.expMax := by simpa [isFinite] using hf
  have hm := fpFrac_lt f v
  have hv := fpPack_fields f v h
  by_cases h0 : fpExp f v = 0
  · rw [h0] at hv
    have hmag : fpMag f v = fpFrac f v := if_pos h0
    rw [hmag]
    exact (if_pos hm).trans hv
  · unfold fpOfMag fpMag Fmt.minNormal
    rw [if_neg h0]
    have hs1 : 2 ^ f.fracBits ≤ 2 ^ f.fracBits + fpFrac f v := by omega
    have hs2 : 2 ^ f.fracBits + fpFrac f v < 2 ^ (f.fracBits + 1) := by rw [Nat.pow_succ]; omega
    have hp := Nat.two_pow_pos (fpExp f v - 1)
    have hlog : Nat.log2 ((2 ^ f.fracBits + fpFrac f v) * 2 ^ (fpExp f v - 1)) = f.fracBits + (fpExp f v - 1) := by
      rw [Nat.log2_eq_iff (by positivity)]
      constructor
      · rw [Nat.pow_add]; exact Nat.mul_le_mul_right _ hs1
      · rw [show f.fracBits + (fpExp f v - 1) + 1 = f.fracBits + 1 + (fpExp f v - 1) by omega, Nat.pow_add]
        exact Nat.mul_lt_mul_of_pos_right hs2 hp
    have hge : ¬ (2 ^ f.fracBits + fpFrac f v) * 2 ^ (fpExp f v - 1) < 2 ^ f.fracBits := by
      have := Nat.le_mul_of_pos_right (2 ^ f.fracBits + fpFrac f v) hp
      omega
    rw [if_neg hge]
    simp only [hlog]
    rw [show f.fracBits + (fpExp f v - 1) - f.fracBits = fpExp f v - 1 by omega, Nat.mul_div_cancel _ hp,
      Nat.add_sub_cancel_left, show fpExp f v - 1 + 1 = fpExp f v by omega]
    exact hv

/-- Where the grid of R129 lies: below 2^(p+k) units, and from 2^(p-1+k) on unless it is the denormal grid. -/
theorem gridExp_spec (f : Fmt) {num den : Nat} (h : 0 < den) :
    num < 2 ^ (f.fracBits + gridExp f num den + 1) * den ∧
      (gridExp f num den = 0 ∨ 2 ^ (f.fracBits + gridExp f num den) * den ≤ num) := by
  unfold gridExp
  by_cases hq : num / den = 0
  · have hlt : num < den := by
      rcases Nat.div_eq_zero_iff.mp hq with h' | h' <;> omega
    refine ⟨?_, .inl (by simp [hq])⟩
    have := Nat.two_pow_pos (f.fracBits + (Nat.log2 (num / den) - f.fracBits) + 1)
    calc num < den := hlt
      _ ≤ _ := Nat.le_mul_of_pos_left _ this
  · have h1 : 2 ^ Nat.log2 (num / den) ≤ num / den := Nat.log2_self_le hq
    have h2 : num / den < 2 ^ (Nat.log2 (num / den) + 1) := Nat.lt_log2_self
    refine ⟨?_, ?_⟩
    · rw [← Nat.div_lt_iff_lt_mul h]
      exact h2.trans_le (Nat.pow_le_pow_right (by decide) (by omega))
    · by_cases hl : Nat.log2 (num / den) ≤ f.fracBits
      · exact .inl (by omega)
      · right
        rw [← Nat.le_div_iff_mul_le h, show f.fracBits + (Nat.log2 (num / den) - f.fracBits) = Nat.log2 (num / den) by omega]
        exact h1

end Sys2Proof.Machine
end

