-- ==== Sys2Proof/Laws/Rounding.lean ====
section
/-! SUPPORT. Rounding is correct (R129): the grid point chosen is the nearest representable magnitude, ties to even, and
overflow and tininess lie where R126 and R129 put them. -/

namespace Sys2Proof.Machine

/-- The grid point `fpRound` chooses, counted in steps of the grid. -/
def gridPoint (f : Fmt) (num den : Nat) : Nat := roundDiv num (den * 2 ^ gridExp f num den)

theorem step_pos (f : Fmt) (num : Nat) {den : Nat} (h : 0 < den) : 0 < den * 2 ^ gridExp f num den :=
  Nat.mul_pos h (Nat.two_pow_pos _)

/-- The grid point is at most 2^p steps, and at least 2^(p-1) but on the denormal grid (R129). -/
theorem gridPoint_bounds (f : Fmt) (num : Nat) {den : Nat} (h : 0 < den) :
    gridPoint f num den ≤ 2 ^ (f.fracBits + 1) ∧
      (gridExp f num den = 0 ∨ 2 ^ f.fracBits ≤ gridPoint f num den) := by
  obtain ⟨h1, h2⟩ := gridExp_spec f (num := num) h
  refine ⟨roundDiv_le (step_pos f num h) ?_, h2.imp_right fun h2 => le_roundDiv (step_pos f num h) ?_⟩
  · calc num ≤ 2 ^ (f.fracBits + gridExp f num den + 1) * den := h1.le
      _ = 2 ^ (f.fracBits + 1) * (den * 2 ^ gridExp f num den) := by
        rw [show f.fracBits + gridExp f num den + 1 = f.fracBits + 1 + gridExp f num den by omega, Nat.pow_add]; ring
  · calc 2 ^ f.fracBits * (den * 2 ^ gridExp f num den) = 2 ^ (f.fracBits + gridExp f num den) * den := by
          rw [Nat.pow_add]; ring
      _ ≤ num := h2

/-- The rounded magnitude reaches 2^(p-1+J) exactly from half a step below it on (R126, R129). -/
theorem rounded_reaches (f : Fmt) (num : Nat) {den J : Nat} (h : 0 < den) (hJ : 2 ≤ J) :
    2 ^ (f.fracBits + J) ≤ gridPoint f num den * 2 ^ gridExp f num den ↔
      (2 ^ (f.fracBits + 2) - 1) * 2 ^ (J - 2) * den ≤ num := by
  obtain ⟨hb1, hb2⟩ := gridPoint_bounds f num h
  obtain ⟨hs1, hs2⟩ := gridExp_spec f (num := num) h
  obtain ⟨hn1, hn2⟩ := roundDiv_near (num := num) (step_pos f num h)
  have htie := roundDiv_tie (num := num) (step_pos f num h)
  have e0 : roundDiv num (den * 2 ^ gridExp f num den) = gridPoint f num den := rfl
  rw [e0] at hn1 hn2 htie
  generalize gridPoint f num den = n at *
  generalize hk : gridExp f num den = k at *
  have hP : 2 ^ (f.fracBits + 1) = 2 * 2 ^ f.fracBits := by rw [Nat.pow_succ]; ring
  have hP2 : 2 ^ (f.fracBits + 2) = 4 * 2 ^ f.fracBits := by rw [Nat.pow_add]; ring
  have hPpos := Nat.two_pow_pos f.fracBits
  rw [hP2]
  obtain ⟨j, rfl⟩ : ∃ j, J = j + 2 := ⟨J - 2, by omega⟩
  rw [Nat.add_sub_cancel]
  generalize hp : 2 ^ f.fracBits = P at *
  rcases Nat.lt_trichotomy k (j + 1) with hlt | heq | hgt
  · -- the grid is finer: neither side holds
    have a : n * 2 ^ k < 2 ^ (f.fracBits + (j + 2)) := by
      calc n * 2 ^ k ≤ 2 ^ (f.fracBits + 1) * 2 ^ j :=
            Nat.mul_le_mul hb1 (Nat.pow_le_pow_right (by decide) (by omega))
        _ = 2 ^ (f.fracBits + 1 + j) := (Nat.pow_add ..).symm
        _ < _ := Nat.pow_lt_pow_right (by decide) (by omega)
    have b : num < (4 * P - 1) * 2 ^ j * den := by
      calc num < 2 ^ (f.fracBits + k + 1) * den := hs1
        _ ≤ 2 ^ (f.fracBits + 1 + j) * den :=
            Nat.mul_le_mul_right _ (Nat.pow_le_pow_right (by decide) (by omega))
        _ = 2 * P * 2 ^ j * den := by rw [Nat.pow_add, hP]
        _ ≤ (4 * P - 1) * 2 ^ j * den :=
            Nat.mul_le_mul_right _ (Nat.mul_le_mul_right _ (by omega))
    omega
  · -- the grid whose top is the threshold
    subst heq
    have e1 : 2 ^ (f.fracBits + (j + 2)) = 2 * P * 2 ^ (j + 1) := by
      rw [show f.fracBits + (j + 2) = f.fracBits + 1 + (j + 1) by omega, Nat.pow_add, hP]
    have e2 : (4 * P - 1) * 2 ^ j * den ≤ num ↔ (4 * P - 1) * (den * 2 ^ (j + 1)) ≤ 2 * num := by
      rw [show (4 * P - 1) * (den * 2 ^ (j + 1)) = 2 * ((4 * P - 1) * 2 ^ j * den) by rw [Nat.pow_succ]; ring]
      omega
    rw [e1, e2, Nat.mul_le_mul_right_iff (Nat.two_pow_pos _)]
    have hD := Nat.mul_pos h (Nat.two_pow_pos (j + 1))
    generalize den * 2 ^ (j + 1) = D at *
    constructor
    · intro hn
      have : 2 * P * D ≤ n * D := Nat.mul_le_mul_right _ hn
      have e3 : (4 * P - 1) * D + D = 4 * P * D := by
        rw [← Nat.succ_mul]; congr 1; omega
      have e4 : 4 * P * D = 2 * (2 * P * D) := by ring
      omega
    · intro hn
      by_contra hc
      have h3 : (n + 1) * D ≤ 2 * P * D := Nat.mul_le_mul_right _ (by omega)
      rw [Nat.add_mul, Nat.one_mul] at h3
      have e3 : (4 * P - 1) * D + D = 4 * P * D := by
        rw [← Nat.succ_mul]; congr 1; omega
      have e4 : 4 * P * D = 2 * (2 * P * D) := by ring
      have heq : 2 * num = 2 * (n * D) + D := by omega
      have hev := htie (.inr heq)
      have h4 : (n + 1) * D = 2 * P * D := by rw [Nat.add_mul, Nat.one_mul]; omega
      have := Nat.eq_of_mul_eq_mul_right hD h4
      omega
  · -- the grid is coarser: both sides hold
    have hlow : P ≤ n := hb2.resolve_left (by omega)
    have hlow' : 2 ^ (f.fracBits + k) * den ≤ num := hs2.resolve_left (by omega)
    have a : 2 ^ (f.fracBits + (j + 2)) ≤ n * 2 ^ k := by
      calc 2 ^ (f.fracBits + (j + 2)) = P * 2 ^ (j + 2) := by rw [Nat.pow_add, hp]
        _ ≤ n * 2 ^ k := Nat.mul_le_mul hlow (Nat.pow_le_pow_right (by decide) (by omega))
    have b : (4 * P - 1) * 2 ^ j * den ≤ num := by
      calc (4 * P - 1) * 2 ^ j * den ≤ 4 * P * 2 ^ j * den :=
            Nat.mul_le_mul_right _ (Nat.mul_le_mul_right _ (by omega))
        _ = P * 2 ^ (j + 2) * den := by rw [Nat.pow_add]; ring
        _ ≤ P * 2 ^ k * den :=
            Nat.mul_le_mul_right _ (Nat.mul_le_mul_left _ (Nat.pow_le_pow_right (by decide) (by omega)))
        _ = 2 ^ (f.fracBits + k) * den := by rw [Nat.pow_add, hp]
        _ ≤ num := hlow'
    exact ⟨fun _ => b, fun _ => a⟩

/-- Below overflow the rounded magnitude is one the format can hold. -/
theorem representable_rounded (f : Fmt) (num : Nat) {den : Nat} (h : 0 < den)
    (hov : gridPoint f num den * 2 ^ gridExp f num den < f.overflowMag) :
    Representable f (gridPoint f num den * 2 ^ gridExp f num den) := by
  refine ⟨hov, ?_⟩
  obtain ⟨h1, -⟩ := gridPoint_bounds f num h
  by_cases hn : gridPoint f num den < 2 ^ (f.fracBits + 1)
  · exact ⟨_, _, hn, rfl⟩
  · have : gridPoint f num den = 2 ^ (f.fracBits + 1) := by omega
    refine ⟨2 ^ f.fracBits, gridExp f num den + 1, Nat.pow_lt_pow_right (by decide) (by omega), ?_⟩
    rw [this, Nat.pow_succ, Nat.pow_succ]; ring

/-- A representable magnitude is on the grid, or below all of the grid's own binade. -/
theorem on_grid_or_below {f : Fmt} {mag : Nat} (h : Representable f mag) (k : Nat) :
    (∃ j, mag = j * 2 ^ k) ∨ mag < 2 ^ (f.fracBits + k) := by
  obtain ⟨-, sig, k', hs, rfl⟩ := h
  by_cases hk : k ≤ k'
  · refine .inl ⟨sig * 2 ^ (k' - k), ?_⟩
    rw [Nat.mul_assoc, ← Nat.pow_add, Nat.sub_add_cancel hk]
  · right
    calc sig * 2 ^ k' < 2 ^ (f.fracBits + 1) * 2 ^ k' := Nat.mul_lt_mul_of_pos_right hs (Nat.two_pow_pos _)
      _ = 2 ^ (f.fracBits + 1 + k') := (Nat.pow_add ..).symm
      _ ≤ _ := Nat.pow_le_pow_right (by decide) (by omega)

/-- The rounded magnitude is a nearest representable one, and even where another is as near (R129). -/
theorem rounded_nearest (f : Fmt) (num : Nat) {den w : Nat} (h : 0 < den) (hw : Representable f w) :
    |((gridPoint f num den * 2 ^ gridExp f num den * den : Nat) : Int) - num| ≤ |((w * den : Nat) : Int) - num| ∧
      (|((gridPoint f num den * 2 ^ gridExp f num den * den : Nat) : Int) - num| = |((w * den : Nat) : Int) - num| →
        w ≠ gridPoint f num den * 2 ^ gridExp f num den → gridPoint f num den % 2 = 0) := by
  have hD := step_pos f num h
  have e : ∀ j, j * 2 ^ gridExp f num den * den = j * (den * 2 ^ gridExp f num den) := fun j => by ring
  rw [e]
  rcases on_grid_or_below hw (gridExp f num den) with ⟨j, rfl⟩ | hlt
  · rw [e]
    refine ⟨roundDiv_nearest hD j, fun heq hne => roundDiv_tie_of_equal hD (j := j) ?_ heq⟩
    rintro rfl
    exact hne rfl
  · -- below the binade: its lowest grid point is nearer
    obtain ⟨-, hlow⟩ := gridExp_spec f (num := num) h
    rcases hlow with h0 | hlow
    · have : ∃ j, w = j * 2 ^ gridExp f num den := ⟨w, by rw [h0]; simp⟩
      obtain ⟨j, rfl⟩ := this
      rw [e]
      refine ⟨roundDiv_nearest hD j, fun heq hne => roundDiv_tie_of_equal hD (j := j) ?_ heq⟩
      rintro rfl
      exact hne rfl
    · have hb := roundDiv_nearest (num := num) hD (2 ^ f.fracBits)
      have e2 : 2 ^ f.fracBits * (den * 2 ^ gridExp f num den) = 2 ^ (f.fracBits + gridExp f num den) * den := by
        rw [Nat.pow_add]; ring
      rw [e2] at hb
      have hlt' : w * den < 2 ^ (f.fracBits + gridExp f num den) * den := Nat.mul_lt_mul_of_pos_right hlt h
      have hstrict : |((2 ^ (f.fracBits + gridExp f num den) * den : Nat) : Int) - num| < |((w * den : Nat) : Int) - num| := by
        rw [abs_of_nonpos (by omega), abs_of_nonpos (by omega)]; omega
      have hb' : |((gridPoint f num den * (den * 2 ^ gridExp f num den) : Nat) : Int) - num| ≤
          |((2 ^ (f.fracBits + gridExp f num den) * den : Nat) : Int) - num| := hb
      exact ⟨(hb'.trans_lt hstrict).le, fun heq => absurd heq (hb'.trans_lt hstrict).ne⟩

/-- The fraction of the pattern of a grid point is even when the grid point is. -/
theorem fpFrac_fpOfMag_even (f : Fmt) (neg : Bool) {num den : Nat} (h : 0 < den)
    (hov : gridPoint f num den * 2 ^ gridExp f num den < f.overflowMag) (hev : gridPoint f num den % 2 = 0) :
    fpFrac f (fpOfMag f neg (gridPoint f num den * 2 ^ gridExp f num den)) % 2 = 0 := by
  obtain ⟨hb1, hb2⟩ := gridPoint_bounds f num h
  have hP : 2 ^ (f.fracBits + 1) = 2 * 2 ^ f.fracBits := by rw [Nat.pow_succ]; ring
  have hPe : 2 ^ f.fracBits % 2 = 0 := by cases f <;> rfl
  have hPpos := Nat.two_pow_pos f.fracBits
  generalize gridPoint f num den = n at *
  generalize gridExp f num den = k at *
  unfold fpOfMag Fmt.minNormal
  by_cases hlt : n * 2 ^ k < 2 ^ f.fracBits
  · rw [if_pos hlt, fpFrac_fpPack f neg (Nat.zero_le _) hlt]
    rcases hb2 with rfl | hb2
    · simpa using hev
    · have := Nat.le_mul_of_pos_right n (Nat.two_pow_pos k)
      omega
  · rw [if_neg hlt]
    have hn0 : 0 < n := by
      rcases Nat.eq_zero_or_pos n with rfl | h'
      · simp at hlt
      · exact h'
    have hmpos : n * 2 ^ k ≠ 0 := (Nat.mul_pos hn0 (Nat.two_pow_pos _)).ne'
    have hlog2 : Nat.log2 (n * 2 ^ k) < f.fracBits + f.expMax - 1 := (Nat.log2_lt hmpos).mpr hov
    have hlow : 2 ^ f.fracBits ≤ n := by
      rcases hb2 with rfl | hb2
      · simpa using hlt
      · exact hb2
    have hexp : 0 < f.expMax := by cases f <;> decide
    by_cases hn : n < 2 ^ (f.fracBits + 1)
    · have hlog : Nat.log2 (n * 2 ^ k) = f.fracBits + k := by
        rw [Nat.log2_eq_iff hmpos]
        constructor
        · rw [Nat.pow_add]; exact Nat.mul_le_mul_right _ hlow
        · rw [show f.fracBits + k + 1 = f.fracBits + 1 + k by omega, Nat.pow_add]
          exact Nat.mul_lt_mul_of_pos_right hn (Nat.two_pow_pos _)
      simp only [hlog]
      rw [show f.fracBits + k - f.fracBits = k by omega, Nat.mul_div_cancel _ (Nat.two_pow_pos _),
        fpFrac_fpPack f neg (by omega) (by omega)]
      omega
    · have hn' : n = 2 ^ (f.fracBits + 1) := by omega
      have hm : n * 2 ^ k = 2 ^ (f.fracBits + (k + 1)) := by
        rw [hn', ← Nat.pow_add]; congr 1; omega
      rw [hm] at hlog2 ⊢
      rw [Nat.log2_two_pow] at hlog2 ⊢
      simp only
      rw [show f.fracBits + (k + 1) - f.fracBits = k + 1 by omega, Nat.pow_add, Nat.mul_div_cancel _ (Nat.two_pow_pos _),
        Nat.sub_self, fpFrac_fpPack f neg (by omega) hPpos]

end Sys2Proof.Machine
end

