-- ==== Sys2Proof/Laws/Values.lean ====
section
/-! SUPPORT. The units the model computes with and the rational values the statements speak of (R124 to R126). -/

namespace Sys2Proof.Machine

/-- 2^emin in units (R126). -/
theorem emin_units (f : Fmt) : (2 : ℚ) ^ f.emin * 2 ^ f.unitExp = 2 ^ f.fracBits := by
  rw [← zpow_natCast 2 f.unitExp, ← zpow_add₀ (by norm_num), ← zpow_natCast 2 f.fracBits]
  cases f <;> rfl

/-- The value of a pattern, in units, is `fpValue` (R124, R125, R126). -/
theorem realValue_units (f : Fmt) (v : Word) : realValue f v * 2 ^ f.unitExp = (fpValue f v : ℚ) := by
  have key : (if fpExp f v = 0 then (2 : ℚ) ^ f.emin * ((fpFrac f v : ℚ) / 2 ^ f.fracBits)
      else 2 ^ ((fpExp f v : Int) - f.emax) * (1 + (fpFrac f v : ℚ) / 2 ^ f.fracBits)) * 2 ^ f.unitExp =
      (fpMag f v : ℚ) := by
    unfold fpMag
    split
    · have hP : (2 : ℚ) ^ f.fracBits ≠ 0 := by positivity
      calc _ = (2 : ℚ) ^ f.emin * 2 ^ f.unitExp * ((fpFrac f v : ℚ) / 2 ^ f.fracBits) := by ring
        _ = _ := by rw [emin_units]; field_simp
    · rename_i h0
      obtain ⟨e, he⟩ : ∃ e, fpExp f v = e + 1 := ⟨fpExp f v - 1, by omega⟩
      rw [he, Nat.add_sub_cancel]
      have h2 : (2 : ℚ) ≠ 0 := by norm_num
      have e1 : (2 : ℚ) ^ (((e + 1 : ℕ) : Int) - f.emax) * 2 ^ f.unitExp = 2 ^ e * 2 ^ f.fracBits := by
        rw [← zpow_natCast 2 f.unitExp, ← zpow_add₀ h2, ← pow_add, ← zpow_natCast]
        congr 1
        cases f <;> simp [Fmt.emax, Fmt.unitExp, Fmt.fracBits] <;> omega
      have hP : (2 : ℚ) ^ f.fracBits ≠ 0 := by positivity
      calc _ = ((2 : ℚ) ^ (((e + 1 : ℕ) : Int) - f.emax) * 2 ^ f.unitExp) *
            (1 + (fpFrac f v : ℚ) / 2 ^ f.fracBits) := by ring
        _ = 2 ^ e * 2 ^ f.fracBits * (1 + (fpFrac f v : ℚ) / 2 ^ f.fracBits) := by rw [e1]
        _ = (2 ^ f.fracBits + fpFrac f v) * 2 ^ e := by field_simp
        _ = _ := by push_cast; ring
  unfold realValue fpValue
  simp only
  split
  · rw [neg_mul, key]; push_cast; rfl
  · rw [key]; push_cast; rfl

/-- Its magnitude, in units, is `fpMag`. -/
theorem realValue_abs (f : Fmt) (v : Word) : |realValue f v| * 2 ^ f.unitExp = (fpMag f v : ℚ) := by
  have h := realValue_units f v
  have : |realValue f v * 2 ^ f.unitExp| = (fpMag f v : ℚ) := by
    rw [h]; unfold fpValue; split <;> simp
  rw [← this, abs_mul, abs_of_pos (by positivity : (0 : ℚ) < 2 ^ f.unitExp)]

/-- The magnitude that overflows, in units (R126, R129). -/
theorem overflowAt_units (f : Fmt) :
    f.overflowAt * 2 ^ f.unitExp = ((2 ^ (f.fracBits + 2) - 1) * 2 ^ (f.expMax - 3) : ℚ) := by
  have e : (2 : ℚ) ^ f.emax * 2 ^ f.unitExp = 2 ^ f.prec * 2 ^ (f.expMax - 3) := by
    rw [← zpow_natCast 2 f.unitExp, ← zpow_add₀ (by norm_num), ← pow_add, ← zpow_natCast 2 (f.prec + (f.expMax - 3))]
    cases f <;> rfl
  have hp : f.fracBits + 2 = f.prec + 1 := by cases f <;> rfl
  rw [Fmt.overflowAt, mul_assoc, e, hp, pow_succ, ← mul_assoc]
  congr 1
  field_simp

/-- The model's test for tininess is the one of the statements (R129). -/
theorem isTiny_iff (f : Fmt) (t : Tininess) (num den : Nat) (hd : 0 < den) (e : ℚ)
    (he : |e| * 2 ^ f.unitExp = (num : ℚ) / den) : isTiny f t num den = true ↔ Tiny f t e := by
  have hU : (0 : ℚ) < 2 ^ f.unitExp := by positivity
  have hdq : (0 : ℚ) < den := by exact_mod_cast hd
  have emin := emin_units f
  cases t
  · unfold isTiny Tiny Fmt.minNormal
    simp only
    rw [decide_eq_true_eq, ← mul_lt_mul_iff_left₀ hU, he, emin, div_lt_iff₀ hdq]
    exact_mod_cast Iff.rfl
  · unfold isTiny Tiny Fmt.minNormal
    simp only
    rw [decide_eq_true_eq]
    have hp : f.prec = f.fracBits + 1 := by cases f <;> rfl
    have hJ : 2 ≤ f.prec + Nat.log2 den := by cases f <;> simp [Fmt.prec] <;> omega
    have := rounded_reaches f (num * 2 ^ (f.prec + Nat.log2 den)) hd hJ
    rw [Nat.pow_add] at this
    rw [← not_le]
    unfold gridPoint at this
    rw [this, not_le, ← mul_lt_mul_iff_left₀ hU, he, div_lt_iff₀ hdq, mul_assoc (1 - _) _, emin, hp]
    obtain ⟨j, hj⟩ : ∃ j, f.prec + Nat.log2 den = j + 2 := ⟨_, (Nat.sub_add_cancel hJ).symm⟩
    rw [hp] at hj
    rw [hj, Nat.add_sub_cancel]
    have hpos : (0 : ℚ) < 2 ^ j := by positivity
    have h4 : 1 ≤ 2 ^ (f.fracBits + 2) := Nat.one_le_two_pow
    rw [← Nat.cast_lt (α := ℚ)]
    push_cast [h4]
    rw [pow_add, pow_add]
    constructor
    · intro h
      have : (num : ℚ) * 4 * 2 ^ j < (2 ^ f.fracBits * 4 - 1) * den * 2 ^ j := by nlinarith
      have := lt_of_mul_lt_mul_right this hpos.le
      have hP : (0 : ℚ) < 2 ^ f.fracBits := by positivity
      have e : (1 - 1 / (2 ^ f.fracBits * 2 ^ 2) : ℚ) * 2 ^ f.fracBits = (2 ^ f.fracBits * 4 - 1) / 4 := by
        field_simp; ring
      rw [e]; linarith
    · intro h
      have hP : (0 : ℚ) < 2 ^ f.fracBits := by positivity
      have e : (1 - 1 / (2 ^ f.fracBits * 2 ^ 2) : ℚ) * 2 ^ f.fracBits = (2 ^ f.fracBits * 4 - 1) / 4 := by
        field_simp; ring
      rw [e] at h
      have : (num : ℚ) * 4 < (2 ^ f.fracBits * 4 - 1) * den := by linarith
      have := mul_lt_mul_of_pos_right this hpos
      nlinarith

/-- Only the zeros have the value zero (R124, R125). -/
theorem value_zero_iff (f : Fmt) (v : Word) : fpValue f v = 0 ↔ isZero f v = true := by
  have : fpMag f v = 0 ↔ fpExp f v = 0 ∧ fpFrac f v = 0 := by
    unfold fpMag; split <;> simp [*]
  unfold fpValue isZero
  simp only [decide_eq_true_eq]
  split <;> omega

/-- Only the zeros have the value zero (R124, R125). -/
theorem real_zero_iff (f : Fmt) (v : Word) : realValue f v = 0 ↔ isZero f v = true := by
  rw [← value_zero_iff]
  have h := realValue_units f v
  have hU : (0 : ℚ) < 2 ^ f.unitExp := by positivity
  constructor
  · intro h0; rw [h0] at h; simp at h; exact_mod_cast h.symm
  · intro h0; rw [h0] at h; simp at h; exact h

/-- The kinds of a rounded result (R135). -/
theorem bits_kinds (r : Rounded) :
    (FpResult.rounded r).kinds.getLsbD 1 = r.overflow ∧ (FpResult.rounded r).kinds.getLsbD 2 = r.underflow ∧
      (FpResult.rounded r).kinds.getLsbD 4 = r.inexact ∧ (FpResult.rounded r).kinds.getLsbD 0 = false ∧
      (FpResult.rounded r).kinds.getLsbD 3 = false := by
  obtain ⟨b, i, a, o, u⟩ := r
  cases i <;> cases o <;> cases u <;> (revert a b; simp [FpResult.rounded, kindBit])

/-- The zeros are zeros. -/
theorem isZero_fpZero (f : Fmt) (s : Bool) : isZero f (fpZero f s) = true := by
  cases f <;> cases s <;> decide

/-- A finite pattern is no infinity and no NaN. -/
theorem finite_cases {f : Fmt} {v : Word} (h : isFinite f v = true) :
    isNaN f v = false ∧ isInf f v = false ∧ isSNaN f v = false := by
  obtain ⟨a, b⟩ := (isFinite_iff f v).mp h
  exact ⟨a, b, by simp [isSNaN, a]⟩

/-- Inverting the sign bit changes the sign and nothing else. -/
theorem flip_fields (f : Fmt) (b : Word) :
    fpExp f (flipSign f b) = fpExp f b ∧ fpFrac f (flipSign f b) = fpFrac f b ∧
      fpSign f (flipSign f b) = !fpSign f b := by
  have hx : ∀ i, i < f.width - 1 → (flipSign f b).getLsbD i = b.getLsbD i := by
    intro i hi
    have : (signMask f).getLsbD i = false := by
      revert i; cases f <;> decide
    rw [flipSign, BitVec.getLsbD_xor, this, Bool.xor_false]
  have hm : (flipSign f b).toNat % 2 ^ (f.width - 1) = b.toNat % 2 ^ (f.width - 1) := by
    apply Nat.eq_of_testBit_eq
    intro i
    rw [Nat.testBit_mod_two_pow, Nat.testBit_mod_two_pow]
    by_cases hi : i < f.width - 1
    · have := hx i hi; rw [BitVec.getLsbD, BitVec.getLsbD] at this; simp [this]
    · simp [hi]
  refine ⟨?_, ?_, ?_⟩
  · cases f <;> simp only [fpExp, Fmt.fracBits, Fmt.expBits, Fmt.width] at * <;> omega
  · cases f <;> simp only [fpFrac, Fmt.fracBits, Fmt.width] at * <;> omega
  · unfold fpSign flipSign
    rw [BitVec.getLsbD_xor]
    have : (signMask f).getLsbD (f.width - 1) = true := by cases f <;> decide
    rw [this, Bool.xor_true]

/-- Inverting the sign bit negates the value. -/
theorem real_flip (f : Fmt) (b : Word) : realValue f (flipSign f b) = -realValue f b := by
  obtain ⟨h1, h2, h3⟩ := flip_fields f b
  unfold realValue; simp only; rw [h1, h2, h3]
  cases fpSign f b <;> simp

/-- A value is its sign times its magnitude. -/
theorem sign_real (f : Fmt) (v : Word) : realValue f v = (if fpSign f v then -1 else 1) * |realValue f v| := by
  have hU : (0 : ℚ) < 2 ^ f.unitExp := by positivity
  apply mul_right_cancel₀ hU.ne'
  rw [mul_assoc, realValue_abs, realValue_units]; unfold fpValue; cases fpSign f v <;> simp

end Sys2Proof.Machine
end

