-- ==== Sys2Proof/Laws/Classes.lean ====
section
/-! SUPPORT. The classes of a pattern exclude one another, and inverting the sign bit keeps the class (R124, R125). -/

namespace Sys2Proof.Machine

/-- A NaN is of no other class. -/
theorem nan_excludes {f : Fmt} {v : Word} (h : isNaN f v = true) :
    isInf f v = false ∧ isZero f v = false ∧ isFinite f v = false := by
  simp only [isNaN, isInf, isZero, isFinite, decide_eq_true_eq, decide_eq_false_iff_not] at *
  have : 0 < f.expMax := by cases f <;> decide
  omega

/-- An infinity is of no other class. -/
theorem inf_excludes {f : Fmt} {v : Word} (h : isInf f v = true) :
    isNaN f v = false ∧ isZero f v = false ∧ isFinite f v = false := by
  simp only [isNaN, isInf, isZero, isFinite, decide_eq_true_eq, decide_eq_false_iff_not] at *
  have : 0 < f.expMax := by cases f <;> decide
  omega

/-- A zero is a finite number. -/
theorem zero_excludes {f : Fmt} {v : Word} (h : isZero f v = true) :
    isNaN f v = false ∧ isInf f v = false ∧ isFinite f v = true := by
  simp only [isNaN, isInf, isZero, isFinite, decide_eq_true_eq, decide_eq_false_iff_not] at *
  have : 0 < f.expMax := by cases f <;> decide
  omega

/-- What is no NaN is no signalling NaN. -/
theorem snan_false {f : Fmt} {v : Word} (h : isNaN f v = false) : isSNaN f v = false := by simp [isSNaN, h]

/-- A signalling NaN is a NaN. -/
theorem snan_nan {f : Fmt} {v : Word} (h : isSNaN f v = true) : isNaN f v = true := by
  rw [isSNaN, Bool.and_eq_true] at h
  exact h.1

/-- Inverting the sign bit keeps the class, and inverts the sign. -/
theorem flip_classes (f : Fmt) (v : Word) :
    isNaN f (flipSign f v) = isNaN f v ∧ isSNaN f (flipSign f v) = isSNaN f v ∧ isInf f (flipSign f v) = isInf f v ∧
      isZero f (flipSign f v) = isZero f v ∧ isFinite f (flipSign f v) = isFinite f v ∧
      fpSign f (flipSign f v) = !fpSign f v := by
  have hq : quietBit f (flipSign f v) = quietBit f v := by
    have : (signMask f).getLsbD (f.fracBits - 1) = false := by cases f <;> decide
    rw [quietBit, flipSign, BitVec.getLsbD_xor, this, Bool.xor_false, quietBit]
  obtain ⟨h1, h2, h3⟩ := flip_fields f v
  simp only [isNaN, isSNaN, isInf, isZero, isFinite, hq, h1, h2, h3, and_self]

/-- The third operand of a multiply-accumulate, as it is or with its sign inverted: class, sign and value (R262). -/
theorem third_operand (f : Fmt) (subc : Bool) (c : Word) :
    let c' := if subc then flipSign f c else c
    isNaN f c' = isNaN f c ∧ isSNaN f c' = isSNaN f c ∧ isInf f c' = isInf f c ∧ isZero f c' = isZero f c ∧
      isFinite f c' = isFinite f c ∧ fpSign f c' = (fpSign f c != subc) ∧
      realValue f c' = if subc then -realValue f c else realValue f c := by
  obtain ⟨h1, h2, h3, h4, h5, h6⟩ := flip_classes f c
  cases subc
  · simp
  · simp [h1, h2, h3, h4, h5, h6, real_flip]

end Sys2Proof.Machine
end

