-- ==== Sys2Proof/Laws/Decode.lean ====
section
/-! SUPPORT. Bytes and words, and what decoding does to an encoded word. -/

namespace Sys2Proof

@[simp] theorem length_bytesOf (n w : Nat) : (bytesOf n w).length = n := by
  induction n generalizing w with
  | zero => rfl
  | succ n ih => simp [bytesOf, ih]

/-- The number `n` bytes of a word make is the word modulo 2^(8n) (R62, R63). -/
theorem wordOf_bytesOf (n w : Nat) : wordOf (bytesOf n w) = w % 256 ^ n := by
  induction n generalizing w with
  | zero => simp [bytesOf, wordOf, Nat.mod_one]
  | succ n ih =>
    have h : w % 256 ^ (n + 1) = w % 256 + 256 * (w / 256 % 256 ^ n) := by rw [Nat.pow_succ', Nat.mod_mul]
    rw [bytesOf, wordOf, ih, BitVec.toNat_ofNat, h]

theorem wordOf_lt (bs : List Byte) : wordOf bs < 256 ^ bs.length := by
  induction bs with
  | nil => simp [wordOf]
  | cons b bs ih =>
    rw [wordOf, List.length_cons, Nat.pow_succ']
    have := b.isLt
    omega

theorem bytesOf_wordOf (bs : List Byte) : bytesOf bs.length (wordOf bs) = bs := by
  induction bs with
  | nil => rfl
  | cons b bs ih =>
    have hb := b.isLt
    rw [List.length_cons, wordOf, bytesOf]
    congr 1
    · apply BitVec.eq_of_toNat_eq; rw [BitVec.toNat_ofNat]; omega
    · rw [show (b.toNat + 256 * wordOf bs) / 256 = wordOf bs by omega, ih]

/-- Decoding bytes that begin with an encoded word is decoding the word. -/
theorem decode_bytesOf {n w : Nat} {rest : List Byte} {i : Instr} (h2 : 2 ≤ n) (hw : w < 256 ^ n)
    (hlen : instrLength (BitVec.ofNat 8 (w / 256)) = some n) (hdec : decodeWord w = some i) :
    decode (bytesOf n w ++ rest) = .ok i n := by
  obtain ⟨k, rfl⟩ : ∃ k, n = k + 2 := ⟨n - 2, by omega⟩
  have htake : (bytesOf (k + 2) w ++ rest).take (k + 2) = bytesOf (k + 2) w := by
    rw [List.take_left' (length_bytesOf _ _)]
  have hlt : ¬ (bytesOf (k + 2) w ++ rest).length < k + 2 := by simp
  have hword : wordOf (bytesOf (k + 2) w) = w := by rw [wordOf_bytesOf, Nat.mod_eq_of_lt hw]
  have shape : bytesOf (k + 2) w ++ rest =
      BitVec.ofNat 8 w :: BitVec.ofNat 8 (w / 256) :: (bytesOf k (w / 256 / 256) ++ rest) := rfl
  unfold decode
  rw [shape]
  simp only [hlen]
  rw [← shape, if_neg hlt, htake, hword, hdec]

/-- The opcode byte of a word as decoding sees it. -/
theorem opcode_byte (w : Nat) : BitVec.ofNat 8 (w / 256) = BitVec.ofNat 8 (field w 8 8) := by
  apply BitVec.eq_of_toNat_eq
  simp [field]

theorem decodeWord_77 {w : Nat} (h : field w 8 8 = 0x77) : decodeWord w = decode77 w := by
  unfold decodeWord
  rw [h]
  rfl

theorem decodeWord_79 {w : Nat} (h : field w 8 8 = 0x79) : decodeWord w = decode79 w := by
  unfold decodeWord
  rw [h]
  rfl

theorem decodeWord_78 {w : Nat} (h : field w 8 8 = 0x78) : decodeWord w = decode78 w := by
  unfold decodeWord
  rw [h]
  rfl

theorem decodeWord_76 {w : Nat} (h : field w 8 8 = 0x76) : decodeWord w = decode76 w := by
  unfold decodeWord
  rw [h]
  rfl

theorem decodeWord_compare {w : Nat} (h : 0x10 ≤ field w 8 8 ∧ field w 8 8 < 0x20) : decodeWord w = decodeCompare w := by
  unfold decodeWord
  simp only
  rw [if_neg (by omega), if_pos h.2]

theorem decodeWord_test {w : Nat} (h : field w 8 8 < 0x10) : decodeWord w = decodeTest w := by
  unfold decodeWord
  simp only
  rw [if_pos h]

theorem Pred.fits_iff (p : Pred) : p.fits = true ↔ p.pn < 16 ∧ p.pc < 16 := by simp [Pred.fits]

theorem fits6_iff (n : Nat) : fits6 n = true ↔ n < 64 := by simp [fits6]

theorem fits4_iff (n : Nat) : fits4 n = true ↔ n < 16 := by simp [fits4]

/-- The fields of a word of format FR2 or FI (R89, R90). -/
theorem fields_FR2 {p : Pred} {op fn rt ra : Nat} (hp : p.pn < 16 ∧ p.pc < 16) (hop : op < 256) (hf : fn < 16)
    (ht : rt < 64) (ha : ra < 64) :
    let w := encodeFR2 p op fn rt ra
    w < 256 ^ 4 ∧ field w 0 4 = p.pc ∧ field w 4 4 = p.pn ∧ field w 8 8 = op ∧ field w 16 6 = ra ∧ field w 22 6 = rt ∧
      field w 28 4 = fn := by
  obtain ⟨hpn, hpc⟩ := hp
  simp only [encodeFR2, encodeHead, field]
  refine ⟨by omega, by omega, by omega, by omega, by omega, by omega, by omega⟩

/-- The fields of a word of format FR3 (R91). -/
theorem fields_FR3 {p : Pred} {fn rt ra rb : Nat} (hp : p.pn < 16 ∧ p.pc < 16) (hf : fn < 64) (ht : rt < 64)
    (ha : ra < 64) (hb : rb < 64) :
    let w := encodeFR3 p fn rt ra rb
    w < 256 ^ 5 ∧ field w 0 4 = p.pc ∧ field w 4 4 = p.pn ∧ field w 8 8 = 0x78 ∧ field w 16 6 = ra ∧
      field w 22 6 = rb ∧ field w 28 6 = rt ∧ field w 34 6 = fn := by
  obtain ⟨hpn, hpc⟩ := hp
  simp only [encodeFR3, encodeHead, field]
  refine ⟨by omega, by omega, by omega, by omega, by omega, by omega, by omega, by omega⟩

/-- The fields of a word of format FR4 (R92). -/
theorem fields_FR4 {p : Pred} {o5 rt ra rb rc : Nat} (hp : p.pn < 16 ∧ p.pc < 16) (ho : o5 < 32) (ht : rt < 64)
    (ha : ra < 64) (hb : rb < 64) (hc : rc < 64) :
    let w := encodeFR4 p o5 rt ra rb rc
    w < 256 ^ 6 ∧ field w 0 4 = p.pc ∧ field w 4 4 = p.pn ∧ field w 8 8 = 0x76 ∧ field w 16 6 = ra ∧
      field w 22 6 = rb ∧ field w 28 6 = rc ∧ field w 34 6 = rt ∧ field w 40 5 = o5 := by
  obtain ⟨hpn, hpc⟩ := hp
  simp only [encodeFR4, encodeHead, field]
  refine ⟨by omega, by omega, by omega, by omega, by omega, by omega, by omega, by omega, by omega⟩

/-- The fields of a word of format FC32 (R88). -/
theorem fields_FC32 {p : Pred} {fn pt ra rb : Nat} (hp : p.pn < 16 ∧ p.pc < 16) (hf : fn < 16) (ht : pt < 16)
    (ha : ra < 64) (hb : rb < 64) :
    let w := encodeFC32 p fn pt ra rb
    w < 256 ^ 4 ∧ field w 0 4 = p.pc ∧ field w 4 4 = p.pn ∧ field w 8 8 = 0x10 + pt ∧ field w 8 4 = pt ∧
      field w 16 6 = ra ∧ field w 22 6 = rb ∧ field w 28 4 = fn := by
  obtain ⟨hpn, hpc⟩ := hp
  simp only [encodeFC32, encodeHead, field]
  refine ⟨by omega, by omega, by omega, by omega, by omega, by omega, by omega, by omega⟩

/-- The fields of a word of format FT24 (R87). -/
theorem fields_FT24 {p : Pred} {fn pt ra : Nat} (hp : p.pn < 16 ∧ p.pc < 16) (hf : fn < 4) (ht : pt < 16)
    (ha : ra < 64) :
    let w := encodeFT24 p fn pt ra
    w < 256 ^ 3 ∧ field w 0 4 = p.pc ∧ field w 4 4 = p.pn ∧ field w 8 8 = pt ∧ field w 8 4 = pt ∧
      field w 16 6 = ra ∧ field w 22 2 = fn := by
  obtain ⟨hpn, hpc⟩ := hp
  simp only [encodeFT24, encodeHead, field]
  refine ⟨by omega, by omega, by omega, by omega, by omega, by omega, by omega⟩

/-- The length of a compare's opcode byte (R81). -/
theorem instrLength_compare {pt : Nat} (h : pt < 16) : instrLength (BitVec.ofNat 8 (0x10 + pt)) = some 4 := by
  have : (BitVec.ofNat 8 (0x10 + pt)).toNat = 0x10 + pt := by rw [BitVec.toNat_ofNat]; omega
  unfold instrLength
  rw [this, if_neg (by omega), if_pos (by omega)]

/-- The length of a test's opcode byte (R81). -/
theorem instrLength_test {pt : Nat} (h : pt < 16) : instrLength (BitVec.ofNat 8 pt) = some 3 := by
  have : (BitVec.ofNat 8 pt).toNat = pt := by rw [BitVec.toNat_ofNat]; omega
  unfold instrLength
  rw [this, if_pos (by omega)]

/-- Everything decoding has seen when it gives an instruction (R81, R82). -/
theorem decode_ok {bytes : List Byte} {i : Instr} {n : Nat} (h : decode bytes = .ok i n) :
    ∃ b op rest, bytes = b :: op :: rest ∧ instrLength op = some n ∧ n ≤ bytes.length ∧
      decodeWord (wordOf (bytes.take n)) = some i := by
  unfold decode at h
  split at h
  · rename_i b op rest
    split at h
    · cases h
    · rename_i m hm
      simp only at h
      split at h
      · cases h
      · rename_i hl
        split at h
        · rename_i j hj
          cases h
          exact ⟨b, op, rest, rfl, hm, by omega, hj⟩
        · cases h
  · cases h

/-- An instruction has three to six bytes (R81). -/
theorem instrLength_bounds {op : Byte} {n : Nat} (h : instrLength op = some n) : 3 ≤ n ∧ n ≤ 6 := by
  unfold instrLength at h
  repeat' split at h
  all_goals cases h
  all_goals omega

end Sys2Proof
end

