-- ==== Sys2Proof/Laws/State.lean ====
section
/-! SUPPORT. One lemma per field per update of State, true by rfl; then what the register and predicate accessors do. -/

namespace Sys2Proof.Machine

variable (s : State) (r n : Nat) (v : Word) (w : FpscrWord) (f : PredFlags)

@[simp] theorem setFpscr_regs : (s.setFpscr w).regs = s.regs := rfl
@[simp] theorem setFpscr_preds : (s.setFpscr w).preds = s.preds := rfl
@[simp] theorem setFpscr_pc : (s.setFpscr w).pc = s.pc := rfl
@[simp] theorem setFpscr_fpscr : (s.setFpscr w).fpscr = w := rfl
@[simp] theorem setFpscr_mem : (s.setFpscr w).mem = s.mem := rfl
@[simp] theorem setFpscr_params : (s.setFpscr w).params = s.params := rfl
@[simp] theorem setFpscr_draws : (s.setFpscr w).draws = s.draws := rfl
@[simp] theorem setFpscr_setFpscr (w' : FpscrWord) : (s.setFpscr w).setFpscr w' = s.setFpscr w' := rfl

@[simp] theorem advance_regs : (s.advance n).regs = s.regs := rfl
@[simp] theorem advance_preds : (s.advance n).preds = s.preds := rfl
@[simp] theorem advance_pc : (s.advance n).pc = s.pc + BitVec.ofNat 64 n := rfl
@[simp] theorem advance_fpscr : (s.advance n).fpscr = s.fpscr := rfl
@[simp] theorem advance_mem : (s.advance n).mem = s.mem := rfl
@[simp] theorem advance_params : (s.advance n).params = s.params := rfl
@[simp] theorem advance_draws : (s.advance n).draws = s.draws + 1 := rfl

@[simp] theorem writeP_regs : (s.writeP r f).regs = s.regs := rfl
@[simp] theorem writeP_preds : (s.writeP r f).preds = s.preds.set (predIndex r) f := rfl
@[simp] theorem writeP_pc : (s.writeP r f).pc = s.pc := rfl
@[simp] theorem writeP_fpscr : (s.writeP r f).fpscr = s.fpscr := rfl
@[simp] theorem writeP_mem : (s.writeP r f).mem = s.mem := rfl
@[simp] theorem writeP_params : (s.writeP r f).params = s.params := rfl
@[simp] theorem writeP_draws : (s.writeP r f).draws = s.draws := rfl

@[simp] theorem writeX_preds : (s.writeX r v).preds = s.preds := by unfold State.writeX; split <;> rfl
@[simp] theorem writeX_pc : (s.writeX r v).pc = s.pc := by unfold State.writeX; split <;> rfl
@[simp] theorem writeX_fpscr : (s.writeX r v).fpscr = s.fpscr := by unfold State.writeX; split <;> rfl
@[simp] theorem writeX_mem : (s.writeX r v).mem = s.mem := by unfold State.writeX; split <;> rfl
@[simp] theorem writeX_params : (s.writeX r v).params = s.params := by unfold State.writeX; split <;> rfl
@[simp] theorem writeX_draws : (s.writeX r v).draws = s.draws := by unfold State.writeX; split <;> rfl

/-- Writing FPSCR and writing a register touch different state. -/
theorem setFpscr_writeX : (s.writeX r v).setFpscr w = (s.setFpscr w).writeX r v := by
  unfold State.writeX State.setFpscr; split <;> rfl

@[simp] theorem readX_setFpscr : (s.setFpscr w).readX r = s.readX r := rfl
@[simp] theorem readX_advance : (s.advance n).readX r = s.readX r := rfl
@[simp] theorem readX_writeP (i : Nat) : (s.writeP i f).readX r = s.readX r := rfl
@[simp] theorem readP_setFpscr : (s.setFpscr w).readP r = s.readP r := rfl
@[simp] theorem readP_advance : (s.advance n).readP r = s.readP r := rfl
@[simp] theorem readP_writeX (i : Nat) : (s.writeX i v).readP r = s.readP r := by simp [State.readP]

/-- A register written and read (R13): the written value, but 0 where the register is hard-wired. -/
theorem readX_writeX_same :
    (s.writeX r v).readX r = if s.params.r0Zero = true ∧ regIndex r = 0 then 0 else v := by
  unfold State.readX State.writeX
  split <;> simp_all

/-- Any other register reads as before (R13). -/
theorem readX_writeX_other {q : Nat} (h : regIndex q ≠ regIndex r) : (s.writeX r v).readX q = s.readX q := by
  unfold State.readX State.writeX
  have h' : (regIndex r : Nat) ≠ (regIndex q : Nat) := fun e => h (Fin.ext e.symm)
  split <;> split <;> simp_all

/-- The hard-wired register reads zero in every state (R13). -/
theorem readX_zero (h : s.params.r0Zero = true) : s.readX 0 = 0 := by
  simp [State.readX, h, regIndex]

/-- A predicate register written and read. -/
@[simp] theorem readP_writeP_same : (s.writeP r f).readP r = f := by simp [State.readP]

/-- Any other predicate register reads as before. -/
theorem readP_writeP_other {q : Nat} (h : predIndex q ≠ predIndex r) : (s.writeP r f).readP q = s.readP q := by
  have h' : (predIndex r : Nat) ≠ (predIndex q : Nat) := fun e => h (Fin.ext e.symm)
  simp [State.readP, h']

@[simp] theorem predTrue_setFpscr (p : Pred) : (s.setFpscr w).predTrue p = s.predTrue p := rfl
@[simp] theorem predTrue_advance (p : Pred) : (s.advance n).predTrue p = s.predTrue p := rfl
@[simp] theorem predTrue_writeX (p : Pred) : (s.writeX r v).predTrue p = s.predTrue p := by simp [State.predTrue]

/-- The column of the condition table tells all four flags (R9). -/
theorem testBit_index (f : PredFlags) :
    f.index.val.testBit 0 = f.lt ∧ f.index.val.testBit 1 = f.ltu ∧ f.index.val.testBit 2 = f.eq ∧
      f.index.val.testBit 3 = f.un := by
  obtain ⟨a, b, c, d⟩ := f
  revert a b c d
  decide

/-- An entry of a condition table written out as a function of condition and flags (R9). -/
theorem condHolds_ofFn (ps : Params) (holds : Fin 16 → PredFlags → Bool) (c : Nat) (f : PredFlags)
    (h : ps.condTable = Vector.ofFn fun c => Vector.ofFn fun k : Fin 16 =>
      holds c ⟨k.val.testBit 0, k.val.testBit 1, k.val.testBit 2, k.val.testBit 3⟩) :
    Params.condHolds ps c f = holds (predIndex c) f := by
  obtain ⟨h0, h1, h2, h3⟩ := testBit_index f
  rw [Params.condHolds, h]
  simp only [Fin.getElem_fin, Vector.getElem_ofFn, Fin.eta, h0, h1, h2, h3]

end Sys2Proof.Machine
end

