-- ==== Sys2Proof/Laws/Fpscr.lean ====
section
/-! SUPPORT. FPSCR bit by bit: what each field update and each flag computation leaves in every bit. -/

namespace Sys2Proof.Machine

/-- A field update, bit by bit. -/
theorem getLsbD_setField (v : FpscrWord) (lo n : Nat) (x : BitVec n) (h : lo + n ≤ 32) (i : Nat) :
    (setField v lo x).getLsbD i = if lo ≤ i ∧ i < lo + n then x.getLsbD (i - lo) else v.getLsbD i := by
  unfold setField
  simp only [BitVec.getLsbD_or, BitVec.getLsbD_and, BitVec.getLsbD_not, BitVec.getLsbD_shiftLeft,
    BitVec.getLsbD_setWidth, BitVec.getLsbD_allOnes]
  by_cases h1 : i < lo
  · have : ¬ (lo ≤ i) := by omega
    by_cases h32 : i < 32
    · simp [h1, this, h32]
    · omega
  · have h1' : lo ≤ i := by omega
    by_cases h2 : i < lo + n
    · have h32 : i < 32 := by omega
      have : i - lo < n := by omega
      have h3 : i - lo < 32 := by omega
      simp [h1, h1', h2, h32, this, h3]
    · have : ¬ (i - lo < n) := by omega
      by_cases h32 : i < 32
      · simp [h1, h2, h32, BitVec.getLsbD_of_ge x (i - lo) (by omega)]
        intro; omega
      · simp [h1, h2, h32, BitVec.getLsbD_of_ge x (i - lo) (by omega), BitVec.getLsbD_of_ge v i (by omega)]

theorem getLsbD_enables (v : FpscrWord) (i : Nat) : (fpscrEnables v).getLsbD i = (decide (i < 5) && v.getLsbD (24 + i)) := by
  simp [fpscrEnables]

theorem getLsbD_occurred (v : FpscrWord) (i : Nat) :
    (fpscrOccurred v).getLsbD i = (decide (i < 5) && v.getLsbD (10 + i)) := by
  simp [fpscrOccurred]

theorem getLsbD_types (v : FpscrWord) (i : Nat) : (fpscrTypes v).getLsbD i = (decide (i < 8) && v.getLsbD i) := by
  simp [fpscrTypes]

theorem getLsbD_class (v : FpscrWord) (i : Nat) : (fpscrClass v).getLsbD i = (decide (i < 5) && v.getLsbD (16 + i)) := by
  simp [fpscrClass]

/-- The result status and the type bits after an instruction, bit by bit (R141, R142, R143, R147). -/
theorem getLsbD_recordStatus (cls : BitVec 5) (r : FpResult) (v : FpscrWord) (i : Nat) :
    (recordStatus cls r v).getLsbD i =
      if i < 8 then v.getLsbD i || r.types.getLsbD i
      else if i < 16 then v.getLsbD i
      else if i < 21 then cls.getLsbD (i - 16)
      else if i = 21 then r.away
      else if i = 22 then r.inexact || (r.kinds.getLsbD 1 && !v.getLsbD 25)
      else v.getLsbD i := by
  unfold recordStatus
  simp only [getLsbD_setField _ 0 8 _ (by decide), getLsbD_setField _ 16 5 _ (by decide),
    getLsbD_setField _ 21 1 _ (by decide), getLsbD_setField _ 22 1 _ (by decide), BitVec.getLsbD_or, getLsbD_types]
  by_cases h0 : i < 8
  · have : ¬ (16 ≤ i) := by omega
    have : ¬ (21 ≤ i) := by omega
    have : ¬ (22 ≤ i) := by omega
    simp [*]
  · by_cases h1 : i < 16
    · have : ¬ (16 ≤ i) := by omega
      have : ¬ (21 ≤ i) := by omega
      have : ¬ (22 ≤ i) := by omega
      simp [*]
    · by_cases h2 : i < 21
      · have : 16 ≤ i := by omega
        have : ¬ (21 ≤ i) := by omega
        have : ¬ (22 ≤ i) := by omega
        simp [*]
      · have : ¬ (i < 16 + 5) := by omega
        by_cases h3 : i = 21
        · subst h3; simp
        · by_cases h4 : i = 22
          · subst h4; simp
          · have : ¬ (i < 21 + 1) := by omega
            have : ¬ (i < 22 + 1) := by omega
            simp [*]

/-- What `Signal(k)` records, bit by bit (R146). -/
theorem getLsbD_recordKinds (pol : GxPolicy) (k : Kinds) (v : FpscrWord) (i : Nat) :
    (recordKinds pol k v).getLsbD i =
      if 10 ≤ i ∧ i < 15 then v.getLsbD i || k.getLsbD (i - 10)
      else if i = 8 then v.getLsbD i || decide (k ≠ 0)
      else if i = 9 then v.getLsbD i || decide (pol = .sticky ∧ enabledOf k v ≠ 0)
      else v.getLsbD i := by
  unfold recordKinds
  by_cases hk : k = 0
  · subst hk
    simp [enabledOf]
  · rw [if_neg hk]
    have base : ∀ i, (setField (setField v 10 (fpscrOccurred v ||| k)) 8 1#1).getLsbD i =
        if 10 ≤ i ∧ i < 15 then v.getLsbD i || k.getLsbD (i - 10)
        else if i = 8 then true else v.getLsbD i := by
      intro i
      simp only [getLsbD_setField _ 8 1 _ (by decide), getLsbD_setField _ 10 5 _ (by decide), BitVec.getLsbD_or,
        getLsbD_occurred]
      by_cases h8 : i = 8
      · rw [if_pos (by omega), if_neg (by omega), if_pos h8, h8]; rfl
      · rw [if_neg (by omega)]
        by_cases h : 10 ≤ i ∧ i < 15
        · have h10 : 10 + (i - 10) = i := by omega
          rw [if_pos (by omega), if_pos h, h10, decide_eq_true (by omega : i - 10 < 5), Bool.true_and]
        · rw [if_neg (by omega), if_neg h, if_neg h8]
    have gx : (if pol = .sticky ∧ enabledOf k v ≠ 0 then
        setField (setField (setField v 10 (fpscrOccurred v ||| k)) 8 1#1) 9 1#1
        else setField (setField v 10 (fpscrOccurred v ||| k)) 8 1#1).getLsbD i =
        if i = 9 then v.getLsbD i || decide (pol = .sticky ∧ enabledOf k v ≠ 0)
        else (setField (setField v 10 (fpscrOccurred v ||| k)) 8 1#1).getLsbD i := by
      by_cases h9 : i = 9
      · rw [if_pos h9]
        by_cases h : pol = .sticky ∧ enabledOf k v ≠ 0
        · rw [if_pos h, getLsbD_setField _ 9 1 _ (by decide), if_pos (by omega), decide_eq_true h, Bool.or_true, h9]
          rfl
        · rw [if_neg h, base, decide_eq_false h, Bool.or_false, h9]
          rfl
      · rw [if_neg h9]
        split
        · rw [getLsbD_setField _ 9 1 _ (by decide), if_neg (by omega)]
        · rfl
    refine gx.trans ?_
    rw [base, decide_eq_true (p := k ≠ 0) hk, Bool.or_true]
    by_cases h9 : i = 9
    · rw [if_pos h9, if_neg (by omega : ¬(10 ≤ i ∧ i < 15)), if_neg (by omega : ¬ i = 8)]
      exact (if_pos h9).symm
    · rw [if_neg h9]
      exact (if_congr Iff.rfl rfl (if_congr Iff.rfl rfl (if_neg h9))).symm

/-- What FCX leaves, bit by bit (R245). -/
theorem getLsbD_clearKinds (m : BitVec 6) (v : FpscrWord) (i : Nat) :
    (clearKinds m v).getLsbD i =
      if 10 ≤ i ∧ i < 15 then v.getLsbD i && !m.getLsbD (i - 10)
      else if i = 8 then v.getLsbD i && !m.getLsbD 5
      else if 1 ≤ i ∧ i < 6 then v.getLsbD i && !m.getLsbD 0
      else v.getLsbD i := by
  have base : (setField v 10 (fpscrOccurred v &&& ~~~maskKinds m)).getLsbD i =
      if 10 ≤ i ∧ i < 15 then v.getLsbD i && !m.getLsbD (i - 10) else v.getLsbD i := by
    simp only [getLsbD_setField _ 10 5 _ (by decide), BitVec.getLsbD_and, BitVec.getLsbD_not, getLsbD_occurred]
    by_cases h : 10 ≤ i ∧ i < 15
    · have h10 : 10 + (i - 10) = i := by omega
      rw [if_pos (by omega), if_pos h, h10]
      simp [maskKinds, (by omega : i - 10 < 5)]
    · rw [if_neg (by omega), if_neg h]
  have clear : ∀ (c : Bool) (w : FpscrWord) (lo n : Nat), lo + n ≤ 32 →
      (if c then setField w lo (BitVec.ofNat n 0) else w).getLsbD i =
        if lo ≤ i ∧ i < lo + n then w.getLsbD i && !c else w.getLsbD i := by
    intro c w lo n h
    cases c
    · simp
    · simp [getLsbD_setField _ _ _ _ h]
  unfold clearKinds
  have c5 := clear (m.getLsbD 5)
    (if m.getLsbD 0 = true then setField (setField v 10 (fpscrOccurred v &&& ~~~maskKinds m)) 1 0#5
      else setField v 10 (fpscrOccurred v &&& ~~~maskKinds m)) 8 1 (by decide)
  have c0 := clear (m.getLsbD 0) (setField v 10 (fpscrOccurred v &&& ~~~maskKinds m)) 1 5 (by decide)
  refine c5.trans ?_
  rw [c0, base]
  by_cases ha : 10 ≤ i ∧ i < 15
  · rw [if_neg (by omega), if_neg (by omega), if_pos ha, if_pos ha]
  · rw [if_neg ha, if_neg ha]
    by_cases hb : i = 8
    · rw [if_pos (by omega), if_neg (by omega), if_pos hb]
    · rw [if_neg (by omega), if_neg hb]

/-- FPSCR as FSTAT returns it, bit by bit (R243). -/
theorem getLsbD_fpscrRead (ps : Params) (swt : BitVec 1) (v : FpscrWord) (i : Nat) :
    (fpscrRead ps swt v).getLsbD i =
      if i = 9 then fpscrGX ps.gxPolicy v
      else if i = 15 then swt.getLsbD 0
      else if i = 23 then ps.nsValue
      else v.getLsbD i := by
  unfold fpscrRead
  simp only [getLsbD_setField _ 23 1 _ (by decide), getLsbD_setField _ 15 1 _ (by decide),
    getLsbD_setField _ 9 1 _ (by decide)]
  by_cases h9 : i = 9
  · subst h9; simp
  · by_cases h15 : i = 15
    · subst h15; simp
    · by_cases h23 : i = 23
      · subst h23; simp
      · have : ¬ (9 ≤ i ∧ i < 9 + 1) := by omega
        have : ¬ (15 ≤ i ∧ i < 15 + 1) := by omega
        have : ¬ (23 ≤ i ∧ i < 23 + 1) := by omega
        simp [*]

/-- The status update leaves the enable bits. -/
@[simp] theorem fpscrEnables_recordStatus (cls : BitVec 5) (r : FpResult) (v : FpscrWord) :
    fpscrEnables (recordStatus cls r v) = fpscrEnables v := by
  apply BitVec.eq_of_getLsbD_eq
  intro i hi
  have h1 : ¬ (24 + i < 8) := by omega
  have h2 : ¬ (24 + i < 16) := by omega
  have h3 : ¬ (24 + i < 21) := by omega
  have h4 : ¬ (24 + i = 21) := by omega
  have h5 : ¬ (24 + i = 22) := by omega
  simp only [getLsbD_enables, getLsbD_recordStatus, h1, h2, h3, h4, h5, if_false]

/-- Recording kinds leaves the enable bits. -/
@[simp] theorem fpscrEnables_recordKinds (pol : GxPolicy) (k : Kinds) (v : FpscrWord) :
    fpscrEnables (recordKinds pol k v) = fpscrEnables v := by
  apply BitVec.eq_of_getLsbD_eq
  intro i hi
  have h1 : ¬ (10 ≤ 24 + i ∧ 24 + i < 15) := by omega
  have h2 : ¬ (24 + i = 8) := by omega
  have h3 : ¬ (24 + i = 9) := by omega
  simp only [getLsbD_enables, getLsbD_recordKinds, h1, h2, h3, if_false]

@[simp] theorem enabledOf_recordStatus (k : Kinds) (cls : BitVec 5) (r : FpResult) (v : FpscrWord) :
    enabledOf k (recordStatus cls r v) = enabledOf k v := by simp [enabledOf]

end Sys2Proof.Machine
end

