-- ==== Sys2Proof/Laws/Exec.lean ====
section
/-! SUPPORT. What the step skeleton, signalling and the shared tail can do, each said once, and what that leaves for any
instruction: one lemma per part of the state. -/

namespace Sys2Proof.Machine

/-- The skeleton under a true predicate (R15). -/
theorem predicated_true {p : Pred} {len : Nat} {body : State → Result} {s : State} (h : s.predTrue p = true) :
    predicated p len body s = advanceNext len (body s) := if_pos h

/-- The skeleton under a false predicate (R15). -/
theorem predicated_false {p : Pred} {len : Nat} {body : State → Result} {s : State} (h : s.predTrue p = false) :
    predicated p len body s = .next (s.advance len) := if_neg (by simp [h])

/-- A planned instruction where the family is implemented. -/
theorem planned_true {m : String} {p : Pred} {body : State → Result} {s : State}
    (h : s.params.fmacImplemented = true) : planned m p body s = predicated p 6 body s := if_pos h

/-- A planned instruction where it is not (R101). -/
theorem planned_false {m : String} {p : Pred} {body : State → Result} {s : State}
    (h : s.params.fmacImplemented = false) : planned m p body s = .refused (.plannedNotImplemented m) :=
  if_neg (by simp [h])

/-- What follows a body, when there is a next state. -/
theorem advanceNext_eq_next {len : Nat} {r : Result} {t : State} :
    advanceNext len r = .next t ↔ ∃ u, r = .next u ∧ t = u.advance len := by
  cases r <;> simp [advanceNext, eq_comm]

/-- What follows a body that faults. -/
theorem advanceNext_eq_fault {len : Nat} {r : Result} {e : Fault} :
    advanceNext len r = .fault e ↔ r = .fault e := by
  cases r <;> simp [advanceNext]

/-- Everything the skeleton can do when it gives a next state. -/
theorem predicated_eq_next {p : Pred} {len : Nat} {body : State → Result} {s t : State} :
    predicated p len body s = .next t ↔
      (s.predTrue p = true ∧ ∃ u, body s = .next u ∧ t = u.advance len) ∨
      (s.predTrue p = false ∧ t = s.advance len) := by
  cases h : s.predTrue p
  · simp [predicated_false h, eq_comm]
  · simp [predicated_true h, advanceNext_eq_next]

/-- The skeleton faults only as its body does. -/
theorem predicated_eq_fault {p : Pred} {len : Nat} {body : State → Result} {s : State} {e : Fault} :
    predicated p len body s = .fault e ↔ s.predTrue p = true ∧ body s = .fault e := by
  cases h : s.predTrue p
  · simp [predicated_false h]
  · simp [predicated_true h, advanceNext_eq_fault]

/-- A planned instruction gives a next state as its skeleton does. -/
theorem planned_eq_next {m : String} {p : Pred} {body : State → Result} {s t : State} :
    planned m p body s = .next t ↔ s.params.fmacImplemented = true ∧ predicated p 6 body s = .next t := by
  cases h : s.params.fmacImplemented
  · simp [planned_false h]
  · simp [planned_true h]

/-- A planned instruction faults as its skeleton does. -/
theorem planned_eq_fault {m : String} {p : Pred} {body : State → Result} {s : State} {e : Fault} :
    planned m p body s = .fault e ↔ s.params.fmacImplemented = true ∧ predicated p 6 body s = .fault e := by
  cases h : s.params.fmacImplemented
  · simp [planned_false h]
  · simp [planned_true h]

/-- Signalling kinds none of which is enabled (R146). -/
theorem signal_disabled {k : Kinds} {s : State} (h : enabledOf k s.fpscr = 0) :
    signal k s = .next (s.setFpscr (recordKinds s.params.gxPolicy k s.fpscr)) := if_pos h

/-- Signalling kinds of which some are enabled (R146, R286). -/
theorem signal_enabled {k : Kinds} {s : State} (h : enabledOf k s.fpscr ≠ 0) :
    signal k s = .fault (.fpException (enabledOf k s.fpscr) (s.setFpscr (recordKinds s.params.gxPolicy k s.fpscr))) :=
  if_neg h

/-- FPSCR after an instruction with this result and these class bits. -/
def finishedFpscr (pol : GxPolicy) (cls : BitVec 5) (r : FpResult) (v : FpscrWord) : FpscrWord :=
  recordKinds pol r.kinds (recordStatus cls r v)

/-- The shared tail when no kind that occurred is enabled (R147). -/
theorem finishWith_disabled {rt : Nat} {word : Word} {cls : BitVec 5} {r : FpResult} {s : State}
    (h : enabledOf r.kinds s.fpscr = 0) :
    finishWith rt word cls r s =
      .next ((s.setFpscr (finishedFpscr s.params.gxPolicy cls r s.fpscr)).writeX rt word) := by
  unfold finishWith
  simp only [h, if_true]
  rw [signal_disabled (by simpa using h)]
  simp [setFpscr_writeX, finishedFpscr]

/-- The shared tail when some kind that occurred is enabled (R147, R286). -/
theorem finishWith_enabled {rt : Nat} {word : Word} {cls : BitVec 5} {r : FpResult} {s : State}
    (h : enabledOf r.kinds s.fpscr ≠ 0) :
    finishWith rt word cls r s =
      .fault (.fpException (enabledOf r.kinds s.fpscr)
        ((s.setFpscr (finishedFpscr s.params.gxPolicy cls r s.fpscr)).writeX rt (Config.freeTarget s.draws))) := by
  unfold finishWith
  simp only [h, if_false]
  rw [signal_enabled (by simpa using h)]
  simp [setFpscr_writeX, finishedFpscr]

/-- FPSCR after an instruction with a result, bit by bit (R141 to R147). -/
theorem getLsbD_finishedFpscr (pol : GxPolicy) (cls : BitVec 5) (r : FpResult) (v : FpscrWord) (i : Nat) :
    (finishedFpscr pol cls r v).getLsbD i =
      if i < 8 then v.getLsbD i || r.types.getLsbD i
      else if i = 8 then v.getLsbD i || decide (r.kinds ≠ 0)
      else if i = 9 then v.getLsbD i || decide (pol = .sticky ∧ enabledOf r.kinds v ≠ 0)
      else if i < 15 then v.getLsbD i || r.kinds.getLsbD (i - 10)
      else if i = 15 then v.getLsbD i
      else if i < 21 then cls.getLsbD (i - 16)
      else if i = 21 then r.away
      else if i = 22 then r.inexact || (r.kinds.getLsbD 1 && !v.getLsbD 25)
      else v.getLsbD i := by
  unfold finishedFpscr
  rw [getLsbD_recordKinds, getLsbD_recordStatus, enabledOf_recordStatus]
  by_cases h1 : i < 8
  · rw [if_neg (by omega), if_neg (by omega), if_neg (by omega), if_pos h1, if_pos h1]
  · by_cases h2 : i = 8
    · rw [if_neg (by omega), if_pos h2, if_neg h1, if_pos (by omega : i < 16), if_neg h1, if_pos h2]
    · by_cases h3 : i = 9
      · rw [if_neg (by omega), if_neg h2, if_pos h3, if_neg h1, if_pos (by omega : i < 16), if_neg h1, if_neg h2,
          if_pos h3]
      · by_cases h4 : i < 15
        · rw [if_pos (by omega), if_neg h1, if_pos (by omega : i < 16), if_neg h1, if_neg h2, if_neg h3, if_pos h4]
        · rw [if_neg (by omega), if_neg h2, if_neg h3, if_neg h1, if_neg h1, if_neg h2, if_neg h3, if_neg h4]
          by_cases h5 : i = 15
          · rw [if_pos (by omega), if_pos h5]
          · rw [if_neg (by omega), if_neg h5]

/-- What every floating-point result keeps: no type bit 5 or 6, and a type bit only with kind 0 (R40, R133). -/
def FpResult.Ok (r : FpResult) : Prop :=
  r.types.getLsbD 5 = false ∧ r.types.getLsbD 6 = false ∧ (r.types ≠ 0 → r.kinds.getLsbD 0 = true)

theorem ok_of_no_types {r : FpResult} (h : r.types = 0) : r.Ok := by simp [FpResult.Ok, h]

theorem ok_exact (b : Word) : (FpResult.exact b).Ok := ok_of_no_types rfl

theorem ok_rounded (r : Rounded) : (FpResult.rounded r).Ok := ok_of_no_types rfl

theorem ok_invalid {t : Nat} (b : Word) (h : t = 0 ∨ t = 1 ∨ t = 2 ∨ t = 3 ∨ t = 4 ∨ t = 7) :
    (FpResult.invalid t b).Ok := by
  rcases h with rfl | rfl | rfl | rfl | rfl | rfl <;> simp [FpResult.Ok, FpResult.invalid]

theorem ok_finishSum (f : Fmt) (t : Tininess) (e : Int) (den : Nat) (z : Bool) : (finishSum f t e den z).Ok := by
  unfold finishSum
  split
  · exact ok_exact _
  · exact ok_rounded _

theorem ok_addCase (f : Fmt) (t : Tininess) (nan a b : Word) : (addCase f t nan a b).Ok := by
  unfold addCase
  split
  · exact ok_invalid _ (by simp)
  · split
    · exact ok_exact _
    · split
      · exact ok_exact _
      · exact ok_finishSum _ _ _ _ _

theorem ok_mulCase (f : Fmt) (t : Tininess) (nan a b : Word) : (mulCase f t nan a b).Ok := by
  unfold mulCase
  simp only
  split
  · exact ok_invalid _ (by simp)
  · split
    · exact ok_exact _
    · split
      · exact ok_exact _
      · exact ok_rounded _

theorem ok_divCase (f : Fmt) (t : Tininess) (nan a b : Word) : (divCase f t nan a b).Ok := by
  unfold divCase
  simp only
  split
  · exact ok_invalid _ (by simp)
  · split
    · exact ok_invalid _ (by simp)
    · split
      · exact ok_exact _
      · split
        · exact ok_exact _
        · split
          · exact ok_of_no_types rfl
          · split
            · exact ok_exact _
            · exact ok_rounded _

/-- Every result of `FpArith`. -/
theorem ok_fpArith (f : Fmt) (t : Tininess) (op : FpOp) (nan a b : Word) : (fpArith f t op nan a b).Ok := by
  unfold fpArith
  split
  · exact ok_invalid _ (by simp)
  · split
    · exact ok_exact _
    · cases op
      · exact ok_addCase _ _ _ _ _
      · exact ok_addCase _ _ _ _ _
      · exact ok_mulCase _ _ _ _ _
      · exact ok_divCase _ _ _ _ _

theorem ok_fusedMac (f : Fmt) (t : Tininess) (nan a b c : Word) : (fusedMac f t nan a b c).Ok := by
  unfold fusedMac
  simp only
  split
  · exact ok_invalid _ (by simp)
  · split
    · exact ok_exact _
    · split
      · exact ok_invalid _ (by simp)
      · split
        · exact ok_invalid _ (by simp)
        · split
          · exact ok_exact _
          · split
            · exact ok_exact _
            · exact ok_finishSum _ _ _ _ _

theorem ok_unfusedMac (f : Fmt) (t : Tininess) (np nan a b c : Word) : (unfusedMac f t np nan a b c).Ok := by
  obtain ⟨h5, h6, h0⟩ := ok_fpArith f t .mul np a b
  obtain ⟨g5, g6, g0⟩ := ok_fpArith f t .add nan (fpArith f t .mul np a b).bits c
  refine ⟨?_, ?_, ?_⟩
  · simp only [unfusedMac, BitVec.getLsbD_or, h5, g5, Bool.or_false]
  · simp only [unfusedMac, BitVec.getLsbD_or, h6, g6, Bool.or_false]
  · intro h
    simp only [unfusedMac, BitVec.getLsbD_or, Bool.or_eq_true]
    by_cases hq : (fpArith f t .mul np a b).types = 0
    · right
      apply g0
      intro hr
      apply h
      simp only [unfusedMac, hq, hr]
      rfl
    · exact .inl (h0 hq)

theorem ok_negateResult {f : Fmt} {r : FpResult} (h : r.Ok) : (negateResult f r).Ok := by
  unfold negateResult
  split
  · exact h
  · exact h

/-- Every result of `FMacOp`. -/
theorem ok_fMacOp (f : Fmt) (t : Tininess) (fused subc negr : Bool) (np nan a b c : Word) :
    (fMacOp f t fused subc negr np nan a b c).Ok := by
  have base : ∀ c', (if fused = true then fusedMac f t nan a b c' else unfusedMac f t np nan a b c').Ok := by
    intro c'
    cases fused
    · exact ok_unfusedMac f t np nan a b c'
    · exact ok_fusedMac f t nan a b c'
  cases negr
  · exact base _
  · exact ok_negateResult (base _)

/-- Every result of a conversion to an integer. -/
theorem ok_fToI (f : Fmt) (dir : RoundDir) (free a : Word) : (fToI f dir free a).Ok := by
  unfold fToI
  simp only
  split
  · exact ok_invalid _ (by simp)
  · exact ok_of_no_types rfl

/-- Every result of a conversion from an integer. -/
theorem ok_iToF (f : Fmt) (t : Tininess) (a : Word) : (iToF f t a).Ok := by
  unfold iToF
  simp only
  split
  · exact ok_exact _
  · exact ok_of_no_types rfl

/-- What the body of an instruction can do to the state it gives next: `i` the instruction, `u` the state before pc
advances. -/
inductive Ran (s : State) : Instr → State → Prop where
  | register {i : Instr} {rt : Nat} {v : Word} (hs : i.recordsStatus = false) (hp : i.predTarget = none)
    (ht : i.target = some rt) : Ran s i (s.writeX rt v)
  | predicate {i : Instr} {pt : Nat} {f : PredFlags} (hs : i.recordsStatus = false) (hp : i.predTarget = some pt)
    (ht : i.target = none) : Ran s i (s.writeP pt f)
  | status {i : Instr} {rt : Nat} {v : Word} {cls : BitVec 5} {r : FpResult} (hs : i.recordsStatus = true)
    (hp : i.predTarget = none) (ht : i.target = some rt) (hok : r.Ok) (hen : enabledOf r.kinds s.fpscr = 0) :
    Ran s i ((s.setFpscr (finishedFpscr s.params.gxPolicy cls r s.fpscr)).writeX rt v)
  | frm {p : Pred} {ra imm : Nat} :
    Ran s (.frm p ra imm) (s.setFpscr (setField s.fpscr 29 ((s.orOperand ra imm).setWidth 3)))
  | ftx {p : Pred} {ra imm : Nat} (hen : enabledOf (maskKinds (s.maskOperand ra imm)) s.fpscr = 0) :
    Ran s (.ftx p ra imm)
      (s.setFpscr (recordKinds s.params.gxPolicy (maskKinds (s.maskOperand ra imm)) s.fpscr))
  | fcx {p : Pred} {ra imm : Nat} :
    Ran s (.fcx p ra imm) (s.setFpscr (clearKinds (s.maskOperand ra imm) s.fpscr))
  | fex {p : Pred} {ra imm : Nat} :
    Ran s (.fex p ra imm)
      (s.setFpscr (setField s.fpscr 24 (fpscrEnables s.fpscr ||| maskKinds (s.maskOperand ra imm))))
  | fdx {p : Pred} {ra imm : Nat} :
    Ran s (.fdx p ra imm)
      (s.setFpscr (setField s.fpscr 24 (fpscrEnables s.fpscr &&& ~~~maskKinds (s.maskOperand ra imm))))

/-- The shared tail gives a next state as `Ran.status` says. -/
theorem ran_finishWith {s u : State} {i : Instr} {rt : Nat} {word : Word} {cls : BitVec 5} {r : FpResult}
    (hs : i.recordsStatus = true) (hp : i.predTarget = none) (ht : i.target = some rt) (hok : r.Ok)
    (h : finishWith rt word cls r s = .next u) : Ran s i u := by
  by_cases hen : enabledOf r.kinds s.fpscr = 0
  · rw [finishWith_disabled hen] at h
    cases h
    exact .status hs hp ht hok hen
  · rw [finishWith_enabled hen] at h
    cases h

/-- Everything an instruction can do when it gives a next state: its predicate is false and only pc advances, or its
predicate is true and its body ran. -/
theorem exec_next {i : Instr} {s t : State} (h : exec i s = .next t) :
    (s.predTrue i.pred = false ∧ t = s.advance i.length) ∨
    (s.predTrue i.pred = true ∧ ∃ u, Ran s i u ∧ t = u.advance i.length) := by
  have key : ∀ {p : Pred} {len : Nat} {body : State → Result}, predicated p len body s = .next t →
      i.pred = p → i.length = len → (∀ u, body s = .next u → Ran s i u) →
      (s.predTrue i.pred = false ∧ t = s.advance i.length) ∨
      (s.predTrue i.pred = true ∧ ∃ u, Ran s i u ∧ t = u.advance i.length) := by
    rintro p len body h rfl rfl hb
    rcases predicated_eq_next.mp h with ⟨hp, u, hu, rfl⟩ | ⟨hp, rfl⟩
    · exact .inr ⟨hp, u, hb u hu, rfl⟩
    · exact .inl ⟨hp, rfl⟩
  cases i
  case fmov => exact key h rfl rfl fun u hu => by cases hu; exact .register rfl rfl rfl
  case fmovs => exact key h rfl rfl fun u hu => by cases hu; exact .register rfl rfl rfl
  case fneg => exact key h rfl rfl fun u hu => by cases hu; exact .register rfl rfl rfl
  case fnegs => exact key h rfl rfl fun u hu => by cases hu; exact .register rfl rfl rfl
  case fabs => exact key h rfl rfl fun u hu => by cases hu; exact .register rfl rfl rfl
  case fabss => exact key h rfl rfl fun u hu => by cases hu; exact .register rfl rfl rfl
  case fsign => exact key h rfl rfl fun u hu => by cases hu; exact .register rfl rfl rfl
  case fsigns => exact key h rfl rfl fun u hu => by cases hu; exact .register rfl rfl rfl
  case fman => exact key h rfl rfl fun u hu => by cases hu; exact .register rfl rfl rfl
  case fmans => exact key h rfl rfl fun u hu => by cases hu; exact .register rfl rfl rfl
  case fstat => exact key h rfl rfl fun u hu => by cases hu; exact .register rfl rfl rfl
  case ftoi => exact key h rfl rfl fun u hu => ran_finishWith rfl rfl rfl (ok_fToI _ _ _ _) hu
  case ftois => exact key h rfl rfl fun u hu => ran_finishWith rfl rfl rfl (ok_fToI _ _ _ _) hu
  case itof => exact key h rfl rfl fun u hu => ran_finishWith rfl rfl rfl (ok_iToF _ _ _) hu
  case itofs => exact key h rfl rfl fun u hu => ran_finishWith rfl rfl rfl (ok_iToF _ _ _) hu
  case fadd => exact key h rfl rfl fun u hu => ran_finishWith rfl rfl rfl (ok_fpArith _ _ _ _ _ _) hu
  case fsub => exact key h rfl rfl fun u hu => ran_finishWith rfl rfl rfl (ok_fpArith _ _ _ _ _ _) hu
  case fmul => exact key h rfl rfl fun u hu => ran_finishWith rfl rfl rfl (ok_fpArith _ _ _ _ _ _) hu
  case fdiv => exact key h rfl rfl fun u hu => ran_finishWith rfl rfl rfl (ok_fpArith _ _ _ _ _ _) hu
  case fadds => exact key h rfl rfl fun u hu => ran_finishWith rfl rfl rfl (ok_fpArith _ _ _ _ _ _) hu
  case fsubs => exact key h rfl rfl fun u hu => ran_finishWith rfl rfl rfl (ok_fpArith _ _ _ _ _ _) hu
  case fmuls => exact key h rfl rfl fun u hu => ran_finishWith rfl rfl rfl (ok_fpArith _ _ _ _ _ _) hu
  case fdivs => exact key h rfl rfl fun u hu => ran_finishWith rfl rfl rfl (ok_fpArith _ _ _ _ _ _) hu
  case fcmp => exact key h rfl rfl fun u hu => by cases hu; exact .predicate rfl rfl rfl
  case fcmps => exact key h rfl rfl fun u hu => by cases hu; exact .predicate rfl rfl rfl
  case ftst => exact key h rfl rfl fun u hu => by cases hu; exact .predicate rfl rfl rfl
  case ftsts => exact key h rfl rfl fun u hu => by cases hu; exact .predicate rfl rfl rfl
  case frm => exact key h rfl rfl fun u hu => by cases hu; exact .frm
  case fcx => exact key h rfl rfl fun u hu => by cases hu; exact .fcx
  case fex => exact key h rfl rfl fun u hu => by cases hu; exact .fex
  case fdx => exact key h rfl rfl fun u hu => by cases hu; exact .fdx
  case ftx p ra imm =>
    refine key h rfl rfl fun u hu => ?_
    by_cases hen : enabledOf (maskKinds (s.maskOperand ra imm)) s.fpscr = 0
    · rw [ftxBody, signal_disabled hen] at hu
      cases hu
      exact .ftx hen
    · rw [ftxBody, signal_enabled hen] at hu
      cases hu
  case fmacS =>
    exact key (planned_eq_next.mp h).2 rfl rfl fun u hu => ran_finishWith rfl rfl rfl (ok_fMacOp _ _ _ _ _ _ _ _ _ _) hu
  case fmasS =>
    exact key (planned_eq_next.mp h).2 rfl rfl fun u hu => ran_finishWith rfl rfl rfl (ok_fMacOp _ _ _ _ _ _ _ _ _ _) hu
  case fnmacS =>
    exact key (planned_eq_next.mp h).2 rfl rfl fun u hu => ran_finishWith rfl rfl rfl (ok_fMacOp _ _ _ _ _ _ _ _ _ _) hu
  case fnmasS =>
    exact key (planned_eq_next.mp h).2 rfl rfl fun u hu => ran_finishWith rfl rfl rfl (ok_fMacOp _ _ _ _ _ _ _ _ _ _) hu
  case fmac =>
    exact key (planned_eq_next.mp h).2 rfl rfl fun u hu => ran_finishWith rfl rfl rfl (ok_fMacOp _ _ _ _ _ _ _ _ _ _) hu
  case fmas =>
    exact key (planned_eq_next.mp h).2 rfl rfl fun u hu => ran_finishWith rfl rfl rfl (ok_fMacOp _ _ _ _ _ _ _ _ _ _) hu
  case fnmac =>
    exact key (planned_eq_next.mp h).2 rfl rfl fun u hu => ran_finishWith rfl rfl rfl (ok_fMacOp _ _ _ _ _ _ _ _ _ _) hu
  case fnmas =>
    exact key (planned_eq_next.mp h).2 rfl rfl fun u hu => ran_finishWith rfl rfl rfl (ok_fMacOp _ _ _ _ _ _ _ _ _ _) hu

/-- What the body of an instruction can do when it delivers an exception of the kinds `en` in the state `d`. -/
inductive Faulted (s : State) : Instr → Kinds → State → Prop where
  | status {i : Instr} {rt : Nat} {v : Word} {cls : BitVec 5} {r : FpResult} (hs : i.recordsStatus = true)
    (hp : i.predTarget = none) (ht : i.target = some rt) (hok : r.Ok) (hen : enabledOf r.kinds s.fpscr ≠ 0) :
    Faulted s i (enabledOf r.kinds s.fpscr)
      ((s.setFpscr (finishedFpscr s.params.gxPolicy cls r s.fpscr)).writeX rt v)
  | ftx {p : Pred} {ra imm : Nat} (hen : enabledOf (maskKinds (s.maskOperand ra imm)) s.fpscr ≠ 0) :
    Faulted s (.ftx p ra imm) (enabledOf (maskKinds (s.maskOperand ra imm)) s.fpscr)
      (s.setFpscr (recordKinds s.params.gxPolicy (maskKinds (s.maskOperand ra imm)) s.fpscr))

/-- The shared tail faults as `Faulted.status` says. -/
theorem faulted_finishWith {s : State} {e : Fault} {i : Instr} {rt : Nat} {word : Word} {cls : BitVec 5} {r : FpResult}
    (hs : i.recordsStatus = true) (hp : i.predTarget = none) (ht : i.target = some rt) (hok : r.Ok)
    (h : finishWith rt word cls r s = .fault e) : ∃ en d, e = .fpException en d ∧ Faulted s i en d := by
  by_cases hen : enabledOf r.kinds s.fpscr = 0
  · rw [finishWith_disabled hen] at h
    cases h
  · rw [finishWith_enabled hen] at h
    cases h
    exact ⟨_, _, rfl, .status hs hp ht hok hen⟩

/-- Everything an instruction can do when it faults (R286, R287). -/
theorem exec_fault {i : Instr} {s : State} {e : Fault} (h : exec i s = .fault e) :
    s.predTrue i.pred = true ∧ ∃ en d, e = .fpException en d ∧ Faulted s i en d := by
  have key : ∀ {p : Pred} {len : Nat} {body : State → Result}, predicated p len body s = .fault e →
      i.pred = p → (body s = .fault e → ∃ en d, e = .fpException en d ∧ Faulted s i en d) →
      s.predTrue i.pred = true ∧ ∃ en d, e = .fpException en d ∧ Faulted s i en d := by
    rintro p len body h rfl hb
    obtain ⟨hp, hf⟩ := predicated_eq_fault.mp h
    exact ⟨hp, hb hf⟩
  cases i
  case fmov => exact key h rfl fun hu => by cases hu
  case fmovs => exact key h rfl fun hu => by cases hu
  case fneg => exact key h rfl fun hu => by cases hu
  case fnegs => exact key h rfl fun hu => by cases hu
  case fabs => exact key h rfl fun hu => by cases hu
  case fabss => exact key h rfl fun hu => by cases hu
  case fsign => exact key h rfl fun hu => by cases hu
  case fsigns => exact key h rfl fun hu => by cases hu
  case fman => exact key h rfl fun hu => by cases hu
  case fmans => exact key h rfl fun hu => by cases hu
  case fstat => exact key h rfl fun hu => by cases hu
  case fcmp => exact key h rfl fun hu => by cases hu
  case fcmps => exact key h rfl fun hu => by cases hu
  case ftst => exact key h rfl fun hu => by cases hu
  case ftsts => exact key h rfl fun hu => by cases hu
  case frm => exact key h rfl fun hu => by cases hu
  case fcx => exact key h rfl fun hu => by cases hu
  case fex => exact key h rfl fun hu => by cases hu
  case fdx => exact key h rfl fun hu => by cases hu
  case ftoi => exact key h rfl fun hu => faulted_finishWith rfl rfl rfl (ok_fToI _ _ _ _) hu
  case ftois => exact key h rfl fun hu => faulted_finishWith rfl rfl rfl (ok_fToI _ _ _ _) hu
  case itof => exact key h rfl fun hu => faulted_finishWith rfl rfl rfl (ok_iToF _ _ _) hu
  case itofs => exact key h rfl fun hu => faulted_finishWith rfl rfl rfl (ok_iToF _ _ _) hu
  case fadd => exact key h rfl fun hu => faulted_finishWith rfl rfl rfl (ok_fpArith _ _ _ _ _ _) hu
  case fsub => exact key h rfl fun hu => faulted_finishWith rfl rfl rfl (ok_fpArith _ _ _ _ _ _) hu
  case fmul => exact key h rfl fun hu => faulted_finishWith rfl rfl rfl (ok_fpArith _ _ _ _ _ _) hu
  case fdiv => exact key h rfl fun hu => faulted_finishWith rfl rfl rfl (ok_fpArith _ _ _ _ _ _) hu
  case fadds => exact key h rfl fun hu => faulted_finishWith rfl rfl rfl (ok_fpArith _ _ _ _ _ _) hu
  case fsubs => exact key h rfl fun hu => faulted_finishWith rfl rfl rfl (ok_fpArith _ _ _ _ _ _) hu
  case fmuls => exact key h rfl fun hu => faulted_finishWith rfl rfl rfl (ok_fpArith _ _ _ _ _ _) hu
  case fdivs => exact key h rfl fun hu => faulted_finishWith rfl rfl rfl (ok_fpArith _ _ _ _ _ _) hu
  case fmacS =>
    exact key (planned_eq_fault.mp h).2 rfl fun hu =>
      faulted_finishWith rfl rfl rfl (ok_fMacOp _ _ _ _ _ _ _ _ _ _) hu
  case fmasS =>
    exact key (planned_eq_fault.mp h).2 rfl fun hu =>
      faulted_finishWith rfl rfl rfl (ok_fMacOp _ _ _ _ _ _ _ _ _ _) hu
  case fnmacS =>
    exact key (planned_eq_fault.mp h).2 rfl fun hu =>
      faulted_finishWith rfl rfl rfl (ok_fMacOp _ _ _ _ _ _ _ _ _ _) hu
  case fnmasS =>
    exact key (planned_eq_fault.mp h).2 rfl fun hu =>
      faulted_finishWith rfl rfl rfl (ok_fMacOp _ _ _ _ _ _ _ _ _ _) hu
  case fmac =>
    exact key (planned_eq_fault.mp h).2 rfl fun hu =>
      faulted_finishWith rfl rfl rfl (ok_fMacOp _ _ _ _ _ _ _ _ _ _) hu
  case fmas =>
    exact key (planned_eq_fault.mp h).2 rfl fun hu =>
      faulted_finishWith rfl rfl rfl (ok_fMacOp _ _ _ _ _ _ _ _ _ _) hu
  case fnmac =>
    exact key (planned_eq_fault.mp h).2 rfl fun hu =>
      faulted_finishWith rfl rfl rfl (ok_fMacOp _ _ _ _ _ _ _ _ _ _) hu
  case fnmas =>
    exact key (planned_eq_fault.mp h).2 rfl fun hu =>
      faulted_finishWith rfl rfl rfl (ok_fMacOp _ _ _ _ _ _ _ _ _ _) hu
  case ftx p ra imm =>
    refine key h rfl fun hu => ?_
    by_cases hen : enabledOf (maskKinds (s.maskOperand ra imm)) s.fpscr = 0
    · rw [ftxBody, signal_disabled hen] at hu
      cases hu
    · rw [ftxBody, signal_enabled hen] at hu
      cases hu
      exact ⟨_, _, rfl, .ftx hen⟩

/-- What an instruction's body leaves besides registers, predicates and FPSCR. -/
theorem Ran.rest {s u : State} {i : Instr} (h : Ran s i u) :
    u.mem = s.mem ∧ u.params = s.params ∧ u.pc = s.pc ∧ u.draws = s.draws := by
  cases h <;> simp

/-- Memory, parameters and pc after an instruction (R25, R64). -/
theorem exec_next_rest {i : Instr} {s t : State} (h : exec i s = .next t) :
    t.mem = s.mem ∧ t.params = s.params ∧ t.pc = s.pc + BitVec.ofNat 64 i.length ∧ t.draws = s.draws + 1 := by
  rcases exec_next h with ⟨-, rfl⟩ | ⟨-, u, hu, rfl⟩
  · simp
  · obtain ⟨h1, h2, h3, h4⟩ := hu.rest
    simp [h1, h2, h3, h4]

/-- A step that gives a next state ran the instruction it fetched. -/
theorem step_next {s t : State} (h : step s = .next t) : ∃ i, s.fetch = .instr i ∧ exec i s = .next t := by
  unfold step at h
  split at h
  · rename_i i hi
    exact ⟨i, hi, h⟩
  · cases h
  · cases h

end Sys2Proof.Machine
end

