-- ==== Sys2Proof/Laws/Memory.lean ====
section
/-! SUPPORT. Memory: a byte stored is read back, every other byte stays, and the canonical form is kept. -/

namespace Sys2Proof.Machine

/-- A store changes the byte at its own address only (R64). -/
theorem byteAt_store (m : Memory) (x y : Nat) (v : Byte) :
    (m.store x v).byteAt y = if y = x then some v else m.byteAt y := by
  induction m with
  | nil => simp [Memory.store, Memory.byteAt]
  | cons c m ih =>
    obtain ⟨a, b⟩ := c
    simp only [Memory.store]
    split
    · simp [Memory.byteAt]
    · split
      · subst x
        simp only [Memory.byteAt]
        split <;> rfl
      · simp only [Memory.byteAt, ih]
        by_cases hya : y = a
        · subst hya; simp [show ¬ y = x by omega]
        · simp [hya]

/-- The canonical form from a lower bound still holds from a smaller one. -/
theorem wfFrom_mono {lo lo' : Nat} {m : Memory} (h : Memory.wfFrom lo m = true) (hl : lo' ≤ lo) :
    Memory.wfFrom lo' m = true := by
  cases m with
  | nil => rfl
  | cons c m =>
    obtain ⟨a, b⟩ := c
    simp only [Memory.wfFrom, Bool.and_eq_true, decide_eq_true_eq] at h ⊢
    exact ⟨⟨by omega, h.1.2⟩, h.2⟩

theorem wfFrom_store {lo : Nat} {m : Memory} (h : Memory.wfFrom lo m = true) {x : Nat} (hlo : lo ≤ x)
    (hx : x < 2 ^ 64) (v : Byte) : Memory.wfFrom lo (m.store x v) = true := by
  induction m generalizing lo with
  | nil => simp [Memory.store, Memory.wfFrom, hlo]; omega
  | cons c m ih =>
    obtain ⟨a, b⟩ := c
    simp only [Memory.wfFrom, Bool.and_eq_true, decide_eq_true_eq] at h
    obtain ⟨⟨h1, h2⟩, h3⟩ := h
    simp only [Memory.store]
    split
    · simp only [Memory.wfFrom, Bool.and_eq_true, decide_eq_true_eq]
      exact ⟨⟨hlo, hx⟩, ⟨by omega, h2⟩, h3⟩
    · split
      · subst x
        simp only [Memory.wfFrom, Bool.and_eq_true, decide_eq_true_eq]
        exact ⟨⟨hlo, hx⟩, h3⟩
      · simp only [Memory.wfFrom, Bool.and_eq_true, decide_eq_true_eq]
        exact ⟨⟨h1, h2⟩, ih h3 (by omega)⟩

/-- A store keeps the canonical form. -/
theorem wf_store {m : Memory} (h : m.wf = true) (a : Addr) (v : Byte) : (m.store a.toNat v).wf = true :=
  wfFrom_store h (Nat.zero_le _) a.isLt v

/-- A store of several bytes keeps the canonical form. -/
theorem wf_writeBytes {m : Memory} (h : m.wf = true) (a : Addr) (bs : List Byte) : (m.writeBytes a bs).wf = true := by
  induction bs generalizing m a with
  | nil => exact h
  | cons b bs ih => exact ih (wf_store h a b) (a + 1)

/-- `MemWrite` keeps the canonical form. -/
theorem wf_memWrite {m : Memory} (h : m.wf = true) (a : Addr) (n v : Nat) : (m.memWrite a n v).wf = true :=
  wf_writeBytes h a _

/-- Placing an instruction at pc keeps the canonical form. -/
theorem wf_withFetchWord {s : State} (h : s.mem.wf = true) (nbits w : Nat) :
    (s.withFetchWord nbits w).mem.wf = true := wf_memWrite h _ _ _

/-- The bytes outside the stored ones stay (R64). -/
theorem byteAt_writeBytes_other (m : Memory) (a : Addr) (bs : List Byte) (y : Nat)
    (h : ∀ i < bs.length, y ≠ (a + BitVec.ofNat 64 i).toNat) : (m.writeBytes a bs).byteAt y = m.byteAt y := by
  induction bs generalizing m a with
  | nil => rfl
  | cons b bs ih =>
    rw [Memory.writeBytes, ih, byteAt_store]
    · have := h 0 (by simp)
      simp only [BitVec.add_zero] at this
      rw [if_neg this]
    · intro i hi
      have := h (i + 1) (by simpa using hi)
      rwa [show a + 1 + BitVec.ofNat 64 i = a + BitVec.ofNat 64 (i + 1) by
        rw [BitVec.ofNat_add, BitVec.add_assoc, BitVec.add_comm 1]; rfl]

/-- The bytes stored are read back, one by one, if they do not wrap onto each other (R64). -/
theorem byteAt_writeBytes (m : Memory) (a : Addr) (bs : List Byte) (hl : bs.length ≤ 2 ^ 64) (i : Nat)
    (hi : i < bs.length) : (m.writeBytes a bs).byteAt (a + BitVec.ofNat 64 i).toNat = some bs[i] := by
  induction bs generalizing m a i with
  | nil => simp at hi
  | cons b bs ih =>
    simp only [List.length_cons] at hl hi
    rw [Memory.writeBytes]
    cases i with
    | zero =>
      rw [byteAt_writeBytes_other]
      · simp [byteAt_store]
      · intro j hj e
        have := BitVec.eq_of_toNat_eq e
        have hz : (1 : Addr) + BitVec.ofNat 64 j = 0 := by
          have : a + (1 + BitVec.ofNat 64 j) = a + 0 := by
            rw [← BitVec.add_assoc]; simpa using this.symm
          exact (BitVec.add_right_inj a).mp this
        have hn := congrArg BitVec.toNat hz
        simp at hn
        omega
    | succ i =>
      have := ih (m.store a.toNat b) (a + 1) (by omega) i (by omega)
      rw [show a + BitVec.ofNat 64 (i + 1) = a + 1 + BitVec.ofNat 64 i by
        rw [BitVec.ofNat_add, BitVec.add_assoc, BitVec.add_comm 1]; rfl]
      simpa using this

/-- Reading succeeds with exactly the bytes the addresses hold (R63). -/
theorem readBytes_eq_some {m : Memory} {a : Addr} {n : Nat} {bs : List Byte} :
    m.readBytes a n = some bs ↔
      bs.length = n ∧ ∀ i, (hi : i < bs.length) → m.byteAt (a + BitVec.ofNat 64 i).toNat = some bs[i] := by
  induction n generalizing a bs with
  | zero =>
    simp only [Memory.readBytes, Option.some.injEq]
    constructor
    · rintro rfl; simp
    · rintro ⟨h, -⟩; exact (List.length_eq_zero_iff.mp h).symm
  | succ n ih =>
    simp only [Memory.readBytes]
    constructor
    · intro h
      split at h
      · rename_i b bs' hb hbs
        cases h
        obtain ⟨hl, hall⟩ := ih.mp hbs
        refine ⟨by simp [hl], fun i hi => ?_⟩
        cases i with
        | zero => simpa using hb
        | succ i =>
          rw [show a + BitVec.ofNat 64 (i + 1) = a + 1 + BitVec.ofNat 64 i by
            rw [BitVec.ofNat_add, BitVec.add_assoc, BitVec.add_comm 1]; rfl]
          simpa using hall i (by simpa using hi)
      · cases h
    · rintro ⟨hl, hall⟩
      cases bs with
      | nil => simp at hl
      | cons b bs =>
        have h0 := hall 0 (by simp)
        simp only [BitVec.add_zero, List.getElem_cons_zero] at h0
        have hrest : m.readBytes (a + 1) n = some bs := by
          refine ih.mpr ⟨by simpa using hl, fun i hi => ?_⟩
          have := hall (i + 1) (by simpa using hi)
          rw [show a + BitVec.ofNat 64 (i + 1) = a + 1 + BitVec.ofNat 64 i by
            rw [BitVec.ofNat_add, BitVec.add_assoc, BitVec.add_comm 1]; rfl] at this
          simpa using this
        rw [h0, hrest]

/-- Bytes written are read back (R63, R64). -/
theorem readBytes_writeBytes (m : Memory) (a : Addr) (bs : List Byte) (h : bs.length ≤ 2 ^ 64) :
    (m.writeBytes a bs).readBytes a bs.length = some bs :=
  readBytes_eq_some.mpr ⟨rfl, fun i hi => byteAt_writeBytes m a bs h i hi⟩

/-- Reading fewer bytes gives the first of them. -/
theorem readBytes_take {m : Memory} {a : Addr} {n k : Nat} {bs : List Byte} (h : m.readBytes a n = some bs)
    (hk : k ≤ n) : m.readBytes a k = some (bs.take k) := by
  obtain ⟨hl, hall⟩ := readBytes_eq_some.mp h
  refine readBytes_eq_some.mpr ⟨by simp [hl, hk], fun i hi => ?_⟩
  have : i < bs.length := by simp at hi; omega
  simpa using hall i this

end Sys2Proof.Machine
end

