-- ==== Sys2Proof/Laws/Fetch.lean ====
section
/-! SUPPORT. What a fetch answers, from the bytes at pc (R68, R82). -/

namespace Sys2Proof.Machine

/-- A fetch where memory holds as many bytes as the opcode byte says is the decoding of those bytes (R82). -/
theorem fetch_of_bytes {s : State} {bytes : List Byte} {n : Nat} {b op : Byte} (h : s.mem.readBytes s.pc n = some bytes)
    (h2 : s.mem.readBytes s.pc 2 = some [b, op]) (hl : instrLength op = some n) :
    s.fetch = match decode bytes with
      | .ok i _ => .instr i
      | .reject r => .rejected r := by
  unfold State.fetch
  rw [h2]
  simp only [hl, h] <;> cases decode bytes <;> rfl

/-- A fetch of bytes that decode to an instruction is that instruction (R82). -/
theorem fetch_of_decode {s : State} {bytes : List Byte} {i : Instr} {n : Nat} (h : s.mem.readBytes s.pc n = some bytes)
    (hd : decode bytes = .ok i n) : s.fetch = .instr i := by
  obtain ⟨b, op, rest, rfl, hl, -, -⟩ := decode_ok hd
  have hn := instrLength_bounds hl
  have h2 := readBytes_take h (k := 2) (by omega)
  rw [fetch_of_bytes (b := b) h (by simpa using h2) hl, hd]

end Sys2Proof.Machine
end

