-- ==== Sys2Proof/Laws/Frames.lean ====
section
/-! SUPPORT. The shapes an instruction's effect has, each brought into the terms of the statements once: a register
written, a predicate register written, FPSCR written, a result recorded, an exception delivered. -/

namespace Sys2Proof.Machine

/-- A register written holds the value, and no other changes (R13). -/
theorem targetHolds_writeX {s u : State} {rt : Nat} {v : Word} {P : Word → Prop} (hr : u.regs = s.regs)
    (hp : u.params = s.params) (hv : P v) : s.TargetHolds (u.writeX rt v) rt P := by
  have hx : ∀ r, u.readX r = s.readX r := fun r => by simp [State.readX, hr, hp]
  refine ⟨?_, fun r h => by rw [readX_writeX_other _ _ _ h, hx]⟩
  rw [readX_writeX_same, hp]
  split
  · rfl
  · exact hv

/-- Target, other registers and memory do not see pc advance. -/
theorem targetHolds_advance {s u : State} {rt len : Nat} {P : Word → Prop} (h : s.TargetHolds u rt P) :
    s.TargetHolds (u.advance len) rt P := h

/-- An instruction that writes one register completes so (R180, R243). -/
theorem completes_register {p : Pred} {len rt : Nat} {body : State → Result} {value : Word} {s : State}
    {P : Word → Prop} (hp : s.predTrue p = true) (hb : body s = .next (s.writeX rt value)) (h : P value) :
    ∃ t, predicated p len body s = .next t ∧ s.WritesRegister t len rt P := by
  refine ⟨(s.writeX rt value).advance len, ?_, ⟨?_, ?_, ?_⟩, ?_, ?_, ?_⟩
  · rw [predicated_true hp, hb]; rfl
  · simp
  · simp
  · simp
  · exact targetHolds_advance (targetHolds_writeX rfl rfl h)
  · intro q; simp
  · simp

/-- An instruction that writes one predicate register completes so (R220). -/
theorem completes_predicate {p : Pred} {len pt : Nat} {body : State → Result} {f : PredFlags} {s : State}
    (hp : s.predTrue p = true) (hb : body s = .next (s.writeP pt f)) :
    ∃ t, predicated p len body s = .next t ∧ s.WritesPredicate t len pt f := by
  refine ⟨(s.writeP pt f).advance len, ?_, ⟨?_, ?_, ?_⟩, ?_, ?_, ?_, ?_⟩
  · rw [predicated_true hp, hb]; rfl
  · simp
  · simp
  · simp
  · intro r; simp
  · simp
  · intro q h; simp [readP_writeP_other _ _ _ h]
  · simp

/-- An instruction that writes FPSCR alone completes so (R240). -/
theorem completes_fpscr {p : Pred} {len : Nat} {body : State → Result} {v : FpscrWord} {s : State} {bit : Nat → Bool}
    (hp : s.predTrue p = true) (hb : body s = .next (s.setFpscr v)) (h : ∀ i < 32, v.getLsbD i = bit i) :
    ∃ t, predicated p len body s = .next t ∧ s.WritesFpscr t len bit := by
  refine ⟨(s.setFpscr v).advance len, ?_, ⟨?_, ?_, ?_⟩, ?_, ?_, ?_⟩
  · rw [predicated_true hp, hb]; rfl
  · simp
  · simp
  · simp
  · intro r; simp
  · intro q; simp
  · simpa using h

/-- Which kinds are enabled, bit by bit (R146). -/
theorem getLsbD_enabledOf (k : Kinds) (v : FpscrWord) {i : Nat} (h : i < 5) :
    (enabledOf k v).getLsbD i = (k.getLsbD i && v.getLsbD (24 + i)) := by
  rw [enabledOf, BitVec.getLsbD_and, getLsbD_enables, decide_eq_true h, Bool.true_and]

/-- A kind that occurred is enabled, said of the set of kinds (R146). -/
theorem enabledKind_iff (s : State) (k : Kinds) : s.EnabledKind k ↔ enabledOf k s.fpscr ≠ 0 := by
  constructor
  · rintro ⟨j, hj, h1, h2⟩ h0
    have := getLsbD_enabledOf k s.fpscr hj
    rw [h0, h1, h2] at this
    simp at this
  · intro h
    by_contra hn
    apply h
    apply BitVec.eq_of_getLsbD_eq
    intro i hi
    rw [getLsbD_enabledOf _ _ hi]
    by_contra hb
    apply hn
    have hb' : (k.getLsbD i && s.fpscr.getLsbD (24 + i)) = true := by simpa using hb
    rw [Bool.and_eq_true] at hb'
    exact ⟨i, hi, hb'.1, hb'.2⟩

/-- What is recorded of a set of kinds, in the terms of the statements (R146). -/
theorem getLsbD_recordKinds_signalBit (pol : GxPolicy) (k : Kinds) (v : FpscrWord) (i : Nat) :
    (recordKinds pol k v).getLsbD i = signalBit pol k v i := by
  rw [getLsbD_recordKinds]
  unfold signalBit
  by_cases h8 : i = 8
  · rw [if_neg (by omega), if_pos h8, if_pos h8, h8]
  · by_cases h9 : i = 9
    · rw [if_neg (by omega), if_neg h8, if_pos h9, if_neg h8, if_pos h9, h9]
    · by_cases h : 10 ≤ i ∧ i < 15
      · rw [if_pos h, if_neg h8, if_neg h9, if_pos h]
      · rw [if_neg h, if_neg h8, if_neg h9, if_neg h8, if_neg h9, if_neg h]

/-- FPSCR after a result, in the terms of the statements (R147). -/
theorem getLsbD_finishedFpscr_resultBit (pol : GxPolicy) (cls : BitVec 5) (r : FpResult) (v : FpscrWord) (i : Nat) :
    (finishedFpscr pol cls r v).getLsbD i = resultBit pol cls r v i := by
  rw [getLsbD_finishedFpscr]
  unfold resultBit signalBit
  by_cases h1 : i < 8
  · rw [if_pos h1, if_pos h1]
  · rw [if_neg h1, if_neg h1]
    by_cases h8 : i = 8
    · rw [if_pos h8, if_neg (by omega), if_neg (by omega), if_neg (by omega), if_pos h8, h8]
    · rw [if_neg h8]
      by_cases h9 : i = 9
      · rw [if_pos h9, if_neg (by omega), if_neg (by omega), if_neg (by omega), if_neg h8, if_pos h9, h9]
      · rw [if_neg h9]
        by_cases h15 : i < 15
        · rw [if_pos h15, if_neg (by omega), if_neg (by omega), if_neg (by omega), if_neg h8, if_neg h9,
            if_pos (by omega)]
        · rw [if_neg h15]
          by_cases h : i = 15
          · rw [if_pos h, if_neg (by omega), if_neg (by omega), if_neg (by omega), if_neg h8, if_neg h9,
              if_neg (by omega)]
          · rw [if_neg h]
            by_cases h21 : i < 21
            · rw [if_pos h21, if_pos (by omega)]
            · rw [if_neg h21, if_neg (by omega : ¬ (16 ≤ i ∧ i < 21)), if_neg h8, if_neg h9,
                if_neg (by omega : ¬ (10 ≤ i ∧ i < 15))]

/-- An instruction with a result completes when no kind that occurs is enabled (R147). -/
theorem completes_result {p : Pred} {len rt : Nat} {body : State → Result} {word : Word} {cls : BitVec 5}
    {r : FpResult} {s : State} {P : Word → Prop} (hp : s.predTrue p = true) (hb : body s = finishWith rt word cls r s)
    (hen : ¬ s.EnabledKind r.kinds) (h : P word) :
    ∃ t, predicated p len body s = .next t ∧ s.WritesResult t len rt P cls r := by
  rw [enabledKind_iff, not_not] at hen
  refine ⟨((s.setFpscr (finishedFpscr s.params.gxPolicy cls r s.fpscr)).writeX rt word).advance len, ?_, ⟨?_, ?_, ?_⟩,
    ?_, ?_, ?_⟩
  · rw [predicated_true hp, hb, finishWith_disabled hen]; rfl
  · simp
  · simp
  · simp
  · exact targetHolds_advance (targetHolds_writeX rfl rfl h)
  · intro q; simp
  · intro i _; simp [getLsbD_finishedFpscr_resultBit]

/-- An instruction with a result delivers the enabled kinds that occur (R147, R287). -/
theorem delivers_result {i : Instr} {p : Pred} {len rt : Nat} {body : State → Result} {word : Word} {cls : BitVec 5}
    {r : FpResult} {s : State} (he : exec i s = predicated p len body s) (ht : i.target = some rt)
    (hp : s.predTrue p = true) (hb : body s = finishWith rt word cls r s) (hen : s.EnabledKind r.kinds) :
    Instr.Delivers i s r.kinds (resultBit s.params.gxPolicy cls r s.fpscr) := by
  rw [enabledKind_iff] at hen
  refine ⟨enabledOf r.kinds s.fpscr,
    (s.setFpscr (finishedFpscr s.params.gxPolicy cls r s.fpscr)).writeX rt (Config.freeTarget s.draws), ?_,
    fun j hj => getLsbD_enabledOf _ _ hj, hen, ?_⟩
  · rw [he, predicated_true hp, hb, finishWith_enabled hen]; rfl
  · refine ⟨by simp, by simp, by simp, fun q => by simp, fun r h => ?_, fun j _ => by
      simp [getLsbD_finishedFpscr_resultBit]⟩
    rw [readX_writeX_other _ _ _ (h rt ht)]
    rfl

/-- The operand word of a control instruction, bit by bit (R85). -/
theorem getLsbD_orOperand (s : State) (ra imm : Nat) {i : Nat} (h : i < 6) :
    (s.orOperand ra imm).getLsbD i = s.maskBit ra imm i := by
  rw [State.orOperand, State.maskBit, BitVec.getLsbD_or, BitVec.getLsbD_setWidth, decide_eq_true (by omega : i < 64),
    Bool.true_and, BitVec.getLsbD_ofNat, decide_eq_true h, Bool.true_and]

/-- The mask operand, bit by bit (R241). -/
theorem getLsbD_maskOperand (s : State) (ra imm : Nat) {i : Nat} (h : i < 6) :
    (s.maskOperand ra imm).getLsbD i = s.maskBit ra imm i := by
  rw [State.maskOperand, BitVec.getLsbD_setWidth, getLsbD_orOperand s ra imm h]
  simp [h]

/-- The kinds a mask names, bit by bit (R241). -/
theorem getLsbD_maskKinds (s : State) (ra imm : Nat) {i : Nat} (h : i < 5) :
    (maskKinds (s.maskOperand ra imm)).getLsbD i = s.maskBit ra imm i := by
  rw [maskKinds, BitVec.getLsbD_setWidth, getLsbD_maskOperand s ra imm (by omega)]
  simp [h]

/-- Everything an instruction can end in: its predicate is false, its body ran, or its body delivered an exception. -/
theorem leads_cases {i : Instr} {s t : State} (h : Instr.Leads i s t) :
    (s.predTrue i.pred = false ∧ exec i s = .next t ∧ t = s.advance i.length) ∨
    (s.predTrue i.pred = true ∧ exec i s = .next t ∧ ∃ u, Ran s i u ∧ t = u.advance i.length) ∨
    (s.predTrue i.pred = true ∧ ∃ en, exec i s = .fault (.fpException en t) ∧ Faulted s i en t) := by
  rcases h with h | ⟨en, h⟩
  · rcases exec_next h with ⟨h1, h2⟩ | ⟨h1, h2⟩
    · exact .inl ⟨h1, h, h2⟩
    · exact .inr (.inl ⟨h1, h, h2⟩)
  · obtain ⟨h1, en', d, he, hf⟩ := exec_fault h
    cases he
    exact .inr (.inr ⟨h1, en, h, hf⟩)

/-- Everything an instruction can leave in FPSCR, whether it completes or delivers an exception. -/
inductive FpscrAfter (s : State) : Instr → FpscrWord → Prop where
  | same {i : Instr} : FpscrAfter s i s.fpscr
  | status {i : Instr} {cls : BitVec 5} {r : FpResult} (hs : i.recordsStatus = true) (hok : r.Ok) :
    FpscrAfter s i (finishedFpscr s.params.gxPolicy cls r s.fpscr)
  | frm {p : Pred} {ra imm : Nat} :
    FpscrAfter s (.frm p ra imm) (setField s.fpscr 29 ((s.orOperand ra imm).setWidth 3))
  | ftx {p : Pred} {ra imm : Nat} :
    FpscrAfter s (.ftx p ra imm) (recordKinds s.params.gxPolicy (maskKinds (s.maskOperand ra imm)) s.fpscr)
  | fcx {p : Pred} {ra imm : Nat} : FpscrAfter s (.fcx p ra imm) (clearKinds (s.maskOperand ra imm) s.fpscr)
  | fex {p : Pred} {ra imm : Nat} :
    FpscrAfter s (.fex p ra imm)
      (setField s.fpscr 24 (fpscrEnables s.fpscr ||| maskKinds (s.maskOperand ra imm)))
  | fdx {p : Pred} {ra imm : Nat} :
    FpscrAfter s (.fdx p ra imm)
      (setField s.fpscr 24 (fpscrEnables s.fpscr &&& ~~~maskKinds (s.maskOperand ra imm)))

/-- FPSCR after any instruction is one of these. -/
theorem fpscrAfter_of_leads {i : Instr} {s t : State} (h : Instr.Leads i s t) : FpscrAfter s i t.fpscr := by
  rcases leads_cases h with ⟨-, -, rfl⟩ | ⟨-, -, u, hu, rfl⟩ | ⟨-, en, -, hf⟩
  · exact .same
  · cases hu with
    | register => simpa using .same
    | predicate => simpa using .same
    | status hs hp ht hok => simpa using .status hs hok
    | frm => exact .frm
    | ftx => exact .ftx
    | fcx => exact .fcx
    | fex => exact .fex
    | fdx => exact .fdx
  · cases hf with
    | status hs hp ht hok => simpa using .status hs hok
    | ftx => exact .ftx

end Sys2Proof.Machine
end

