-- ==== Sys2Proof/Laws/Operands.lean ====
section
/-! SUPPORT. A single in a register (R123): what its operand and its result keep of the 64 bits. What an FR2 encoding
holds, and which kind a conversion from an integer can signal. -/

namespace Sys2Proof.Machine

/-- The low half of a single result is the result (R123). -/
theorem singleResult_low (s : State) (v : Word) : (s.singleResult v).setWidth 32 = v.setWidth 32 := by
  rw [State.singleResult, BitVec.setWidth_append]; simp

/-- The low half of a single result, bit by bit (R123). -/
theorem getLsbD_singleResult (s : State) (v : Word) {i : Nat} (hi : i < 32) :
    (s.singleResult v).getLsbD i = v.getLsbD i := by
  rw [State.singleResult, BitVec.getLsbD_append, if_pos hi, BitVec.getLsbD_setWidth, decide_eq_true hi, Bool.true_and]

/-- What is written for a result holds it (R123, R147). -/
theorem holds_resultWord (s : State) (f : Fmt) (v : Word) : f.Holds v (s.resultWord f v) := by
  cases f
  · rfl
  · exact singleResult_low s v

/-- A single operand, bit by bit (R123). -/
theorem getLsbD_fpOperand_single (s : State) (ra : Nat) {i : Nat} (hi : i < 32) :
    (s.fpOperand .single ra).getLsbD i = (s.readX ra).getLsbD i := by
  simp only [State.fpOperand, BitVec.getLsbD_setWidth, decide_eq_true hi, decide_eq_true (by omega : i < 64),
    Bool.true_and]

/-- Whether a single is a NaN depends on its low half alone. -/
theorem isNaN_low (v : Word) : isNaN .single (v.setWidth 32 |>.setWidth 64) = isNaN .single v := by
  simp only [isNaN, fpExp, fpFrac, Fmt.fracBits, Fmt.expBits, BitVec.toNat_setWidth]
  congr 2 <;> (congr 1; omega)

/-- Whether a single is a zero depends on its low half alone. -/
theorem isZero_low (v : Word) : isZero .single (v.setWidth 32 |>.setWidth 64) = isZero .single v := by
  simp only [isZero, fpExp, fpFrac, Fmt.fracBits, Fmt.expBits, BitVec.toNat_setWidth]
  congr 2 <;> (congr 1; omega)

/-- The sign of a single is bit 31. -/
theorem fpSign_low (v : Word) : fpSign .single (v.setWidth 32 |>.setWidth 64) = v.getLsbD 31 := by
  simp [fpSign, Fmt.width]

/-- Length, opcode byte and function code of an instruction encoded in format FR2 or FI (R89, R90). -/
theorem hasCode_FR2 {i : Instr} {p : Pred} {op fn rt ra : Nat} (hi : encodeWord i = encodeFR2 p op fn rt ra)
    (hl : i.length = 4) (hfn : fn < 16) (hop : op = 0x77 ∨ op = 0x79)
    (hw : i.wellFormed = true → (p.pn < 16 ∧ p.pc < 16) ∧ rt < 64 ∧ ra < 64) : Instr.HasCode i 4 op fn := by
  intro h
  obtain ⟨hp, ht, ha⟩ := hw h
  obtain ⟨h1, hpc, hpn, hop', hra, hrt, hf⟩ := fields_FR2 hp (by omega : op < 256) hfn ht ha
  refine ⟨hl, by rw [hi]; exact hop', ?_⟩
  rw [hi]; unfold functionCode; simp only
  rw [hop', if_neg (by omega), if_neg (by omega), if_neg (by omega)]; exact hf

/-- The one kind a conversion from an integer can signal is inexact (R207). -/
theorem enabledKind_iToF {s : State} {f : Fmt} {t : Tininess} {a : Word} (h : s.EnabledKind (iToF f t a).kinds) :
    (iToF f t a).inexact = true ∧ s.fpscr.getLsbD 28 = true := by
  obtain ⟨j, hj, h1, h2⟩ := h
  unfold iToF at h1 ⊢
  simp only at h1 ⊢
  split at h1
  · simp [FpResult.exact] at h1
  · rename_i hne
    rw [if_neg hne]
    simp only [kindBit] at h1 ⊢
    split at h1
    · rename_i hx
      have only4 : ∀ j, j < 5 → (1#5 <<< 4).getLsbD j = true → j = 4 := by decide
      obtain rfl := only4 j hj h1
      exact ⟨hx, h2⟩
    · simp at h1

end Sys2Proof.Machine
end

