-- ==== Sys2Proof/Laws/Order.lean ====
section
/-! SUPPORT. The order of the model's extended values is that of the values on the extended line (R221 to R226). -/

namespace Sys2Proof.Machine

/-- Less than, on the extended line (R221). -/
theorem less_iff_extended (f : Fmt) (a b : Word) :
    (extValue f a).less (extValue f b) = true ↔ extended f a < extended f b := by
  have hU : (0 : ℚ) < 2 ^ f.unitExp := by positivity
  have key : fpValue f a < fpValue f b ↔ realValue f a < realValue f b := by
    rw [← mul_lt_mul_iff_left₀ hU, realValue_units, realValue_units]; exact_mod_cast Iff.rfl
  unfold extValue extended
  have top : ((realValue f a : WithTop ℚ) : WithBot (WithTop ℚ)) < ((⊤ : WithTop ℚ) : WithBot (WithTop ℚ)) :=
    WithBot.coe_lt_coe.2 (WithTop.coe_lt_top _)
  cases isInf f a <;> cases isInf f b <;> cases fpSign f a <;> cases fpSign f b <;>
    simp [ExtValue.less, key] <;> exact top

/-- Equality, on the extended line (R223). -/
theorem eq_iff_extended (f : Fmt) (a b : Word) : extValue f a = extValue f b ↔ extended f a = extended f b := by
  have hU : (0 : ℚ) < 2 ^ f.unitExp := by positivity
  have key : fpValue f a = fpValue f b ↔ realValue f a = realValue f b := by
    rw [← mul_left_inj' hU.ne', realValue_units, realValue_units]; exact_mod_cast Iff.rfl
  unfold extValue extended
  cases isInf f a <;> cases isInf f b <;> cases fpSign f a <;> cases fpSign f b <;> simp [key]

/-- Clearing the sign bit leaves exponent field and fraction (R222). -/
theorem clear_fields (f : Fmt) (b : Word) :
    fpExp f (b &&& ~~~signMask f) = fpExp f b ∧ fpFrac f (b &&& ~~~signMask f) = fpFrac f b ∧
      fpSign f (b &&& ~~~signMask f) = false := by
  have hx : ∀ i, i < f.width - 1 → (b &&& ~~~signMask f).getLsbD i = b.getLsbD i := by
    intro i hi
    have : (~~~signMask f).getLsbD i = true := by
      revert i; cases f <;> decide
    rw [BitVec.getLsbD_and, this, Bool.and_true]
  have hm : (b &&& ~~~signMask f).toNat % 2 ^ (f.width - 1) = b.toNat % 2 ^ (f.width - 1) := by
    apply Nat.eq_of_testBit_eq
    intro i
    rw [Nat.testBit_mod_two_pow, Nat.testBit_mod_two_pow]
    by_cases hi : i < f.width - 1
    · have := hx i hi; rw [BitVec.getLsbD, BitVec.getLsbD] at this; rw [this]
    · simp [hi]
  refine ⟨?_, ?_, ?_⟩
  · cases f <;> simp only [fpExp, Fmt.fracBits, Fmt.expBits, Fmt.width] at * <;> omega
  · cases f <;> simp only [fpFrac, Fmt.fracBits, Fmt.width] at * <;> omega
  · unfold fpSign
    rw [BitVec.getLsbD_and]
    have : (~~~signMask f).getLsbD (f.width - 1) = false := by cases f <;> decide
    rw [this, Bool.and_false]

/-- The magnitude compared by `ltu` is the value of the pattern with its sign bit clear (R222). -/
theorem extMag_eq (f : Fmt) (b : Word) : extMag f b = extValue f (b &&& ~~~signMask f) := by
  obtain ⟨h1, h2, h3⟩ := clear_fields f b
  unfold extMag extValue fpValue fpMag isInf
  rw [h1, h2, h3]; simp

/-- Below zero, by sign and class (R230). -/
theorem less_zero (f : Fmt) (a : Word) : (extValue f a).less (.finite 0) = (!isZero f a && fpSign f a) := by
  have hz : fpMag f a = 0 ↔ fpExp f a = 0 ∧ fpFrac f a = 0 := by
    unfold fpMag
    split <;> simp [*]
  unfold extValue
  by_cases hi : isInf f a = true
  · have : isZero f a = false := by
      simp only [isInf, decide_eq_true_eq] at hi
      simp only [isZero, decide_eq_false_iff_not]
      rw [hi.1]; cases f <;> simp [Fmt.expMax]
    rw [if_pos hi, this]
    cases fpSign f a <;> rfl
  · rw [if_neg hi]
    simp only [ExtValue.less, fpValue, isZero]
    rw [Bool.eq_iff_iff]
    simp only [Bool.and_eq_true, Bool.not_eq_true', decide_eq_false_iff_not, ← hz]
    split <;> rename_i h <;> simp [h]; omega

end Sys2Proof.Machine
end

