-- ==== Sys2Proof/Laws/PerInstr.lean ====
section
/-! SUPPORT. The family DecodeEncode, one lemma per constructor: decoding the encoding of a well-formed instruction,
followed by any bytes, gives the instruction back with its length. -/

namespace Sys2Proof.Laws.DecodeEncode

/-- Decoding undoes encoding for this instruction. -/
def Statement (i : Instr) : Prop :=
  i.wellFormed = true → ∀ rest, decode (encode i ++ rest) = .ok i i.length

/-- What decoding needs of the word of a well-formed instruction. -/
theorem of_word {i : Instr} (h : i.wellFormed = true →
    2 ≤ i.length ∧ encodeWord i < 256 ^ i.length ∧
    instrLength (BitVec.ofNat 8 (field (encodeWord i) 8 8)) = some i.length ∧ decodeWord (encodeWord i) = some i) :
    Statement i := fun hw _ => by
  obtain ⟨h2, hlt, hlen, hdec⟩ := h hw
  exact decode_bytesOf h2 hlt (opcode_byte _ ▸ hlen) hdec

/-- Format FR2 with opcode byte 77h. -/
theorem of_FR2_77 {i : Instr} {p : Pred} {fn rt ra : Nat} (hi : encodeWord i = encodeFR2 p 0x77 fn rt ra)
    (hl : i.length = 4) (hfn : fn < 16)
    (hw : i.wellFormed = true → (p.pn < 16 ∧ p.pc < 16) ∧ rt < 64 ∧ ra < 64)
    (hd : ∀ w, predField w = p → field w 16 6 = ra → field w 22 6 = rt → field w 28 4 = fn → decode77 w = some i) :
    Statement i := of_word fun h => by
  obtain ⟨hp, ht, ha⟩ := hw h
  obtain ⟨h1, hpc, hpn, hop, hra, hrt, hf⟩ := fields_FR2 hp (by decide : 0x77 < 256) hfn ht ha
  rw [hi, hl]
  refine ⟨by decide, h1, by rw [hop]; rfl, ?_⟩
  rw [decodeWord_77 hop]
  exact hd _ (by simp [predField, hpn, hpc]) hra hrt hf

/-- Format FR2 with opcode byte 79h. -/
theorem of_FR2_79 {i : Instr} {p : Pred} {fn rt ra : Nat} (hi : encodeWord i = encodeFR2 p 0x79 fn rt ra)
    (hl : i.length = 4) (hfn : fn < 16)
    (hw : i.wellFormed = true → (p.pn < 16 ∧ p.pc < 16) ∧ rt < 64 ∧ ra < 64)
    (hd : ∀ w, predField w = p → field w 16 6 = ra → field w 22 6 = rt → field w 28 4 = fn → decode79 w = some i) :
    Statement i := of_word fun h => by
  obtain ⟨hp, ht, ha⟩ := hw h
  obtain ⟨h1, hpc, hpn, hop, hra, hrt, hf⟩ := fields_FR2 hp (by decide : 0x79 < 256) hfn ht ha
  rw [hi, hl]
  refine ⟨by decide, h1, by rw [hop]; rfl, ?_⟩
  rw [decodeWord_79 hop]
  exact hd _ (by simp [predField, hpn, hpc]) hra hrt hf

/-- Format FR3. -/
theorem of_FR3 {i : Instr} {p : Pred} {fn rt ra rb : Nat} (hi : encodeWord i = encodeFR3 p fn rt ra rb)
    (hl : i.length = 5) (hfn : fn < 64)
    (hw : i.wellFormed = true → (p.pn < 16 ∧ p.pc < 16) ∧ rt < 64 ∧ ra < 64 ∧ rb < 64)
    (hd : ∀ w, predField w = p → field w 16 6 = ra → field w 22 6 = rb → field w 28 6 = rt → field w 34 6 = fn →
      decode78 w = some i) : Statement i := of_word fun h => by
  obtain ⟨hp, ht, ha, hb⟩ := hw h
  obtain ⟨h1, hpc, hpn, hop, hra, hrb, hrt, hf⟩ := fields_FR3 hp hfn ht ha hb
  rw [hi, hl]
  refine ⟨by decide, h1, by rw [hop]; rfl, ?_⟩
  rw [decodeWord_78 hop]
  exact hd _ (by simp [predField, hpn, hpc]) hra hrb hrt hf

/-- Format FR4. -/
theorem of_FR4 {i : Instr} {p : Pred} {o5 rt ra rb rc : Nat} (hi : encodeWord i = encodeFR4 p o5 rt ra rb rc)
    (hl : i.length = 6) (ho : o5 < 32)
    (hw : i.wellFormed = true → (p.pn < 16 ∧ p.pc < 16) ∧ rt < 64 ∧ ra < 64 ∧ rb < 64 ∧ rc < 64)
    (hd : ∀ w, predField w = p → field w 16 6 = ra → field w 22 6 = rb → field w 28 6 = rc → field w 34 6 = rt →
      field w 40 5 = o5 → decode76 w = some i) : Statement i := of_word fun h => by
  obtain ⟨hp, ht, ha, hb, hc⟩ := hw h
  obtain ⟨h1, hpc, hpn, hop, hra, hrb, hrc, hrt, hf⟩ := fields_FR4 hp ho ht ha hb hc
  rw [hi, hl]
  refine ⟨by decide, h1, by rw [hop]; rfl, ?_⟩
  rw [decodeWord_76 hop]
  exact hd _ (by simp [predField, hpn, hpc]) hra hrb hrc hrt hf

/-- Format FC32. -/
theorem of_FC32 {i : Instr} {p : Pred} {fn pt ra rb : Nat} (hi : encodeWord i = encodeFC32 p fn pt ra rb)
    (hl : i.length = 4) (hfn : fn < 16)
    (hw : i.wellFormed = true → (p.pn < 16 ∧ p.pc < 16) ∧ pt < 16 ∧ ra < 64 ∧ rb < 64)
    (hd : ∀ w, predField w = p → field w 8 4 = pt → field w 16 6 = ra → field w 22 6 = rb → field w 28 4 = fn →
      decodeCompare w = some i) : Statement i := of_word fun h => by
  obtain ⟨hp, ht, ha, hb⟩ := hw h
  obtain ⟨h1, hpc, hpn, hop, hpt, hra, hrb, hf⟩ := fields_FC32 hp hfn ht ha hb
  rw [hi, hl]
  refine ⟨by decide, h1, by rw [hop]; exact instrLength_compare ht, ?_⟩
  rw [decodeWord_compare (by omega)]
  exact hd _ (by simp [predField, hpn, hpc]) hpt hra hrb hf

/-- Format FT24. -/
theorem of_FT24 {i : Instr} {p : Pred} {fn pt ra : Nat} (hi : encodeWord i = encodeFT24 p fn pt ra)
    (hl : i.length = 3) (hfn : fn < 4)
    (hw : i.wellFormed = true → (p.pn < 16 ∧ p.pc < 16) ∧ pt < 16 ∧ ra < 64)
    (hd : ∀ w, predField w = p → field w 8 4 = pt → field w 16 6 = ra → field w 22 2 = fn → decodeTest w = some i) :
    Statement i := of_word fun h => by
  obtain ⟨hp, ht, ha⟩ := hw h
  obtain ⟨h1, hpc, hpn, hop, hpt, hra, hf⟩ := fields_FT24 hp hfn ht ha
  rw [hi, hl]
  refine ⟨by decide, h1, by rw [hop]; exact instrLength_test ht, ?_⟩
  rw [decodeWord_test (by omega)]
  exact hd _ (by simp [predField, hpn, hpc]) hpt hra hf

theorem fmov (p : Pred) (rt ra : Nat) : Statement (.fmov p rt ra) :=
  of_FR2_77 rfl rfl (by decide) (fun h => by simp_all [Instr.wellFormed, Pred.fits_iff, fits6_iff])
    (fun w => by simp +contextual [decode77])

theorem ftoi (p : Pred) (rt ra : Nat) : Statement (.ftoi p rt ra) :=
  of_FR2_77 rfl rfl (by decide) (fun h => by simp_all [Instr.wellFormed, Pred.fits_iff, fits6_iff])
    (fun w => by simp +contextual [decode77])

theorem itof (p : Pred) (rt ra : Nat) : Statement (.itof p rt ra) :=
  of_FR2_77 rfl rfl (by decide) (fun h => by simp_all [Instr.wellFormed, Pred.fits_iff, fits6_iff])
    (fun w => by simp +contextual [decode77])

theorem fneg (p : Pred) (rt ra : Nat) : Statement (.fneg p rt ra) :=
  of_FR2_77 rfl rfl (by decide) (fun h => by simp_all [Instr.wellFormed, Pred.fits_iff, fits6_iff])
    (fun w => by simp +contextual [decode77])

theorem fabs (p : Pred) (rt ra : Nat) : Statement (.fabs p rt ra) :=
  of_FR2_77 rfl rfl (by decide) (fun h => by simp_all [Instr.wellFormed, Pred.fits_iff, fits6_iff])
    (fun w => by simp +contextual [decode77])

theorem fsign (p : Pred) (rt ra : Nat) : Statement (.fsign p rt ra) :=
  of_FR2_77 rfl rfl (by decide) (fun h => by simp_all [Instr.wellFormed, Pred.fits_iff, fits6_iff])
    (fun w => by simp +contextual [decode77])

theorem fman (p : Pred) (rt ra : Nat) : Statement (.fman p rt ra) :=
  of_FR2_77 rfl rfl (by decide) (fun h => by simp_all [Instr.wellFormed, Pred.fits_iff, fits6_iff])
    (fun w => by simp +contextual [decode77])

theorem fstat (p : Pred) (rt : Nat) : Statement (.fstat p rt) :=
  of_FR2_77 rfl rfl (by decide) (fun h => by simp_all [Instr.wellFormed, Pred.fits_iff, fits6_iff])
    (fun w => by simp +contextual [decode77])

theorem frm (p : Pred) (ra imm : Nat) : Statement (.frm p ra imm) :=
  of_FR2_77 rfl rfl (by decide) (fun h => by simp_all [Instr.wellFormed, Pred.fits_iff, fits6_iff])
    (fun w => by simp +contextual [decode77])

theorem fmovs (p : Pred) (rt ra : Nat) : Statement (.fmovs p rt ra) :=
  of_FR2_79 rfl rfl (by decide) (fun h => by simp_all [Instr.wellFormed, Pred.fits_iff, fits6_iff])
    (fun w => by simp +contextual [decode79])

theorem ftois (p : Pred) (rt ra : Nat) : Statement (.ftois p rt ra) :=
  of_FR2_79 rfl rfl (by decide) (fun h => by simp_all [Instr.wellFormed, Pred.fits_iff, fits6_iff])
    (fun w => by simp +contextual [decode79])

theorem itofs (p : Pred) (rt ra : Nat) : Statement (.itofs p rt ra) :=
  of_FR2_79 rfl rfl (by decide) (fun h => by simp_all [Instr.wellFormed, Pred.fits_iff, fits6_iff])
    (fun w => by simp +contextual [decode79])

theorem fnegs (p : Pred) (rt ra : Nat) : Statement (.fnegs p rt ra) :=
  of_FR2_79 rfl rfl (by decide) (fun h => by simp_all [Instr.wellFormed, Pred.fits_iff, fits6_iff])
    (fun w => by simp +contextual [decode79])

theorem fabss (p : Pred) (rt ra : Nat) : Statement (.fabss p rt ra) :=
  of_FR2_79 rfl rfl (by decide) (fun h => by simp_all [Instr.wellFormed, Pred.fits_iff, fits6_iff])
    (fun w => by simp +contextual [decode79])

theorem fsigns (p : Pred) (rt ra : Nat) : Statement (.fsigns p rt ra) :=
  of_FR2_79 rfl rfl (by decide) (fun h => by simp_all [Instr.wellFormed, Pred.fits_iff, fits6_iff])
    (fun w => by simp +contextual [decode79])

theorem fmans (p : Pred) (rt ra : Nat) : Statement (.fmans p rt ra) :=
  of_FR2_79 rfl rfl (by decide) (fun h => by simp_all [Instr.wellFormed, Pred.fits_iff, fits6_iff])
    (fun w => by simp +contextual [decode79])

theorem ftx (p : Pred) (ra imm : Nat) : Statement (.ftx p ra imm) :=
  of_FR2_79 rfl rfl (by decide) (fun h => by simp_all [Instr.wellFormed, Pred.fits_iff, fits6_iff])
    (fun w => by simp +contextual [decode79])

theorem fcx (p : Pred) (ra imm : Nat) : Statement (.fcx p ra imm) :=
  of_FR2_79 rfl rfl (by decide) (fun h => by simp_all [Instr.wellFormed, Pred.fits_iff, fits6_iff])
    (fun w => by simp +contextual [decode79])

theorem fex (p : Pred) (ra imm : Nat) : Statement (.fex p ra imm) :=
  of_FR2_79 rfl rfl (by decide) (fun h => by simp_all [Instr.wellFormed, Pred.fits_iff, fits6_iff])
    (fun w => by simp +contextual [decode79])

theorem fdx (p : Pred) (ra imm : Nat) : Statement (.fdx p ra imm) :=
  of_FR2_79 rfl rfl (by decide) (fun h => by simp_all [Instr.wellFormed, Pred.fits_iff, fits6_iff])
    (fun w => by simp +contextual [decode79])

theorem fadd (p : Pred) (rt ra rb : Nat) : Statement (.fadd p rt ra rb) :=
  of_FR3 rfl rfl (by decide) (fun h => by simp_all [Instr.wellFormed, Pred.fits_iff, fits6_iff])
    (fun w => by simp +contextual [decode78])

theorem fsub (p : Pred) (rt ra rb : Nat) : Statement (.fsub p rt ra rb) :=
  of_FR3 rfl rfl (by decide) (fun h => by simp_all [Instr.wellFormed, Pred.fits_iff, fits6_iff])
    (fun w => by simp +contextual [decode78])

theorem fmul (p : Pred) (rt ra rb : Nat) : Statement (.fmul p rt ra rb) :=
  of_FR3 rfl rfl (by decide) (fun h => by simp_all [Instr.wellFormed, Pred.fits_iff, fits6_iff])
    (fun w => by simp +contextual [decode78])

theorem fdiv (p : Pred) (rt ra rb : Nat) : Statement (.fdiv p rt ra rb) :=
  of_FR3 rfl rfl (by decide) (fun h => by simp_all [Instr.wellFormed, Pred.fits_iff, fits6_iff])
    (fun w => by simp +contextual [decode78])

theorem fadds (p : Pred) (rt ra rb : Nat) : Statement (.fadds p rt ra rb) :=
  of_FR3 rfl rfl (by decide) (fun h => by simp_all [Instr.wellFormed, Pred.fits_iff, fits6_iff])
    (fun w => by simp +contextual [decode78])

theorem fsubs (p : Pred) (rt ra rb : Nat) : Statement (.fsubs p rt ra rb) :=
  of_FR3 rfl rfl (by decide) (fun h => by simp_all [Instr.wellFormed, Pred.fits_iff, fits6_iff])
    (fun w => by simp +contextual [decode78])

theorem fmuls (p : Pred) (rt ra rb : Nat) : Statement (.fmuls p rt ra rb) :=
  of_FR3 rfl rfl (by decide) (fun h => by simp_all [Instr.wellFormed, Pred.fits_iff, fits6_iff])
    (fun w => by simp +contextual [decode78])

theorem fdivs (p : Pred) (rt ra rb : Nat) : Statement (.fdivs p rt ra rb) :=
  of_FR3 rfl rfl (by decide) (fun h => by simp_all [Instr.wellFormed, Pred.fits_iff, fits6_iff])
    (fun w => by simp +contextual [decode78])

theorem fcmp (p : Pred) (pt ra rb : Nat) : Statement (.fcmp p pt ra rb) :=
  of_FC32 rfl rfl (by decide) (fun h => by simp_all [Instr.wellFormed, Pred.fits_iff, fits6_iff, fits4_iff])
    (fun w => by simp +contextual [decodeCompare])

theorem fcmps (p : Pred) (pt ra rb : Nat) : Statement (.fcmps p pt ra rb) :=
  of_FC32 rfl rfl (by decide) (fun h => by simp_all [Instr.wellFormed, Pred.fits_iff, fits6_iff, fits4_iff])
    (fun w => by simp +contextual [decodeCompare])

theorem ftst (p : Pred) (pt ra : Nat) : Statement (.ftst p pt ra) :=
  of_FT24 rfl rfl (by decide) (fun h => by simp_all [Instr.wellFormed, Pred.fits_iff, fits6_iff, fits4_iff])
    (fun w => by simp +contextual [decodeTest])

theorem ftsts (p : Pred) (pt ra : Nat) : Statement (.ftsts p pt ra) :=
  of_FT24 rfl rfl (by decide) (fun h => by simp_all [Instr.wellFormed, Pred.fits_iff, fits6_iff, fits4_iff])
    (fun w => by simp +contextual [decodeTest])

theorem fmacS (p : Pred) (rt ra rb rc : Nat) : Statement (.fmacS p rt ra rb rc) :=
  of_FR4 rfl rfl (by decide) (fun h => by simp_all [Instr.wellFormed, Pred.fits_iff, fits6_iff])
    (fun w => by simp +contextual [decode76])

theorem fmasS (p : Pred) (rt ra rb rc : Nat) : Statement (.fmasS p rt ra rb rc) :=
  of_FR4 rfl rfl (by decide) (fun h => by simp_all [Instr.wellFormed, Pred.fits_iff, fits6_iff])
    (fun w => by simp +contextual [decode76])

theorem fnmacS (p : Pred) (rt ra rb rc : Nat) : Statement (.fnmacS p rt ra rb rc) :=
  of_FR4 rfl rfl (by decide) (fun h => by simp_all [Instr.wellFormed, Pred.fits_iff, fits6_iff])
    (fun w => by simp +contextual [decode76])

theorem fnmasS (p : Pred) (rt ra rb rc : Nat) : Statement (.fnmasS p rt ra rb rc) :=
  of_FR4 rfl rfl (by decide) (fun h => by simp_all [Instr.wellFormed, Pred.fits_iff, fits6_iff])
    (fun w => by simp +contextual [decode76])

theorem fmac (p : Pred) (rt ra rb rc : Nat) : Statement (.fmac p rt ra rb rc) :=
  of_FR4 rfl rfl (by decide) (fun h => by simp_all [Instr.wellFormed, Pred.fits_iff, fits6_iff])
    (fun w => by simp +contextual [decode76])

theorem fmas (p : Pred) (rt ra rb rc : Nat) : Statement (.fmas p rt ra rb rc) :=
  of_FR4 rfl rfl (by decide) (fun h => by simp_all [Instr.wellFormed, Pred.fits_iff, fits6_iff])
    (fun w => by simp +contextual [decode76])

theorem fnmac (p : Pred) (rt ra rb rc : Nat) : Statement (.fnmac p rt ra rb rc) :=
  of_FR4 rfl rfl (by decide) (fun h => by simp_all [Instr.wellFormed, Pred.fits_iff, fits6_iff])
    (fun w => by simp +contextual [decode76])

theorem fnmas (p : Pred) (rt ra rb rc : Nat) : Statement (.fnmas p rt ra rb rc) :=
  of_FR4 rfl rfl (by decide) (fun h => by simp_all [Instr.wellFormed, Pred.fits_iff, fits6_iff])
    (fun w => by simp +contextual [decode76])

end Sys2Proof.Laws.DecodeEncode
end

