-- ==== Sys2Proof/Laws/Status.lean ====
section
/-! SUPPORT. The instructions that record a status, run with any FPSCR: what they compute does not depend on it, only
their tail reads it (R128, R130, R35). -/

namespace Sys2Proof.Machine

@[simp] theorem fpOperand_setFpscr (s : State) (w : FpscrWord) (f : Fmt) (r : Nat) :
    (s.setFpscr w).fpOperand f r = s.fpOperand f r := rfl
@[simp] theorem nanDraw_setFpscr (s : State) (w : FpscrWord) (f : Fmt) : (s.setFpscr w).nanDraw f = s.nanDraw f := rfl
@[simp] theorem resultWord_setFpscr (s : State) (w : FpscrWord) (f : Fmt) (v : Word) :
    (s.setFpscr w).resultWord f v = s.resultWord f v := rfl

/-- The arithmetic bodies compute the same under any FPSCR (R160). -/
theorem arithBody_setFpscr (f : Fmt) (op : FpOp) (rt ra rb : Nat) (s : State) (w : FpscrWord) :
    arithBody f op rt ra rb (s.setFpscr w) = fpFinish f rt (s.arithResult f op ra rb) (s.setFpscr w) := rfl

/-- So do the bodies of ITOF and ITOFS (R207). -/
theorem itofBody_setFpscr (f : Fmt) (rt ra : Nat) (s : State) (w : FpscrWord) :
    itofBody f rt ra (s.setFpscr w) = fpFinish f rt (iToF f s.params.tininess (s.readX ra)) (s.setFpscr w) := rfl

/-- So do the bodies of FTOI and FTOIS (R202). -/
theorem ftoiBody_setFpscr (f : Fmt) (rt ra : Nat) (s : State) (w : FpscrWord) :
    ftoiBody f rt ra (s.setFpscr w) =
      intFinish rt (fToI f s.params.ftoiRound (Config.freeInteger s.draws) (s.fpOperand f ra)) (s.setFpscr w) := rfl

/-- So do the multiply-accumulate bodies (R263). -/
theorem macBody_setFpscr (f : Fmt) (subc negr : Bool) (rt ra rb rc : Nat) (s : State) (w : FpscrWord) :
    macBody f subc negr rt ra rb rc (s.setFpscr w) = fpFinish f rt (s.macResult f subc negr ra rb rc) (s.setFpscr w) :=
  rfl

/-- What an instruction that records a status does, whatever FPSCR is. -/
def StatusShape (i : Instr) (s : State) : Prop :=
  ∃ rt word cls r, i.target = some rt ∧ r.Ok ∧
    ∀ v, exec i (s.setFpscr v) = advanceNext i.length (finishWith rt word cls r (s.setFpscr v))

/-- The shape, from a body that ends in `fpFinish`. -/
theorem statusShape_fp {i : Instr} {s : State} {p : Pred} {len rt : Nat} {body : State → Result} {f : Fmt}
    {r : FpResult} (hp : s.predTrue p = true)
    (he : ∀ v, exec i (s.setFpscr v) = predicated p len body (s.setFpscr v)) (ht : i.target = some rt)
    (hl : i.length = len) (hok : r.Ok)
    (hb : ∀ v, body (s.setFpscr v) = fpFinish f rt r (s.setFpscr v)) : StatusShape i s := by
  subst hl
  exact ⟨rt, s.resultWord f r.bits, classBits f r.bits, r, ht, hok, fun v => by
    rw [he, predicated_true (s := s.setFpscr v) hp, hb]; rfl⟩

/-- The shape, from a body that ends in `intFinish`. -/
theorem statusShape_int {i : Instr} {s : State} {p : Pred} {len rt : Nat} {body : State → Result} {r : FpResult}
    (hp : s.predTrue p = true) (he : ∀ v, exec i (s.setFpscr v) = predicated p len body (s.setFpscr v))
    (ht : i.target = some rt) (hl : i.length = len) (hok : r.Ok)
    (hb : ∀ v, body (s.setFpscr v) = intFinish rt r (s.setFpscr v)) : StatusShape i s := by
  subst hl
  exact ⟨rt, r.bits, Config.freeClass s.draws, r, ht, hok, fun v => by
    rw [he, predicated_true (s := s.setFpscr v) hp, hb]; rfl⟩

/-- The result of every arithmetic instruction is `Ok`. -/
theorem arith_ok (s : State) (f : Fmt) (op : FpOp) (ra rb : Nat) : (s.arithResult f op ra rb).Ok := ok_fpArith _ _ _ _ _ _

/-- The result of every multiply-accumulate instruction is `Ok`. -/
theorem mac_ok (s : State) (f : Fmt) (subc negr : Bool) (ra rb rc : Nat) : (s.macResult f subc negr ra rb rc).Ok :=
  ok_fMacOp _ _ _ _ _ _ _ _ _ _

/-- An instruction that records a status: its result does not depend on FPSCR, which only its tail reads. -/
theorem exec_status {i : Instr} {s : State} (hs : i.recordsStatus = true) (hp : s.predTrue i.pred = true)
    (hpl : i.isPlanned = true → s.params.fmacImplemented = true) : StatusShape i s := by
  cases i
  case fadd =>
    exact statusShape_fp hp (fun _ => rfl) rfl rfl (arith_ok _ _ _ _ _) (arithBody_setFpscr .double .add _ _ _ s)
  case fsub =>
    exact statusShape_fp hp (fun _ => rfl) rfl rfl (arith_ok _ _ _ _ _) (arithBody_setFpscr .double .sub _ _ _ s)
  case fmul =>
    exact statusShape_fp hp (fun _ => rfl) rfl rfl (arith_ok _ _ _ _ _) (arithBody_setFpscr .double .mul _ _ _ s)
  case fdiv =>
    exact statusShape_fp hp (fun _ => rfl) rfl rfl (arith_ok _ _ _ _ _) (arithBody_setFpscr .double .div _ _ _ s)
  case ftoi => exact statusShape_int hp (fun _ => rfl) rfl rfl (ok_fToI _ _ _ _) (ftoiBody_setFpscr .double _ _ s)
  case itof => exact statusShape_fp hp (fun _ => rfl) rfl rfl (ok_iToF _ _ _) (itofBody_setFpscr .double _ _ s)
  case fmac =>
    exact statusShape_fp hp (fun _ => planned_true (hpl rfl)) rfl rfl (mac_ok _ _ _ _ _ _ _)
      (macBody_setFpscr .double false false _ _ _ _ s)
  case fnmac =>
    exact statusShape_fp hp (fun _ => planned_true (hpl rfl)) rfl rfl (mac_ok _ _ _ _ _ _ _)
      (macBody_setFpscr .double false true _ _ _ _ s)
  case fmas =>
    exact statusShape_fp hp (fun _ => planned_true (hpl rfl)) rfl rfl (mac_ok _ _ _ _ _ _ _)
      (macBody_setFpscr .double true false _ _ _ _ s)
  case fnmas =>
    exact statusShape_fp hp (fun _ => planned_true (hpl rfl)) rfl rfl (mac_ok _ _ _ _ _ _ _)
      (macBody_setFpscr .double true true _ _ _ _ s)
  case fadds =>
    exact statusShape_fp hp (fun _ => rfl) rfl rfl (arith_ok _ _ _ _ _) (arithBody_setFpscr .single .add _ _ _ s)
  case fsubs =>
    exact statusShape_fp hp (fun _ => rfl) rfl rfl (arith_ok _ _ _ _ _) (arithBody_setFpscr .single .sub _ _ _ s)
  case fmuls =>
    exact statusShape_fp hp (fun _ => rfl) rfl rfl (arith_ok _ _ _ _ _) (arithBody_setFpscr .single .mul _ _ _ s)
  case fdivs =>
    exact statusShape_fp hp (fun _ => rfl) rfl rfl (arith_ok _ _ _ _ _) (arithBody_setFpscr .single .div _ _ _ s)
  case ftois => exact statusShape_int hp (fun _ => rfl) rfl rfl (ok_fToI _ _ _ _) (ftoiBody_setFpscr .single _ _ s)
  case itofs => exact statusShape_fp hp (fun _ => rfl) rfl rfl (ok_iToF _ _ _) (itofBody_setFpscr .single _ _ s)
  case fmacS =>
    exact statusShape_fp hp (fun _ => planned_true (hpl rfl)) rfl rfl (mac_ok _ _ _ _ _ _ _)
      (macBody_setFpscr .single false false _ _ _ _ s)
  case fnmacS =>
    exact statusShape_fp hp (fun _ => planned_true (hpl rfl)) rfl rfl (mac_ok _ _ _ _ _ _ _)
      (macBody_setFpscr .single false true _ _ _ _ s)
  case fmasS =>
    exact statusShape_fp hp (fun _ => planned_true (hpl rfl)) rfl rfl (mac_ok _ _ _ _ _ _ _)
      (macBody_setFpscr .single true false _ _ _ _ s)
  case fnmasS =>
    exact statusShape_fp hp (fun _ => planned_true (hpl rfl)) rfl rfl (mac_ok _ _ _ _ _ _ _)
      (macBody_setFpscr .single true true _ _ _ _ s)
  all_goals cases hs

/-- A field that is no enable bit does not tell which kinds are enabled (R33, R146). -/
theorem enabledOf_setField (k : Kinds) (v : FpscrWord) {lo n : Nat} (x : BitVec n) (h : lo + n ≤ 32)
    (hd : lo + n ≤ 24 ∨ 29 ≤ lo) : enabledOf k (setField v lo x) = enabledOf k v := by
  apply BitVec.eq_of_getLsbD_eq
  intro i hi
  rw [getLsbD_enabledOf _ _ hi, getLsbD_enabledOf _ _ hi, getLsbD_setField _ _ _ _ h, if_neg (by omega)]

/-- The result status is overwritten: what it was does not show (R35). -/
theorem finishedFpscr_setField_status (pol : GxPolicy) (cls : BitVec 5) (r : FpResult) (v : FpscrWord) (x : BitVec 7) :
    finishedFpscr pol cls r (setField v 16 x) = finishedFpscr pol cls r v := by
  apply BitVec.eq_of_getLsbD_eq
  intro i hi
  rw [getLsbD_finishedFpscr, getLsbD_finishedFpscr, enabledOf_setField _ _ _ (by omega) (by omega),
    getLsbD_setField _ _ _ _ (by omega), getLsbD_setField _ _ _ _ (by omega)]
  repeat' split
  all_goals first | rfl | omega

/-- RM passes through recording a result (R130). -/
theorem finishedFpscr_setField_rm (pol : GxPolicy) (cls : BitVec 5) (r : FpResult) (v : FpscrWord) (x : BitVec 3) :
    finishedFpscr pol cls r (setField v 29 x) = setField (finishedFpscr pol cls r v) 29 x := by
  apply BitVec.eq_of_getLsbD_eq
  intro i hi
  rw [getLsbD_setField _ _ _ _ (by omega), getLsbD_finishedFpscr, getLsbD_finishedFpscr,
    enabledOf_setField _ _ _ (by omega) (by omega), getLsbD_setField _ _ _ _ (by omega),
    getLsbD_setField _ _ _ _ (by omega)]
  repeat' split
  all_goals first | rfl | omega

/-- RM passes through recording kinds (R130). -/
theorem recordKinds_setField_rm (pol : GxPolicy) (k : Kinds) (v : FpscrWord) (x : BitVec 3) :
    recordKinds pol k (setField v 29 x) = setField (recordKinds pol k v) 29 x := by
  apply BitVec.eq_of_getLsbD_eq
  intro i hi
  rw [getLsbD_setField _ _ _ _ (by omega), getLsbD_recordKinds, getLsbD_recordKinds,
    enabledOf_setField _ _ _ (by omega) (by omega)]
  simp only [getLsbD_setField _ _ _ _ (show 29 + 3 ≤ 32 by omega)]
  repeat' split
  all_goals first | rfl | omega

/-- A register is written alike from any pc (R25). -/
theorem writeX_setPc (s : State) (r : Nat) (v : Word) (a : Addr) :
    ({ s with pc := a } : State).writeX r v = { s.writeX r v with pc := a } := by
  unfold State.writeX
  split <;> rfl

/-- Kinds are signalled alike from any pc (R25, R146). -/
theorem signal_setPc (k : Kinds) (s : State) (a : Addr) :
    signal k { s with pc := a } = onState (fun t => { t with pc := a }) (signal k s) := by
  unfold signal
  simp only
  split <;> rfl

/-- The shared tail does alike from any pc (R25, R147). -/
theorem finishWith_setPc (rt : Nat) (word : Word) (cls : BitVec 5) (r : FpResult) (s : State) (a : Addr) :
    finishWith rt word cls r { s with pc := a } =
      onState (fun t => { t with pc := a }) (finishWith rt word cls r s) := by
  by_cases h : enabledOf r.kinds s.fpscr = 0
  · rw [finishWith_disabled h, finishWith_disabled (s := { s with pc := a }) h]
    simp only [onState]
    rw [← writeX_setPc]
    rfl
  · rw [finishWith_enabled h, finishWith_enabled (s := { s with pc := a }) h]
    simp only [onState]
    rw [← writeX_setPc]
    rfl

end Sys2Proof.Machine
end

