-- ==== Sys2Proof/Tests/Slice0.lean ====
section
/-! SUPPORT. Tests of the model, and a witness of the hypotheses of every obligation that has some. Expected results come
from the spec: its encodings (30_encoding.md), the examples of its rules, and the vectors V-.. of 95_test_vectors.md. -/

namespace Sys2Proof.Tests

open Sys2Proof.Machine

-- One theorem at a time: each kernel evaluation waits for the one before it, and waiting costs a thread.
set_option Elab.async false

/-! ### Well-formedness: one ill-formed term for each check -/

/-- Predicate byte (R83). -/
theorem test_ill_formed_predicate :
    (Instr.fmov ⟨16, 0⟩ 0 0).wellFormed = false ∧ (Instr.fmov ⟨0, 16⟩ 0 0).wellFormed = false ∧
    (Instr.fstat ⟨16, 0⟩ 0).wellFormed = false ∧ (Instr.ftx ⟨0, 16⟩ 0 0).wellFormed = false ∧
    (Instr.fadd ⟨16, 0⟩ 0 0 0).wellFormed = false ∧ (Instr.fcmp ⟨0, 16⟩ 0 0 0).wellFormed = false ∧
    (Instr.ftst ⟨16, 0⟩ 0 0).wellFormed = false ∧ (Instr.fmac ⟨0, 16⟩ 0 0 0 0).wellFormed = false := by decide

/-- Register fields and the immediate (R84, R85). -/
theorem test_ill_formed_operands :
    (Instr.fmov ⟨0, 0⟩ 64 0).wellFormed = false ∧ (Instr.itofs ⟨0, 0⟩ 0 64).wellFormed = false ∧
    (Instr.fstat ⟨0, 0⟩ 64).wellFormed = false ∧
    (Instr.frm ⟨0, 0⟩ 64 0).wellFormed = false ∧ (Instr.fdx ⟨0, 0⟩ 0 64).wellFormed = false ∧
    (Instr.fadd ⟨0, 0⟩ 64 0 0).wellFormed = false ∧ (Instr.fsub ⟨0, 0⟩ 0 64 0).wellFormed = false ∧
    (Instr.fdivs ⟨0, 0⟩ 0 0 64).wellFormed = false ∧
    (Instr.fcmp ⟨0, 0⟩ 16 0 0).wellFormed = false ∧ (Instr.fcmp ⟨0, 0⟩ 0 64 0).wellFormed = false ∧
    (Instr.fcmps ⟨0, 0⟩ 0 0 64).wellFormed = false ∧
    (Instr.ftst ⟨0, 0⟩ 16 0).wellFormed = false ∧ (Instr.ftsts ⟨0, 0⟩ 0 64).wellFormed = false ∧
    (Instr.fmac ⟨0, 0⟩ 64 0 0 0).wellFormed = false ∧ (Instr.fmas ⟨0, 0⟩ 0 64 0 0).wellFormed = false ∧
    (Instr.fnmacS ⟨0, 0⟩ 0 0 64 0).wellFormed = false ∧ (Instr.fnmas ⟨0, 0⟩ 0 0 0 64).wellFormed = false := by decide

/-! ### Decoding: every constructor's word, bit by bit from the figures -/

/-- Opcode byte 77h (R89, R90, R93); FSTAT with its unused field not zero (R99). -/
theorem test_decode_double :
    decodeTableWord 32 0b0000_000111_100001_0111_0111_1010_0101 = some (.fmov ⟨10, 5⟩ 7 33) ∧
    decodeTableWord 32 0b0010_000111_100001_0111_0111_1010_0101 = some (.ftoi ⟨10, 5⟩ 7 33) ∧
    decodeTableWord 32 0b0011_000111_100001_0111_0111_1010_0101 = some (.itof ⟨10, 5⟩ 7 33) ∧
    decodeTableWord 32 0b0100_000111_100001_0111_0111_1010_0101 = some (.fneg ⟨10, 5⟩ 7 33) ∧
    decodeTableWord 32 0b0101_000111_100001_0111_0111_1010_0101 = some (.fabs ⟨10, 5⟩ 7 33) ∧
    decodeTableWord 32 0b0110_000111_100001_0111_0111_1010_0101 = some (.fsign ⟨10, 5⟩ 7 33) ∧
    decodeTableWord 32 0b0111_000111_100001_0111_0111_1010_0101 = some (.fman ⟨10, 5⟩ 7 33) ∧
    decodeTableWord 32 0b1100_000111_100001_0111_0111_1010_0101 = some (.fstat ⟨10, 5⟩ 7) ∧
    decodeTableWord 32 0b1101_110100_100001_0111_0111_1010_0101 = some (.frm ⟨10, 5⟩ 33 52) := by decide +kernel

/-- Opcode byte 79h (R89, R90, R94). -/
theorem test_decode_single :
    decodeTableWord 32 0b0000_000111_100001_0111_1001_1010_0101 = some (.fmovs ⟨10, 5⟩ 7 33) ∧
    decodeTableWord 32 0b0010_000111_100001_0111_1001_1010_0101 = some (.ftois ⟨10, 5⟩ 7 33) ∧
    decodeTableWord 32 0b0011_000111_100001_0111_1001_1010_0101 = some (.itofs ⟨10, 5⟩ 7 33) ∧
    decodeTableWord 32 0b0100_000111_100001_0111_1001_1010_0101 = some (.fnegs ⟨10, 5⟩ 7 33) ∧
    decodeTableWord 32 0b0101_000111_100001_0111_1001_1010_0101 = some (.fabss ⟨10, 5⟩ 7 33) ∧
    decodeTableWord 32 0b0110_000111_100001_0111_1001_1010_0101 = some (.fsigns ⟨10, 5⟩ 7 33) ∧
    decodeTableWord 32 0b0111_000111_100001_0111_1001_1010_0101 = some (.fmans ⟨10, 5⟩ 7 33) ∧
    decodeTableWord 32 0b1100_110100_100001_0111_1001_1010_0101 = some (.ftx ⟨10, 5⟩ 33 52) ∧
    decodeTableWord 32 0b1101_110100_100001_0111_1001_1010_0101 = some (.fcx ⟨10, 5⟩ 33 52) ∧
    decodeTableWord 32 0b1110_110100_100001_0111_1001_1010_0101 = some (.fex ⟨10, 5⟩ 33 52) ∧
    decodeTableWord 32 0b1111_110100_100001_0111_1001_1010_0101 = some (.fdx ⟨10, 5⟩ 33 52) := by decide +kernel

/-- Opcode byte 78h (R91, R95). -/
theorem test_decode_arithmetic :
    decodeTableWord 40 0b001000_000111_010010_100001_0111_1000_1010_0101 = some (.fadd ⟨10, 5⟩ 7 33 18) ∧
    decodeTableWord 40 0b001001_000111_010010_100001_0111_1000_1010_0101 = some (.fsub ⟨10, 5⟩ 7 33 18) ∧
    decodeTableWord 40 0b001010_000111_010010_100001_0111_1000_1010_0101 = some (.fmul ⟨10, 5⟩ 7 33 18) ∧
    decodeTableWord 40 0b001011_000111_010010_100001_0111_1000_1010_0101 = some (.fdiv ⟨10, 5⟩ 7 33 18) ∧
    decodeTableWord 40 0b011000_000111_010010_100001_0111_1000_1010_0101 = some (.fadds ⟨10, 5⟩ 7 33 18) ∧
    decodeTableWord 40 0b011001_000111_010010_100001_0111_1000_1010_0101 = some (.fsubs ⟨10, 5⟩ 7 33 18) ∧
    decodeTableWord 40 0b011010_000111_010010_100001_0111_1000_1010_0101 = some (.fmuls ⟨10, 5⟩ 7 33 18) ∧
    decodeTableWord 40 0b011011_000111_010010_100001_0111_1000_1010_0101 = some (.fdivs ⟨10, 5⟩ 7 33 18) := by decide +kernel

/-- Opcode bytes 1Bh and 0Bh: the target predicate is the low nibble (R87, R88, R97). -/
theorem test_decode_compare :
    decodeTableWord 32 0b0010_010010_100001_0001_1011_1010_0101 = some (.fcmp ⟨10, 5⟩ 11 33 18) ∧
    decodeTableWord 32 0b0001_010010_100001_0001_1011_1010_0101 = some (.fcmps ⟨10, 5⟩ 11 33 18) ∧
    decodeTableWord 24 0b10_100001_0000_1011_1010_0101 = some (.ftst ⟨10, 5⟩ 11 33) ∧
    decodeTableWord 24 0b01_100001_0000_1011_1010_0101 = some (.ftsts ⟨10, 5⟩ 11 33) := by decide +kernel

/-- Opcode byte 76h (R92, R96). -/
theorem test_decode_planned :
    decodeTableWord 48 0b000_01000_000111_101100_010010_100001_0111_0110_1010_0101 = some (.fmacS ⟨10, 5⟩ 7 33 18 44) ∧
    decodeTableWord 48 0b000_01001_000111_101100_010010_100001_0111_0110_1010_0101 = some (.fmasS ⟨10, 5⟩ 7 33 18 44) ∧
    decodeTableWord 48 0b000_01010_000111_101100_010010_100001_0111_0110_1010_0101 = some (.fnmacS ⟨10, 5⟩ 7 33 18 44) ∧
    decodeTableWord 48 0b000_01011_000111_101100_010010_100001_0111_0110_1010_0101 = some (.fnmasS ⟨10, 5⟩ 7 33 18 44) ∧
    decodeTableWord 48 0b000_10000_000111_101100_010010_100001_0111_0110_1010_0101 = some (.fmac ⟨10, 5⟩ 7 33 18 44) ∧
    decodeTableWord 48 0b000_10001_000111_101100_010010_100001_0111_0110_1010_0101 = some (.fmas ⟨10, 5⟩ 7 33 18 44) ∧
    decodeTableWord 48 0b000_10010_000111_101100_010010_100001_0111_0110_1010_0101 = some (.fnmac ⟨10, 5⟩ 7 33 18 44) ∧
    decodeTableWord 48 0b000_10011_000111_101100_010010_100001_0111_0110_1010_0101 = some (.fnmas ⟨10, 5⟩ 7 33 18 44) := by decide +kernel

/-- A row's decoding reads no more than the row's bits. -/
theorem test_table_word_is_cut : decodeTableWord 24 0xFFFF8102A5 = some (.ftst ⟨10, 5⟩ 2 1) := by decide +kernel

/-- Words the source does not list (R81, R93, R95, R97, V-D4 to V-D9), and a word cut short. -/
theorem test_decode_rejects :
    decode [0xA5, 0x77, 0x81, 0x10] = .reject (.unlistedFunction 0x77 1) ∧
    decode [0xA5, 0x78, 0x81, 0x30, 0x00] = .reject (.unlistedFunction 0x78 0) ∧
    decode [0xA5, 0x7A, 0x00, 0x00] = .reject (.unlistedOpcode 0x7A) ∧
    decode [0xA5, 0x02, 0xC1] = .reject (.unlistedFunction 0x02 3) ∧
    decode [0xA5, 0x02, 0x01] = .reject (.unlistedFunction 0x02 0) ∧
    decode [0xA5, 0x11, 0x81, 0x30] = .reject (.unlistedFunction 0x11 3) ∧
    decode [0xA5, 0x76, 0x81, 0x30, 0x10, 0xEC] = .reject (.unlistedFunction 0x76 12) ∧
    decode [0xA5, 0x78, 0x81, 0x30] = .reject .truncated ∧ decode [0xA5] = .reject .truncated := by decide +kernel

/-! ### One step -/

/-- A machine about to run the bytes, at address 0, with three registers and FPSCR set; every predicate holds. -/
def testState (bytes : List Byte) (x1 x2 x3 : Word) (v : FpscrWord) : State :=
  { (((State.reset.writeX 1 x1).writeX 2 x2).writeX 3 x3) with fpscr := v, mem := State.reset.mem.writeBytes 0 bytes }

/-- The same, with the planned family implemented. -/
def macState (fused : Bool) (bytes : List Byte) (x1 x2 x3 : Word) : State :=
  { testState bytes x1 x2 x3 0 with params := { resetParams with fmacImplemented := true, fmacFused := fused } }

/-- The step gives a next state with this pc and FPSCR. -/
def goesOn (s : State) (pc : Addr) (v : FpscrWord) : Bool :=
  match step s with
  | .next t => t.pc = pc && t.fpscr = v
  | _ => false

/-- The step gives a next state with this pc and FPSCR, and this value in a register. -/
def writes (s : State) (pc : Addr) (r : Nat) (x : Word) (v : FpscrWord) : Bool :=
  match step s with
  | .next t => t.pc = pc && t.readX r = x && t.fpscr = v
  | _ => false

/-- The step gives a next state with this pc, these flags, and FPSCR as it was. -/
def sets (s : State) (pc : Addr) (q : Nat) (f : PredFlags) : Bool :=
  match step s with
  | .next t => t.pc = pc && t.readP q = f && t.fpscr = s.fpscr
  | _ => false

/-- The step delivers these kinds, at the same pc, with this FPSCR. -/
def delivers (s : State) (k : Kinds) (v : FpscrWord) : Bool :=
  match step s with
  | .fault (.fpException en d) => en = k && d.pc = s.pc && d.fpscr = v
  | _ => false

/-- The state after a step that has one. -/
def after (s : State) : State :=
  match step s with
  | .next t => t
  | _ => s

/-- Every predicate of a machine with the reset parameters holds (log 2). -/
theorem predicate_holds {s : State} (p : Pred) (h : s.params.condTable = resetParams.condTable := by rfl) :
    s.predTrue p = true := by
  have all : ∀ (a b : Fin 16), (resetParams.condTable[a])[b] = true := by decide +kernel
  unfold State.predTrue Params.condHolds
  rw [h]
  exact all _ _

/-- FADD: V-A1 and V-A7. -/
theorem test_fadd :
    writes (testState [0x00, 0x78, 0x81, 0x30, 0x20] 0x3FF0000000000000 0x4000000000000000 0 0)
      5 3 0x4008000000000000 0x00040000 = true ∧
    fpArith .double .afterRounding .add 7 0x7FF0000000000001 0x3FF0000000000000 = .invalid 0 7 := by decide +kernel

/-- FSUB: V-A12 and V-A10. -/
theorem test_fsub :
    writes (testState [0x00, 0x78, 0x81, 0x30, 0x24] 0x3FF0000000000000 0x4000000000000000 0 0)
      5 3 0xBFF0000000000000 0x00080000 = true ∧
    fpArith .double .afterRounding .sub 7 0x7FF0000000000000 0x7FF0000000000000 = .invalid 1 7 := by decide +kernel

/-- FMUL: V-A16 (overflow) and V-A17 (underflow). -/
theorem test_fmul :
    writes (testState [0x00, 0x78, 0x81, 0x30, 0x28] 0x7FEFFFFFFFFFFFFF 0x4000000000000000 0 0)
      5 3 0x7FF0000000000000 0x00654900 = true ∧
    writes (testState [0x00, 0x78, 0x81, 0x30, 0x28] 0x0000000000000001 0x3FD0000000000000 0 0)
      5 3 0x0000000000000000 0x00425100 = true := by decide +kernel

/-- FDIV: V-A25 (inexact) and V-A20 (divide by zero). -/
theorem test_fdiv :
    writes (testState [0x00, 0x78, 0x81, 0x30, 0x2C] 0x3FF0000000000000 0x4008000000000000 0 0)
      5 3 0x3FD5555555555555 0x00444100 = true ∧
    writes (testState [0x00, 0x78, 0x81, 0x30, 0x2C] 0xBFF0000000000000 0x0000000000000000 0 0)
      5 3 0xFFF0000000000000 0x00092100 = true := by decide +kernel

/-- Enabled kinds are delivered: V-A27 and V-A29 (of two kinds, the enabled one). -/
theorem test_arithmetic_delivers :
    delivers (testState [0x00, 0x78, 0x81, 0x30, 0x2C] 0x3FF0000000000000 0x0000000000000000 0 0x08000000)
      0b01000 0x08052100 = true ∧
    delivers (testState [0x00, 0x78, 0x81, 0x30, 0x28] 0x7FEFFFFFFFFFFFFF 0x4000000000000000 0 0x02000000)
      0b00010 0x02654900 = true := by decide +kernel

/-- FADDS: V-B9 (upper halves of the operands do not matter). -/
theorem test_fadds :
    goesOn (testState [0x00, 0x78, 0x81, 0x30, 0x60] 0xFFFFFFFF3F800000 0x123456783F800000 0 0) 5 0x00040000 = true ∧
    fpArith .single .afterRounding .add 0 0x3F800000 0x3F800000 = .exact 0x40000000 := by decide +kernel

/-- FSUBS: V-B2, and the operand order of R161. -/
theorem test_fsubs :
    goesOn (testState [0x00, 0x78, 0x81, 0x30, 0x64] 0x3F800000 0x40000000 0 0) 5 0x00080000 = true ∧
    fpArith .single .afterRounding .sub 7 0x7F800000 0x7F800000 = .invalid 1 7 ∧
    fpArith .single .afterRounding .sub 0 0x3F800000 0x40000000 = .exact 0xBF800000 := by decide +kernel

/-- FMULS: V-B8 and V-B3. -/
theorem test_fmuls :
    goesOn (testState [0x00, 0x78, 0x81, 0x30, 0x68] 0x00800000 0x3F000000 0 0) 5 0x00140000 = true ∧
    fpArith .single .afterRounding .mul 7 0x7F800000 0x80000000 = .invalid 4 7 := by decide +kernel

/-- FDIVS: V-B5, the value and the status. -/
theorem test_fdivs :
    goesOn (testState [0x00, 0x78, 0x81, 0x30, 0x6C] 0x3F800000 0x40400000 0 0) 5 0x00644100 = true ∧
    (fpArith .single .afterRounding .div 0 0x3F800000 0x40400000).bits = 0x3EAAAAAB := by decide +kernel

/-- FMOV and FMOVS: V-S1, V-S2. -/
theorem test_fmov :
    writes (testState [0x00, 0x77, 0x81, 0x00] 0x7FF0000000000001 0 0 0x1F00) 4 2 0x7FF0000000000001 0x1F00 = true ∧
    writes (testState [0x00, 0x79, 0x81, 0x00] 0xDEADBEEF3F800000 0 0 0x1F00) 4 2 0xDEADBEEF3F800000 0x1F00 = true := by
  decide +kernel

/-- FNEG: V-S3 and V-S5. -/
theorem test_fneg :
    writes (testState [0x00, 0x77, 0x81, 0x40] 0 0 0 0x1F00) 4 2 0x8000000000000000 0x1F00 = true ∧
    writes (testState [0x00, 0x77, 0x81, 0x40] 0x7FF8000000000001 0 0 0) 4 2 0xFFF8000000000001 0 = true := by
  decide +kernel

/-- FABS: V-S8 and V-S9. -/
theorem test_fabs :
    writes (testState [0x00, 0x77, 0x81, 0x50] 0xFFF0000000000001 0 0 0) 4 2 0x7FF0000000000001 0 = true ∧
    writes (testState [0x00, 0x77, 0x81, 0x50] 0xC008000000000000 0 0 0) 4 2 0x4008000000000000 0 = true := by
  decide +kernel

/-- FNEGS and FABSS: V-S6, V-S10, the low halves. -/
theorem test_fnegs_fabss :
    ((after (testState [0x00, 0x79, 0x81, 0x40] 0x3F800000 0 0 0)).readX 2).setWidth 32 = 0xBF800000#32 ∧
    ((after (testState [0x00, 0x79, 0x81, 0x50] 0xC0400000 0 0 0)).readX 2).setWidth 32 = 0x40400000#32 := by
  have h1 : (after (testState [0x00, 0x79, 0x81, 0x40] 0x3F800000 0 0 0)).readX 2 =
      State.reset.singleResult 0xBF800000 := rfl
  have h2 : (after (testState [0x00, 0x79, 0x81, 0x50] 0xC0400000 0 0 0)).readX 2 =
      State.reset.singleResult 0x40400000 := rfl
  rw [h1, h2, singleResult_low, singleResult_low]
  decide

/-- FSIGN: V-S12 and V-S15. -/
theorem test_fsign :
    writes (testState [0x00, 0x77, 0x81, 0x60] 0x8000000000000000 0 0 0) 4 2 0 0 = true ∧
    writes (testState [0x00, 0x77, 0x81, 0x60] 0x8000000000000001 0 0 0) 4 2 0xBFF0000000000000 0 = true := by
  decide +kernel

/-- FSIGNS: V-S18, the low half. -/
theorem test_fsigns :
    ((after (testState [0x00, 0x79, 0x81, 0x60] 0xFF800000 0 0 0)).readX 2).setWidth 32 = 0xBF800000#32 := by
  have h : (after (testState [0x00, 0x79, 0x81, 0x60] 0xFF800000 0 0 0)).readX 2 =
      State.reset.singleResult 0xBF800000 := rfl
  rw [h, singleResult_low]
  decide

/-- FMAN and FMANS: V-S21, V-S22. -/
theorem test_fman :
    writes (testState [0x00, 0x77, 0x81, 0x70] 0xFFFFFFFFFFFFFFFF 0 0 0) 4 2 0x000FFFFFFFFFFFFF 0 = true ∧
    writes (testState [0x00, 0x79, 0x81, 0x70] 0xDEADBEEFFFFFFFFF 0 0 0) 4 2 0x00000000007FFFFF 0 = true := by
  decide +kernel

/-- FTOI: V-C3 and V-C10; the class bits are free, so the value is tested apart from the step. -/
theorem test_ftoi :
    fToI .double .towardZero 7 0xC004000000000000 =
      { bits := 0xFFFFFFFFFFFFFFFE, kinds := 0b10000, types := 0, inexact := true, away := false } ∧
    fToI .double .towardZero 7 0xC3E0000000000000 = .exact 0x8000000000000000 := by decide +kernel

/-- FTOI: V-C9, V-C7: no integer; and the other directions of FTOI_ROUND on 2.5 and -2.5. -/
theorem test_ftoi_corner :
    fToI .double .towardZero 7 0x43E0000000000000 = .invalid 7 7 ∧ fToI .double .towardZero 7 0x7FF0000000000001 = .invalid 7 7 ∧
    roundInt .nearestEven 5 2 = 2 ∧ roundInt .towardNegative (-5) 2 = -3 ∧ roundInt .towardPositive 5 2 = 3 := by
  decide +kernel

/-- FTOIS: V-C16 and V-C14. -/
theorem test_ftois :
    fToI .single .towardZero 7 0x5EFFFFFF = .exact 0x7FFFFF8000000000 ∧
    fToI .single .towardZero 7 0x4F000000 = .exact 0x0000000080000000 := by decide +kernel

/-- ITOF: V-C23 and V-C24. -/
theorem test_itof :
    writes (testState [0x00, 0x77, 0x81, 0x30] 0x0020000000000003 0 0 0) 4 2 0x4340000000000002 0x00644100 = true ∧
    writes (testState [0x00, 0x77, 0x81, 0x30] 0x8000000000000000 0 0 0) 4 2 0xC3E0000000000000 0x00080000 = true := by
  decide +kernel

/-- ITOFS: V-C27, the status and the value. -/
theorem test_itofs :
    goesOn (testState [0x00, 0x79, 0x81, 0x30] 0x0000000001000001 0 0 0) 4 0x00444100 = true ∧
    (iToF .single .afterRounding 0x0000000001000001).bits = 0x4B800000 := by decide +kernel

/-- FCMP: V-P4 and V-P9. -/
theorem test_fcmp :
    sets (testState [0x00, 0x11, 0x81, 0x20] 0x3FF0000000000000 0xC000000000000000 0 0x1F000000)
      4 1 ⟨false, true, false, false⟩ = true ∧
    sets (testState [0x00, 0x11, 0x81, 0x20] 0x3FF0000000000000 0x7FF0000000000001 0 0x1F000000)
      4 1 ⟨false, false, false, true⟩ = true := by decide +kernel

/-- FCMPS: V-P13 and V-P15. -/
theorem test_fcmps :
    sets (testState [0x00, 0x11, 0x81, 0x10] 0xFFFFFFFF3F800000 0x000000003F800000 0 0) 4 1 ⟨false, false, true, false⟩ =
      true ∧
    sets (testState [0x00, 0x11, 0x81, 0x10] 0xBF800000 0x3F000000 0 0) 4 1 ⟨true, false, false, false⟩ = true := by
  decide +kernel

/-- FTST: V-P25 and V-P22. -/
theorem test_ftst :
    sets (testState [0x00, 0x02, 0x81] 0x8000000000000001 0 0 0) 3 2 ⟨true, false, false, false⟩ = true ∧
    sets (testState [0x00, 0x02, 0x81] 0x8000000000000000 0 0 0) 3 2 ⟨false, false, true, false⟩ = true := by
  decide +kernel

/-- FTSTS: V-P28 and V-P29. -/
theorem test_ftsts :
    sets (testState [0x00, 0x02, 0x41] 0x00000000BF800000 0 0 0) 3 2 ⟨true, false, false, false⟩ = true ∧
    sets (testState [0x00, 0x02, 0x41] 0xFFF0000000000000 0 0 0) 3 2 ⟨false, false, true, false⟩ = true := by
  decide +kernel

/-- FRM: V-X18 and V-X20. -/
theorem test_frm :
    goesOn (testState [0x00, 0x77, 0x40, 0xD1] 0 0 0 0) 4 0xA0000000 = true ∧
    goesOn (testState [0x00, 0x77, 0x00, 0xDE] 0 0 0 0xE0000000) 4 0 = true := by decide +kernel

/-- FSTAT: the vector of section 2.6, under either value of the draw in bit 15. -/
theorem test_fstat :
    fpscrRead resetParams 0#1 0xA8052100 = 0xA8052300 ∧ fpscrRead resetParams 1#1 0xA8052100 = 0xA805A300 ∧
    goesOn (testState [0x00, 0x77, 0xC5, 0xC1] 0 0 0 0xA8052100) 4 0xA8052100 = true := by decide +kernel

/-- FTX: V-X8 and V-X11. -/
theorem test_ftx :
    goesOn (testState [0x00, 0x79, 0xC0, 0xC7] 0 0 0 0) 4 0x00007D00 = true ∧
    delivers (testState [0x00, 0x79, 0xC0, 0xC0] 0 0 0 0x02000000) 0b00010 0x02000D00 = true := by decide +kernel

/-- FCX: V-X13 and V-X17. -/
theorem test_fcx :
    goesOn (testState [0x00, 0x79, 0x40, 0xD0] 0 0 0 0x000005FF) 4 0x000001C1 = true ∧
    goesOn (testState [0x00, 0x79, 0xC0, 0xDF] 0 0 0 0xFF7F7DFF) 4 0xFF7F00C1 = true := by decide +kernel

/-- FEX: V-X3, with the mask from register 1, and V-X4. -/
theorem test_fex :
    goesOn (testState [0x00, 0x79, 0x41, 0xE0] 0x42 0 0 0) 4 0x03000000 = true ∧
    goesOn (testState [0x00, 0x79, 0x00, 0xE8] 0 0 0 0) 4 0 = true := by decide +kernel

/-- FDX: V-X6 and V-X7. -/
theorem test_fdx :
    goesOn (testState [0x00, 0x79, 0x40, 0xF1] 0 0 0 0x1F000000) 4 0x1A000000 = true ∧
    goesOn (testState [0x00, 0x79, 0xC1, 0xFF] 0x1234 0 0 0x1F000000) 4 0 = true := by decide +kernel

/-- The double multiply-accumulate forms: V-M1 to V-M4. -/
theorem test_fmac_double :
    let s := fun o => macState false [0x00, 0x76, 0x81, 0x30, 0x10, o] 0x4000000000000000 0x4008000000000000 0x3FF0000000000000
    writes (s 0x10) 6 4 0x401C000000000000 0x00040000 = true ∧ writes (s 0x11) 6 4 0x4014000000000000 0x00040000 = true ∧
    writes (s 0x12) 6 4 0xC01C000000000000 0x00080000 = true ∧
    writes (s 0x13) 6 4 0xC014000000000000 0x00080000 = true := by decide +kernel

/-- The single multiply-accumulate forms: the status of V-M5 to V-M8, and the values. -/
theorem test_fmac_single :
    let s := fun o => macState true [0x00, 0x76, 0x81, 0x30, 0x10, o] 0x40000000 0x40400000 0x3F800000
    let m := fun subc negr => (fMacOp .single .afterRounding true subc negr 0 0 0x40000000 0x40400000 0x3F800000).bits
    goesOn (s 0x08) 6 0x00040000 = true ∧ goesOn (s 0x09) 6 0x00040000 = true ∧ goesOn (s 0x0A) 6 0x00080000 = true ∧
    goesOn (s 0x0B) 6 0x00080000 = true ∧ m false false = 0x40E00000 ∧ m true false = 0x40A00000 ∧
    m false true = 0xC0E00000 ∧ m true true = 0xC0A00000 := by decide +kernel

/-- Fused and unfused differ: V-M9 (one rounding or two) and V-M10 (an invalid product beside a quiet NaN). -/
theorem test_fmac_fused :
    let s := fun fused a b c => macState fused [0x00, 0x76, 0x81, 0x30, 0x10, 0x10] a b c
    writes (s true 0x3FF0000000000001 0x3FF0000000000001 0xBFF0000000000002) 6 4 0x3970000000000000 0x00040000 = true ∧
    writes (s false 0x3FF0000000000001 0x3FF0000000000001 0xBFF0000000000002) 6 4 0 0x00424100 = true ∧
    fMacOp .double .afterRounding true false false 5 7 0x7FF0000000000000 0 0x7FF8000000000000 = .exact 7 ∧
    (fMacOp .double .afterRounding false false false 0x7FF8000000000000 7 0x7FF0000000000000 0
      0x7FF8000000000000).types = 0b10000 := by decide +kernel

/-- Under a false predicate nothing happens but the advance of pc (V-D2), and a refusal comes first (V-D11). -/
theorem test_false_predicate :
    let off := fun bytes => { testState bytes 0x3FF0000000000000 0 0 0x08000000 with
      params := { resetParams with condTable := Vector.replicate 16 (Vector.replicate 16 false) } }
    writes (off [0x00, 0x78, 0x81, 0x30, 0x2C]) 5 3 0 0x08000000 = true ∧
    step (off [0x00, 0x77, 0x81, 0x10]) = .refused (.unlistedFunction 0x77 1) := ⟨by decide +kernel, rfl⟩

/-- pc wraps at the top of the address space (V-D12). -/
theorem test_pc_wraps :
    (after { State.reset with
      pc := 0xFFFFFFFFFFFFFFFB
      mem := State.reset.mem.writeBytes 0xFFFFFFFFFFFFFFFB [0x00, 0x78, 0x81, 0x30, 0x20] }).pc = 0 := by decide +kernel

/-- Register 0 under R0_ZERO: FMOV to it writes nothing, and it reads as zero (R13). -/
theorem test_r0_zero :
    let s := { testState [0x00, 0x77, 0x01, 0x00] 5 0 0 0 with params := { resetParams with r0Zero := true } }
    writes s 4 0 0 0 = true ∧ (after s).regs = s.regs := by decide +kernel

/-- The planned family is refused at reset (V-D10). -/
theorem test_planned_refused :
    step (State.reset.withFetchWord 48 0x101030817600) = .refused (.plannedNotImplemented "FMAC") := rfl

/-- A placed word of each length is the next instruction fetched. -/
theorem test_placed_words :
    (State.reset.withFetchWord 24 0x8102A5).fetch = .instr (.ftst ⟨10, 5⟩ 2 1) ∧
    (State.reset.withFetchWord 32 0x208177A5).fetch = .instr (.ftoi ⟨10, 5⟩ 2 1) ∧
    (State.reset.withFetchWord 40 0x20308178A5).fetch = .instr (.fadd ⟨10, 5⟩ 3 1 2) ∧
    (State.reset.withFetchWord 48 0x1010308176A5).fetch = .instr (.fmac ⟨10, 5⟩ 4 1 2 3) := by decide +kernel

/-- A run to END_PC (R314): one FMOV, then pc is there. -/
theorem test_run : (runTo 4 1 (testState [0x00, 0x77, 0x81, 0x00] 9 0 0 0)).isSome = true ∧
    runTo 4 0 (testState [0x00, 0x77, 0x81, 0x00] 9 0 0 0) = none := by decide +kernel

/-! ### Witnesses: the hypotheses of every obligation are met somewhere -/

/-- A machine where no predicate holds and the planned family is implemented. -/
def offState : State :=
  { State.reset with
    params := { resetParams with condTable := Vector.replicate 16 (Vector.replicate 16 false), fmacImplemented := true } }

/-- A machine with every kind enabled, 1.0 and 0.0 in registers 1 and 2, and the planned family implemented. -/
def enabledState : State :=
  { testState [] 0x3FF0000000000000 0 0 0x1F000000 with params := { resetParams with fmacImplemented := true } }

theorem witness_DecodeUndoesEncode : (Instr.fnmas ⟨15, 15⟩ 63 63 63 63).wellFormed = true := by decide

theorem witness_EncodeUndoesDecode :
    decode [0xFF, 0x77, 0xFF, 0xCF, 0xAA] = .ok (.fstat ⟨15, 15⟩ 63) 4 ∧
    decode [0x00, 0x76, 0xFF, 0xFF, 0xFF, 0xF3] = .ok (.fnmas ⟨0, 0⟩ 63 63 63 63) 6 := by decide +kernel

theorem witness_DecoderAgreesWithOpcodeTable :
    instrLength (BitVec.ofNat 8 (field 0x0F00 8 8)) = some 3 ∧ instrLength (BitVec.ofNat 8 (field 0x1000 8 8)) = some 4 ∧
    instrLength (BitVec.ofNat 8 (field 0x7600 8 8)) = some 6 ∧
    instrLength (BitVec.ofNat 8 (field 0x7800 8 8)) = some 5 := by decide

theorem witness_FieldsOfTheFormats :
    Pred.fits ⟨15, 15⟩ = true ∧ 0xFF < 256 ∧ 3 < 4 ∧ 15 < 16 ∧ 31 < 32 ∧ 63 < 64 := by decide

/-- The words of the examples of R162, R243, R245 and R268 have the fields the format tables give. -/
theorem test_fields_of_the_formats :
    FieldsFR3 0x20308178A5 ⟨10, 5⟩ 0x08 3 1 2 ∧ FieldsFR2 0xC1C077A5 ⟨10, 5⟩ 0x77 0xC 7 0 ∧
    FieldsFR2 0xDFC079A5 ⟨10, 5⟩ 0x79 0xD 0x3F 0 ∧ FieldsFR4 0x1010308176A5 ⟨10, 5⟩ 16 4 1 2 3 := by
  unfold FieldsFR3 FieldsFR2 FieldsFR4
  decide

theorem witness_StepRunsDecodedInstruction :
    (State.reset.withFetchWord 24 0x8102A5).mem.readBytes 0 3 = some [0xA5, 0x02, 0x81] ∧
    decode [0xA5, 0x02, 0x81] = .ok (.ftst ⟨10, 5⟩ 2 1) 3 := by decide +kernel

theorem witness_UnlistedEncodingsRefused_opcode :
    (State.reset.storeAtPc 2 0x20A5).mem.readBytes 0 2 = some [0xA5, 0x20] ∧
    (State.reset.storeAtPc 2 0xFFA5).mem.readBytes 0 2 = some [0xA5, 0xFF] := by decide +kernel

theorem witness_UnlistedEncodingsRefused_function :
    (State.reset.storeAtPc 3 0xC10FA5).mem.readBytes 0 3 = some [0xA5, 0x0F, 0xC1] ∧ instrLength 0x0F = some 3 ∧
    functionCode (wordOf [0xA5, 0x0F, 0xC1]) = 3 ∧
    (State.reset.storeAtPc 4 0x00001FA5).mem.readBytes 0 4 = some [0xA5, 0x1F, 0x00, 0x00] ∧ instrLength 0x1F = some 4 ∧
    functionCode (wordOf [0xA5, 0x1F, 0x00, 0x00]) = 0 ∧
    (State.reset.storeAtPc 6 0x0700000076A5).mem.readBytes 0 6 = some [0xA5, 0x76, 0x00, 0x00, 0x00, 0x07] ∧
    functionCode (wordOf [0xA5, 0x76, 0x00, 0x00, 0x00, 0x07]) = 7 ∧
    functionCode (wordOf [0xA5, 0x77, 0x00, 0xE0]) = 0xE ∧ functionCode (wordOf [0xA5, 0x78, 0x00, 0x00, 0x70]) = 0x1C ∧
    functionCode (wordOf [0xA5, 0x79, 0x00, 0x10]) = 1 := by decide +kernel

theorem witness_FetchOutsideProgramStops :
    State.reset.mem.readBytes State.reset.pc 2 = none ∧
    (State.reset.storeAtPc 4 0x308178A5).mem.readBytes 0 2 = some [0xA5, 0x78] ∧ instrLength 0x78 = some 5 ∧
    (State.reset.storeAtPc 4 0x308178A5).mem.readBytes 0 5 = none := by decide +kernel

/-- A machine where condition 5 alone holds, and only of flags with `un` set; predicate register 10 has it set, with `lt`
clear, and predicate register 5 has `lt` set and `un` clear. -/
def unState : State :=
  { State.reset with
    params := { resetParams with
      condTable := Vector.ofFn fun c => Vector.ofFn fun k : Fin 16 => decide (c = 5) && k.val.testBit 3 }
    preds := (State.reset.preds.set 10 ⟨false, false, false, true⟩).set 5 ⟨true, true, true, false⟩ }

/-- R9 and R83, predicate byte A5h: condition 5 on predicate register 10. Neither 5Ah nor 55h holds there. -/
theorem test_predicate_reads_pn_under_pc :
    unState.predTrue (predField 0xA5) = true ∧ unState.predTrue (predField 0x5A) = false ∧
    unState.predTrue (predField 0x55) = false ∧ unState.predTrue (predField 0xAA) = false := by decide +kernel

theorem witness_FalsePredicateOnlyAdvances :
    offState.predTrue ⟨15, 15⟩ = false ∧ offState.params.fmacImplemented = true ∧
    (Instr.fmac ⟨15, 15⟩ 1 2 3 4).isPlanned = true := by decide +kernel

theorem witness_PcAdvancesByLength :
    (∃ t, exec (.ftst ⟨0, 0⟩ 2 1) State.reset = .next t) ∧
    (∃ en d, exec (.ftx ⟨0, 0⟩ 2 8) enabledState = .fault (.fpException en d)) ∧
    (∃ r, exec (.fmac ⟨0, 0⟩ 1 2 3 4) State.reset = .refused r) ∧
    "FTSTS" = (Instr.ftsts ⟨0, 0⟩ 0 0).mnemonic ∧ "FCMP" = (Instr.fcmp ⟨0, 0⟩ 0 0 0).mnemonic ∧
    (Instr.frm ⟨0, 0⟩ 1 2).wellFormed = true ∧ field (encodeWord (.frm ⟨0, 0⟩ 1 2)) 8 8 = 0x77 ∧
    field (encodeWord (.fdx ⟨0, 0⟩ 1 2)) 8 8 = 0x79 ∧ field (encodeWord (.fdivs ⟨0, 0⟩ 1 2 3)) 8 8 = 0x78 ∧
    field (encodeWord (.fnmas ⟨0, 0⟩ 1 2 3 4)) 8 8 = 0x76 :=
  ⟨⟨_, rfl⟩, ⟨_, _, rfl⟩, ⟨_, rfl⟩, rfl, rfl, rfl, rfl, rfl, rfl, rfl⟩

theorem witness_PlannedFamilyRefused :
    (Instr.fmas ⟨0, 0⟩ 1 2 3 4).isPlanned = true ∧ State.reset.params.fmacImplemented = false ∧
    exec (.fmas ⟨0, 0⟩ 1 2 3 4) State.reset = .refused (.plannedNotImplemented "FMAS") := ⟨rfl, rfl, rfl⟩

/-- Reading and writing eight bytes across the top of the address space, in canonical form. -/
theorem witness_MemoryReadAndWrite :
    (∀ i < 8, (Memory.writeBytes [] 0xFFFFFFFFFFFFFFFC [1, 2, 3, 4, 5, 6, 7, 8]).byteAt
      ((0xFFFFFFFFFFFFFFFC : Addr) + BitVec.ofNat 64 i).toNat = some (BitVec.ofNat 8 (i + 1))) ∧
    Memory.wf (Memory.writeBytes [] 0xFFFFFFFFFFFFFFFC [1, 2, 3, 4, 5, 6, 7, 8]) = true ∧
    (∀ i < 8, 4 ≠ ((0xFFFFFFFFFFFFFFFC : Addr) + BitVec.ofNat 64 i).toNat) ∧
    (∃ t, exec (.fmov ⟨0, 0⟩ 2 1) State.reset = .next t) := by
  refine ⟨by decide +kernel, by decide +kernel, by decide +kernel, _, rfl⟩

/-- An instruction that completes and one that delivers an exception. -/
theorem leads_somewhere :
    (∃ t, Instr.Leads (.fadd ⟨0, 0⟩ 3 1 2) State.reset t) ∧ (∃ t, Instr.Leads (.ftx ⟨0, 0⟩ 2 8) enabledState t) :=
  ⟨⟨_, .inl rfl⟩, ⟨_, .inr ⟨_, rfl⟩⟩⟩

theorem witness_OnlyTheTargetChanges :
    (∃ t, Instr.Leads (.fadd ⟨0, 0⟩ 3 1 2) State.reset t) ∧ (∃ t, Instr.Leads (.ftx ⟨0, 0⟩ 2 8) enabledState t) ∧
    regIndex 63 ≠ regIndex 3 ∧ (∃ t, Instr.Leads (.fcmp ⟨0, 0⟩ 15 1 2) State.reset t) ∧ predIndex 0 ≠ predIndex 15 :=
  ⟨leads_somewhere.1, leads_somewhere.2, by decide, ⟨_, .inl rfl⟩, by decide⟩

theorem witness_ProgramNeverChanges :
    (∃ t, step (testState [0x00, 0x77, 0x81, 0x00] 9 0 0 0) = .next t) ∧
    (∃ t, Instr.Leads (.ftx ⟨0, 0⟩ 2 8) enabledState t) := ⟨⟨_, rfl⟩, leads_somewhere.2⟩

/-- A state that meets the invariant with a type bit recorded, whose step has a next state, and one whose step faults. -/
theorem witness_StepKeepsInvariant :
    (testState [0x00, 0x79, 0x40, 0xD0] 0 0 0 0x0000053E).Inv ∧
    (∃ t, step (testState [0x00, 0x79, 0x40, 0xD0] 0 0 0 0x0000053E) = .next t) ∧
    (testState [0x00, 0x79, 0x40, 0xC0] 0 0 0 0x01000000).Inv ∧
    (∃ en d, step (testState [0x00, 0x79, 0x40, 0xC0] 0 0 0 0x01000000) = .fault (.fpException en d)) :=
  ⟨⟨by decide +kernel, by decide +kernel⟩, ⟨_, rfl⟩, ⟨by decide +kernel, by decide +kernel⟩, ⟨_, _, rfl⟩⟩

theorem witness_FpscrFieldsHaveOneWriter :
    (∃ t, Instr.Leads (.fadd ⟨0, 0⟩ 3 1 2) State.reset t) ∧ (Instr.fadd ⟨0, 0⟩ 3 1 2).mnemonic ≠ "FRM" ∧
    (Instr.fadd ⟨0, 0⟩ 3 1 2).mnemonic ≠ "FEX" ∧ (Instr.fadd ⟨0, 0⟩ 3 1 2).mnemonic ≠ "FDX" :=
  ⟨leads_somewhere.1, by decide, by decide, by decide⟩

theorem witness_ResultStatusIsOverwritten :
    (∃ t, Instr.Leads (.ftx ⟨0, 0⟩ 2 8) enabledState t) ∧ (Instr.ftx ⟨0, 0⟩ 2 8).recordsStatus = false ∧
    (∃ t, Instr.Leads (.fadd ⟨0, 0⟩ 3 1 2) State.reset t) ∧ (Instr.fadd ⟨0, 0⟩ 3 1 2).recordsStatus = true ∧
    State.reset.predTrue ⟨0, 0⟩ = true := ⟨leads_somewhere.2, rfl, leads_somewhere.1, rfl, predicate_holds _⟩

/-- FCX clears X5 (k = 4); FTX sets X1 (k = 0). -/
theorem witness_OccurredBitsAreSticky :
    (∃ t, Instr.Leads (.fcx ⟨0, 0⟩ 0 0x10) (testState [] 0 0 0 0x4000) t ∧
      (testState [] 0 0 0 0x4000).fpscr.getLsbD 14 = true ∧ t.fpscr.getLsbD 14 = false) ∧
    (∃ t, Instr.Leads (.ftx ⟨0, 0⟩ 0 1) State.reset t ∧ State.reset.fpscr.getLsbD 10 = false ∧
      t.fpscr.getLsbD 10 = true) :=
  ⟨⟨_, .inl rfl, rfl, rfl⟩, ⟨_, .inl rfl, rfl, rfl⟩⟩

/-- Signalling with and without delivery; SX set with an X bit; SX cleared by FCX. -/
theorem witness_SummaryBit :
    (∃ t, signal 1 State.reset = .next t) ∧ (∃ en t, signal 0x10 enabledState = .fault (.fpException en t)) ∧
    (∃ t, Instr.Leads (.ftx ⟨0, 0⟩ 0 1) State.reset t ∧ State.reset.fpscr.getLsbD 10 = false ∧
      t.fpscr.getLsbD 10 = true) ∧
    (∃ t, Instr.Leads (.fcx ⟨0, 0⟩ 0 0x20) (testState [] 0 0 0 0x7D00) t ∧
      fpscrSX (testState [] 0 0 0 0x7D00).fpscr = true ∧ fpscrSX t.fpscr = false) :=
  ⟨⟨_, rfl⟩, ⟨_, _, rfl⟩, ⟨_, .inl rfl, rfl, rfl⟩, ⟨_, .inl rfl, rfl, rfl⟩⟩

/-- FDIV of 0 by 0 sets bit 3; FCX with mask bit 0 clears bit 1 and bit 5. -/
theorem witness_InvalidTypeBitsAreSticky :
    (∃ t, Instr.Leads (.fdiv ⟨0, 0⟩ 3 1 2) State.reset t ∧ State.reset.fpscr.getLsbD 3 = false ∧
      t.fpscr.getLsbD 3 = true) ∧
    (∃ t, Instr.Leads (.fcx ⟨0, 0⟩ 0 1) (testState [] 0 0 0 0x4FF) t ∧
      (testState [] 0 0 0 0x4FF).fpscr.getLsbD 1 = true ∧ t.fpscr.getLsbD 1 = false ∧
      (testState [] 0 0 0 0x4FF).fpscr.getLsbD 5 = true ∧ t.fpscr.getLsbD 5 = false) ∧
    (testState [] 0 0 0 0x4FF).predTrue ⟨0, 0⟩ = true ∧ (testState [] 0 0 0 0x4FF).maskBit 0 1 0 = true := by
  obtain ⟨t, h, -, -, -, hf⟩ := completes_result (p := ⟨0, 0⟩) (len := 5) (rt := 3)
    (body := arithBody .double .div 3 1 2) (s := State.reset) (P := fun _ => True) (predicate_holds _) rfl
    (by rw [enabledKind_iff]; decide +kernel) trivial
  refine ⟨⟨t, .inl h, rfl, ?_⟩, ⟨_, .inl rfl, rfl, rfl, rfl, rfl⟩, by decide +kernel⟩
  rw [hf 3 (by decide)]
  decide +kernel

/-- Both policies: derived at reset; sticky with a delivery, without one, and with bit 9 already stored. -/
theorem witness_GxUnderEachPolicy :
    (∃ t, Instr.Leads (.fadd ⟨0, 0⟩ 3 1 2) State.reset t) ∧ State.reset.params.gxPolicy = .derived ∧
    (∃ t, Instr.Leads (.ftx ⟨0, 0⟩ 0 1) (testState [] 0 0 0 0x200) t ∧ (testState [] 0 0 0 0x200).fpscr.getLsbD 9 = true) ∧
    (∃ en d, signal 1 { enabledState with params := { resetParams with gxPolicy := .sticky } } =
      .fault (.fpException en d)) ∧
    (∃ d, signal 1 State.reset = .next d) :=
  ⟨leads_somewhere.1, rfl, ⟨_, .inl rfl, rfl⟩, ⟨_, _, rfl⟩, ⟨_, rfl⟩⟩

/-- Instructions that complete, that deliver an exception and that are refused. -/
theorem witness_RoundingModeHasNoEffect :
    (∃ t, exec (.frm ⟨0, 0⟩ 0 5) State.reset = .next t) ∧ (Instr.frm ⟨0, 0⟩ 0 5).mnemonic ≠ "FSTAT" ∧
    (∃ en d, exec (.ftx ⟨0, 0⟩ 2 8) enabledState = .fault (.fpException en d)) ∧
    (Instr.ftx ⟨0, 0⟩ 2 8).mnemonic ≠ "FSTAT" ∧
    (∃ r, exec (.fmac ⟨0, 0⟩ 1 2 3 4) State.reset = .refused r) ∧ (Instr.fmac ⟨0, 0⟩ 1 2 3 4).mnemonic ≠ "FSTAT" :=
  ⟨⟨_, rfl⟩, by decide, ⟨_, _, rfl⟩, by decide, ⟨_, rfl⟩, by decide⟩

theorem witness_FaultsAreEnabledExceptions :
    (∃ e, exec (.ftx ⟨0, 0⟩ 2 8) enabledState = .fault e) ∧ (∃ e, exec (.fdiv ⟨0, 0⟩ 3 1 2) enabledState = .fault e) :=
  ⟨⟨_, rfl⟩, ⟨_, rfl⟩⟩

theorem witness_Move : State.reset.predTrue ⟨15, 15⟩ = true ∧ (Instr.fmovs ⟨15, 15⟩ 63 63).wellFormed = true :=
  ⟨predicate_holds _, rfl⟩

theorem witness_SignOfDouble : State.reset.predTrue ⟨15, 15⟩ = true ∧ (Instr.fneg ⟨15, 15⟩ 63 0).wellFormed = true :=
  ⟨predicate_holds _, rfl⟩

theorem witness_SignOfSingle : State.reset.predTrue ⟨0, 15⟩ = true ∧ (Instr.fabss ⟨0, 15⟩ 63 0).wellFormed = true :=
  ⟨predicate_holds _, rfl⟩

theorem witness_SignNumber :
    (testState [] 0x8000000000000001 0xFF800000 0 0).predTrue ⟨0, 0⟩ = true ∧
    isNaN .double ((testState [] 0x8000000000000001 0xFF800000 0 0).readX 1) = false ∧
    isNaN .single ((testState [] 0x8000000000000001 0xFF800000 0 0).readX 2) = false := by decide +kernel

theorem witness_Mantissa : State.reset.predTrue ⟨15, 0⟩ = true ∧ (Instr.fmans ⟨15, 0⟩ 63 0).wellFormed = true :=
  ⟨predicate_holds _, rfl⟩

theorem witness_CompareInstructions :
    State.reset.predTrue ⟨15, 0⟩ = true ∧ (Instr.fcmps ⟨15, 0⟩ 15 63 0).wellFormed = true := ⟨predicate_holds _, rfl⟩

theorem witness_TestInstructions :
    State.reset.predTrue ⟨15, 0⟩ = true ∧ (Instr.ftsts ⟨15, 0⟩ 15 63).wellFormed = true := ⟨predicate_holds _, rfl⟩

theorem witness_SetRoundingMode :
    State.reset.predTrue ⟨15, 0⟩ = true ∧ (Instr.frm ⟨15, 0⟩ 63 63).wellFormed = true := ⟨predicate_holds _, rfl⟩

theorem witness_ReadStatus : State.reset.predTrue ⟨1, 2⟩ = true ∧ (Instr.fstat ⟨1, 2⟩ 63).wellFormed = true :=
  ⟨predicate_holds _, rfl⟩

/-- With the other four kinds enabled, mask bit 4 alone. -/
theorem witness_TriggerCompletes :
    (testState [] 0 0 0 0x0F000000).predTrue ⟨0, 0⟩ = true ∧
    (∀ k < 5, (testState [] 0 0 0 0x0F000000).maskBit 1 0x10 k = true →
      (testState [] 0 0 0 0x0F000000).fpscr.getLsbD (24 + k) = false) ∧
    (testState [] 0 0 0 0x0F000000).maskBit 1 0x10 4 = true := by decide +kernel

theorem witness_TriggerRaises :
    (testState [] 0 0 0 0x10000000).predTrue ⟨0, 0⟩ = true ∧
    (∃ k < 5, (testState [] 0 0 0 0x10000000).maskBit 1 0x1F k = true ∧
      (testState [] 0 0 0 0x10000000).fpscr.getLsbD (24 + k) = true) := by decide +kernel

theorem witness_ClearExceptions :
    State.reset.predTrue ⟨0, 0⟩ = true ∧ (Instr.fcx ⟨0, 0⟩ 63 63).wellFormed = true := ⟨predicate_holds _, rfl⟩

theorem witness_EnableAndDisable :
    State.reset.predTrue ⟨0, 0⟩ = true ∧ (Instr.fex ⟨0, 0⟩ 63 63).wellFormed = true := ⟨predicate_holds _, rfl⟩

/-- A result with no kind, every kind enabled; and an inexact one with the inexact kind alone disabled. -/
theorem witness_ArithmeticCompletes :
    enabledState.predTrue ⟨0, 0⟩ = true ∧
    ¬ enabledState.EnabledKind (enabledState.arithResult .double .add 1 1).kinds ∧
    ¬ (testState [] 0x3F800000 0x40400000 0 0x0F000000).EnabledKind
      ((testState [] 0x3F800000 0x40400000 0 0x0F000000).arithResult .single .div 1 2).kinds := by
  rw [enabledKind_iff, enabledKind_iff]
  decide +kernel

theorem witness_MacCompletes :
    enabledState.params.fmacImplemented = true ∧ enabledState.predTrue ⟨0, 0⟩ = true ∧
    ¬ enabledState.EnabledKind (enabledState.macResult .double true true 1 1 1).kinds := by
  rw [enabledKind_iff]
  decide +kernel

/-- An inexact conversion with its kind disabled, and an exact one with its kind enabled. -/
theorem witness_IntegerToFloatCompletes :
    (testState [] 0x0020000000000001 0x8000000000000000 0 0x10000000).predTrue ⟨0, 0⟩ = true ∧
    ¬ ((iToF .double .afterRounding 0x8000000000000000).inexact = true ∧ (0x10000000 : FpscrWord).getLsbD 28 = true) ∧
    (iToF .double .afterRounding 0x0020000000000001).inexact = true ∧
    ¬ ((iToF .single .afterRounding 0x0020000000000001).inexact = true ∧ (0x0F000000 : FpscrWord).getLsbD 28 = true) := by
  decide +kernel

theorem witness_FloatToIntegerCompletes :
    enabledState.predTrue ⟨0, 0⟩ = true ∧
    ¬ enabledState.EnabledKind (fToI .double .towardZero 0 0x3FF0000000000000).kinds ∧
    ¬ State.reset.EnabledKind (fToI .single .towardZero 0 0x7FC00000).kinds := by
  rw [enabledKind_iff, enabledKind_iff]
  decide +kernel

/-- Division by zero, an inexact conversion either way, and an inexact multiply-accumulate, all kinds enabled. -/
theorem witness_EnabledKindsAreDelivered :
    enabledState.predTrue ⟨0, 0⟩ = true ∧ enabledState.EnabledKind (enabledState.arithResult .double .div 1 2).kinds ∧
    enabledState.EnabledKind (iToF .double .afterRounding 0x0020000000000001).kinds ∧
    enabledState.EnabledKind (iToF .single .afterRounding 0x0020000000000001).kinds ∧
    enabledState.EnabledKind (fToI .double .towardZero 0 0x3FE0000000000000).kinds ∧
    enabledState.EnabledKind (fToI .single .towardZero 0 0x7F800000).kinds ∧
    enabledState.params.fmacImplemented = true ∧
    ({ enabledState with regs := enabledState.regs.set 1 0x3FF0000000000001 } : State).EnabledKind
      (({ enabledState with regs := enabledState.regs.set 1 0x3FF0000000000001 } : State).macResult .double
        false true 1 1 2).kinds := by
  simp only [enabledKind_iff]
  decide +kernel

/-- A NaN, both infinities, both zeros, both smallest denormals and both smallest normals are no signalling NaN. -/
theorem witness_ResultClassTable :
    [0x7FF8000000000000, 0x7FF0000000000000, 0xFFF0000000000000, 0, 0x8000000000000000, 1, 0x8000000000000001,
      0x0010000000000000, 0x8010000000000000].map (isSNaN .double) = List.replicate 9 false ∧
    [0xFFC00000, 0x7F800000, 0xFF800000, 0, 0x80000000, 1, 0x80000001, 0x00800000, 0x80800000].map (isSNaN .single) =
      List.replicate 9 false := by decide +kernel

/-- The greatest finite exponent field, and zero, in each format. -/
theorem witness_ClassesAndValues :
    ((0x7FEFFFFFFFFFFFFF : Word).extractLsb' 52 11).toNat < 2047 ∧ ((1 : Word).extractLsb' 52 11).toNat = 0 ∧
    ((0x7F7FFFFF : Word).extractLsb' 23 8).toNat < 255 ∧ ((1 : Word).extractLsb' 23 8).toNat = 0 := by decide

/-- The smallest denormal is one unit. -/
theorem witness_RoundExact :
    isFinite .double 1 = true ∧ isZero .double 1 = false ∧ (1 : Word).toNat < 2 ^ Fmt.width .double ∧
    |realValue .double 1| = ((1 : Nat) : ℚ) / (((1 : Nat) : ℚ) * 2 ^ Fmt.unitExp .double) := by
  refine ⟨by decide, by decide, by decide, ?_⟩
  have h := realValue_abs .double 1
  rw [show fpMag .double 1 = 1 by decide] at h
  have hU : (0 : ℚ) < 2 ^ Fmt.unitExp .double := by positivity
  rw [eq_div_iff (by rw [Nat.cast_one, one_mul]; exact hU.ne'), Nat.cast_one, one_mul]
  simpa using h

/-- Two fractions of one value. -/
theorem witness_RoundExact_fractions : (0 < 1 ∧ 0 < 3 ∧ 0 < 6) ∧ ((1 : Nat) : ℚ) / (3 : Nat) = ((2 : Nat) : ℚ) / (6 : Nat) := by
  norm_num

theorem witness_RoundNearestEven : 0 < 1 ∧ 0 < 3 := by decide

/-- Finite operands, a divisor that is not zero, and exact values that are and are not zero. -/
theorem witness_ArithmeticCorrectlyRounded :
    isFinite .double 0x7FEFFFFFFFFFFFFF = true ∧ isFinite .double 1 = true ∧ isZero .double 1 = false ∧
    realValue .double 0 * realValue .double 1 = 0 ∧ realValue .double 1 * realValue .double 1 ≠ 0 ∧
    realValue .double 1 / realValue .double 1 ≠ 0 := by
  have h0 : realValue .double 0 = 0 := (real_zero_iff .double 0).2 (by decide)
  have h1 : realValue .double 1 ≠ 0 := fun h => absurd ((real_zero_iff .double 1).1 h) (by decide)
  exact ⟨by decide, by decide, by decide, by rw [h0, zero_mul], mul_ne_zero h1 h1, div_ne_zero h1 h1⟩

/-- Operands of each clause. -/
theorem witness_InfinitiesAndZeros :
    [0x7FF0000000000000, 0xFFF0000000000000, 0, 0x8000000000000000, 1].map (isNaN .double) = List.replicate 5 false ∧
    isInf .double 0x7FF0000000000000 = true ∧ isInf .double 0xFFF0000000000000 = true ∧ isInf .double 1 = false ∧
    fpSign .double 0x7FF0000000000000 ≠ fpSign .double 0xFFF0000000000000 ∧
    isZero .double 1 = false ∧ isZero .double 0x8000000000000000 = true ∧ isFinite .double 0x8000000000000000 = true ∧
    realValue .double 0 + realValue .double 0x8000000000000000 = 0 ∧
    realValue .double 0x8000000000000000 - realValue .double 0 = 0 := by
  refine ⟨by decide +kernel, by decide, by decide, by decide, by decide, by decide, by decide, by decide, ?_⟩
  rw [(real_zero_iff .double 0).2 (by decide), (real_zero_iff .double 0x8000000000000000).2 (by decide), add_zero,
    sub_zero]
  exact ⟨rfl, rfl⟩

/-- R164: -0 minus +0 is -0; infinity minus a finite number, and a finite number minus infinity (R136). -/
theorem test_differences_of_zeros_and_infinities :
    fpArith .double .afterRounding .sub 7 0x8000000000000000 0 = .exact 0x8000000000000000 ∧
    fpArith .double .afterRounding .sub 7 0 0 = .exact 0 ∧
    fpArith .single .afterRounding .sub 7 0x7F800000 1 = .exact 0x7F800000 ∧
    fpArith .single .afterRounding .sub 7 1 0x7F800000 = .exact 0xFF800000 := by decide +kernel

theorem witness_NaNOperands :
    isSNaN .double 0x7FF0000000000001 = true ∧ isSNaN .double 0xFFFFFFFFFFFFFFFF = false ∧
    isNaN .double 0xFFFFFFFFFFFFFFFF = true ∧ isSNaN .double 0 = false ∧ isSNaN .single 0x7F800001 = true ∧
    isNaN .single 0x7FC00000 = true ∧ isSNaN .single 0x7FC00000 = false := by decide

theorem witness_GeneratedNaNIsAnyQuietNaN :
    isQNaN .double 0xFFF8000000000001 = true ∧ isQNaN .single 0x7FC00001 = true ∧
    (0x7FC00001 : Word).toNat < 2 ^ Fmt.width .single := by decide

/-- An invalid operation, so that the last clause speaks of something. -/
theorem witness_InvalidOperations :
    (fpArith .double .afterRounding .div 7 0 0).kinds.getLsbD 0 = true ∧
    (fpArith .single .afterRounding .sub 7 0x7F800000 0x7F800000).kinds.getLsbD 0 = true := by decide +kernel

theorem witness_DivisionByZero :
    (fpArith .double .afterRounding .div 7 0x8000000000000001 0).kinds.getLsbD 3 = true ∧
    isInf .double 0xFFF0000000000000 = true ∧ isZero .double 0x8000000000000000 = true := by decide +kernel

/-- Operands of each clause with an infinite operand: infinity by zero; an infinite product with an infinite and with a
finite third operand; a finite product with an infinite one. -/
theorem witness_MultiplyAccumulate_infinite :
    [0x7FF0000000000000, 0xFFF0000000000000, 0, 1].map (isNaN .double) = List.replicate 4 false ∧
    isInf .double 0x7FF0000000000000 = true ∧ isInf .double 0xFFF0000000000000 = true ∧ isZero .double 0 = true ∧
    isZero .double 1 = false ∧ isInf .double 1 = false ∧
    (fpSign .double 0x7FF0000000000000 != fpSign .double 1) ≠ (fpSign .double 0xFFF0000000000000 != false) ∧
    (fpSign .double 0x7FF0000000000000 != fpSign .double 1) = (fpSign .double 0xFFF0000000000000 != true) := by
  decide +kernel

/-- V-M10's operands with a number for the NaN: infzero alone where fused; and infinity times one, less infinity. -/
theorem test_fused_infinities :
    fMacOp .double .afterRounding true false false 5 7 0x7FF0000000000000 0 1 = .invalid 4 7 ∧
    fMacOp .single .afterRounding true true false 5 7 0x7F800000 0x3F800000 0x7F800000 = .invalid 1 7 ∧
    fMacOp .single .afterRounding true true true 5 7 0x3F800000 0x3F800000 0x7F800000 = .exact 0x7F800000 := by
  decide +kernel

/-- Finite operands with an exact sum that is zero, and one that is not. -/
theorem witness_MultiplyAccumulate :
    isFinite .double 1 = true ∧ isFinite .double 0 = true ∧
    realValue .double 0 * realValue .double 1 + -realValue .double 0 = 0 ∧
    realValue .double 1 * realValue .double 1 + realValue .double 0 ≠ 0 := by
  have h0 : realValue .double 0 = 0 := (real_zero_iff .double 0).2 (by decide)
  have h1 : realValue .double 1 ≠ 0 := fun h => absurd ((real_zero_iff .double 1).1 h) (by decide)
  refine ⟨by decide, by decide, by rw [h0]; simp, ?_⟩
  rw [h0, add_zero]
  exact mul_ne_zero h1 h1

theorem witness_RoundIntWithinOne : 0 < 2 ∧ (-6 : Int) = -3 * (2 : Nat) := by decide

/-- -2^63, which converts, and the greatest double below 2^63. -/
theorem witness_FloatToIntegerResult :
    isFinite .double 0xC3E0000000000000 = true ∧
    roundInt .towardZero (fpValue .double 0xC3E0000000000000) (Fmt.one .double) = -(2 ^ 63) ∧
    isFinite .double 0x43DFFFFFFFFFFFFF = true ∧
    roundInt .towardZero (fpValue .double 0x43DFFFFFFFFFFFFF) (Fmt.one .double) ≤ 2 ^ 63 - 1 := by decide +kernel

theorem witness_IntegerToFloatCorrectlyRounded : (0 : Word).toInt = 0 ∧ (0x8000000000000000 : Word).toInt ≠ 0 := by decide

theorem witness_IntegerRoundTrip :
    (0x0020000000000000 : Word).toInt.natAbs ≤ 2 ^ Fmt.prec .double ∧
    (0xFFFFFFFFFF000000 : Word).toInt.natAbs ≤ 2 ^ Fmt.prec .single := by decide

end Sys2Proof.Tests
end

section
/-! Proofs for the family 00_scope.md: the step, its predicate test, the register accessors and the reset state. -/

namespace Sys2Proof.Machine

/-! ### The skeleton of an instruction -/

/-- Every meaning is one of two skeletons around a body: the planned one of R101, else the predicated one of R15. -/
theorem exec_skeleton (i : Instr) :
    (i.isPlanned = true ∧ i.length = 6 ∧ ∃ body, ∀ s, exec i s = planned i.mnemonic i.pred body s) ∨
    (i.isPlanned = false ∧ ∃ body, ∀ s, exec i s = predicated i.pred i.length body s) := by
  cases i with
  | fmacS | fmasS | fnmacS | fnmasS | fmac | fmas | fnmac | fnmas => exact .inl ⟨rfl, rfl, _, fun _ => rfl⟩
  | _ => exact .inr ⟨rfl, _, fun _ => rfl⟩

/-- Under a false predicate an instruction that is not refused is the advance of pc and no more (R9, R15). -/
theorem exec_of_predTrue_false {i : Instr} {s : State} (himp : i.isPlanned = true → s.params.fmacImplemented = true)
    (hp : s.predTrue i.pred = false) : exec i s = .next (s.advance i.length) := by
  rcases exec_skeleton i with ⟨hpl, hlen, body, hexec⟩ | ⟨-, body, hexec⟩
  · rw [hexec, planned_true (himp hpl), hlen, predicated_false hp]
  · rw [hexec, predicated_false hp]

/-- The advance of pc is `Advanced`. -/
theorem advanced_advance (s : State) (len : Nat) : s.Advanced (s.advance len) len := ⟨rfl, fun _ => rfl, rfl⟩

/-! ### The predicate test -/

/-- The condition table of a function of condition and flags; a column's four bits are the flags (log 2). -/
def tableOf (holds : Fin 16 → PredFlags → Bool) : Vector (Vector Bool 16) 16 :=
  Vector.ofFn fun c => Vector.ofFn fun k : Fin 16 =>
    holds c ⟨k.val.testBit 0, k.val.testBit 1, k.val.testBit 2, k.val.testBit 3⟩

/-- Under that table the predicate test is the function, at the condition Pc and the flags of p[Pn] (R9). -/
theorem predTrue_tableOf {holds : Fin 16 → PredFlags → Bool} {s : State} (h : s.params.condTable = tableOf holds)
    (p : Pred) : s.predTrue p = holds (predIndex p.pc) (s.readP p.pn) :=
  condHolds_ofFn s.params holds p.pc (s.readP p.pn) h

/-- The function of condition and flags that a condition table is (R9). -/
def holdsOf (table : Vector (Vector Bool 16) 16) (c : Fin 16) (f : PredFlags) : Bool := table[c][f.index]

/-- The predicate test is the function of the state's own table (R9). -/
theorem predTrue_eq_holdsOf (s : State) (p : Pred) :
    s.predTrue p = holdsOf s.params.condTable (predIndex p.pc) (s.readP p.pn) := rfl

/-- Settles O9: the skeleton lemma gives the first part; `tableOf` and `holdsOf` are the two directions between tables
and functions. -/
theorem falsePredicateOnlyAdvances : Obligations.FalsePredicateOnlyAdvances := by
  refine ⟨fun i s himp hp => ?_, fun holds => ⟨tableOf holds, fun s h p => predTrue_tableOf h p⟩,
    fun table => ⟨holdsOf table, fun s h p => ?_⟩⟩
  · exact ⟨s.advance i.length, exec_of_predTrue_false himp hp, advanced_advance s i.length,
      fun r => readX_advance s r i.length, fun q => readP_advance s q i.length, advance_fpscr s i.length⟩
  · rw [predTrue_eq_holdsOf, h]

/-! ### The step -/

/-- A step whose fetch gives an instruction is that instruction's meaning (R15). -/
theorem step_of_fetch {s : State} {i : Instr} (h : s.fetch = .instr i) : step s = exec i s := by
  rw [step, h]

/-- Settles O6: the fetch is the decoding of the bytes at pc. -/
theorem stepRunsDecodedInstruction : Obligations.StepRunsDecodedInstruction :=
  fun _ _ _ _ hbytes hdecode => step_of_fetch (fetch_of_decode hbytes hdecode)

/-! ### Registers -/

/-- A read looks at the register's six-bit number only (R84). -/
theorem readX_congr (s : State) {q r : Nat} (h : regIndex q = regIndex r) : s.readX q = s.readX r := by
  simp only [State.readX, h]

/-- Whatever names the hard-wired zero register reads zero (R13). -/
theorem readX_hardwired {s : State} {q : Nat} (h : s.params.r0Zero = true ∧ regIndex q = 0) : s.readX q = 0 := if_pos h

/-- Settles O13: the register written, or another one, which may be the hard-wired one. -/
theorem registerReadAfterWrite : Obligations.RegisterReadAfterWrite := by
  intro s r q v
  by_cases hqr : regIndex q = regIndex r
  · rw [readX_congr _ hqr, readX_writeX_same, if_pos hqr, hqr]
  · rw [readX_writeX_other s r v hqr, if_neg hqr]
    split
    · next hzero => exact readX_hardwired hzero
    · rfl

/-! ### Reset -/

/-- Every general register reads zero at reset (log 6). -/
theorem readX_reset (r : Nat) : State.reset.readX r = 0 := by
  simp [State.readX, State.reset, resetReg]

/-- Every predicate flag is false at reset (log 7). -/
theorem readP_reset (q : Nat) : State.reset.readP q = ⟨false, false, false, false⟩ := by
  simp [State.readP, State.reset]

/-- Every condition holds under the parameters of reset (log 2). -/
theorem condHolds_reset (c : Nat) (f : PredFlags) : Params.condHolds State.reset.params c f = true := by
  simp [Params.condHolds, State.reset, resetParams]

/-- Settles O18: the accessors by the three lemmas, the plain fields by the definition of the reset state. -/
theorem resetState : Obligations.ResetState :=
  ⟨readX_reset, readP_reset, rfl, rfl, rfl, condHolds_reset, rfl, rfl, rfl, rfl, rfl, rfl, rfl⟩

end Sys2Proof.Machine
end

section
/-! Proofs for the family 10_state.md: what a step leaves of the state, and who writes each field of FPSCR. -/

namespace Sys2Proof.Machine

/-! ### Memory and parameters -/

/-- What the delivery of an exception leaves besides registers and FPSCR (R287). -/
theorem Faulted.rest {s d : State} {i : Instr} {en : Kinds} (h : Faulted s i en d) :
    d.mem = s.mem ∧ d.params = s.params := by
  cases h <;> simp

/-- No instruction changes memory or the parameters, whether it completes or delivers an exception (R64). -/
theorem leads_mem_params {i : Instr} {s t : State} (h : Instr.Leads i s t) : t.mem = s.mem ∧ t.params = s.params := by
  rcases leads_cases h with ⟨-, -, rfl⟩ | ⟨-, hexec, -⟩ | ⟨-, en, -, hfault⟩
  · exact ⟨rfl, rfl⟩
  · obtain ⟨hmem, hparams, -, -⟩ := exec_next_rest hexec
    exact ⟨hmem, hparams⟩
  · exact hfault.rest

/-- A step that delivers an exception ran the instruction it fetched (R286). -/
theorem step_fpException {s d : State} {en : Kinds} (h : step s = .fault (.fpException en d)) :
    ∃ i, exec i s = .fault (.fpException en d) := by
  unfold step at h
  split at h
  · next i _ => exact ⟨i, h⟩
  · cases h
  · cases h

/-! ### The bits of FPSCR below 15 -/

/-- The low bits of FPSCR are as they were. -/
def LowKept (v w : FpscrWord) : Prop := ∀ j < 15, w.getLsbD j = v.getLsbD j

/-- Types `ty` and kinds `k` are recorded in the low bits of FPSCR (R40, R146). -/
structure LowRecorded (pol : GxPolicy) (ty : Types) (k : Kinds) (v w : FpscrWord) : Prop where
  types : ∀ j < 8, w.getLsbD j = (v.getLsbD j || ty.getLsbD j)
  summary : w.getLsbD 8 = (v.getLsbD 8 || decide (k ≠ 0))
  gx : w.getLsbD 9 = (v.getLsbD 9 || decide (pol = .sticky ∧ enabledOf k v ≠ 0))
  occurred : ∀ j < 5, w.getLsbD (10 + j) = (v.getLsbD (10 + j) || k.getLsbD j)

/-- The low bits of FPSCR are cleared by a mask whose bit `j` is `m j` (R245). -/
structure LowCleared (m : Nat → Bool) (v w : FpscrWord) : Prop where
  types : ∀ j < 8, w.getLsbD j = (v.getLsbD j && !(decide (1 ≤ j ∧ j < 6) && m 0))
  summary : w.getLsbD 8 = (v.getLsbD 8 && !m 5)
  gx : w.getLsbD 9 = v.getLsbD 9
  occurred : ∀ j < 5, w.getLsbD (10 + j) = (v.getLsbD (10 + j) && !m j)

/-- Everything an instruction can leave in the low bits of FPSCR: they stay, a result or FTX is recorded in them, or FCX
clears some. -/
inductive LowAfter (s : State) (i : Instr) (w : FpscrWord) : Prop where
  | kept (h : LowKept s.fpscr w)
  | recorded {ty : Types} {k : Kinds} (hi : i.recordsStatus = true ∨ i.mnemonic = "FTX")
    (h5 : ty.getLsbD 5 = false) (h6 : ty.getLsbD 6 = false) (hkind : ty ≠ 0 → k.getLsbD 0 = true)
    (h : LowRecorded s.params.gxPolicy ty k s.fpscr w)
  | cleared {p : Pred} {ra imm : Nat} (hi : i = .fcx p ra imm) (h : LowCleared (s.maskBit ra imm) s.fpscr w)

/-- A field above bit 14 is no low bit. -/
theorem lowKept_setField (v : FpscrWord) {lo n : Nat} (x : BitVec n) (hlo : 15 ≤ lo) (hn : lo + n ≤ 32) :
    LowKept v (setField v lo x) := fun j hj => by
  rw [getLsbD_setField v lo n x hn, if_neg (by omega)]

/-- A result records its types and its kinds (R147). -/
theorem lowRecorded_finishedFpscr (pol : GxPolicy) (cls : BitVec 5) (r : FpResult) (v : FpscrWord) :
    LowRecorded pol r.types r.kinds v (finishedFpscr pol cls r v) where
  types j hj := by rw [getLsbD_finishedFpscr, if_pos hj]
  summary := getLsbD_finishedFpscr pol cls r v 8
  gx := getLsbD_finishedFpscr pol cls r v 9
  occurred j hj := by
    rw [getLsbD_finishedFpscr, if_neg (by omega), if_neg (by omega), if_neg (by omega), if_pos (by omega),
      Nat.add_sub_cancel_left]

/-- `Signal` records its kinds and no type (R146). -/
theorem lowRecorded_recordKinds (pol : GxPolicy) (k : Kinds) (v : FpscrWord) :
    LowRecorded pol 0 k v (recordKinds pol k v) where
  types j hj := by
    rw [getLsbD_recordKinds, if_neg (by omega), if_neg (by omega), if_neg (by omega)]
    simp
  summary := getLsbD_recordKinds pol k v 8
  gx := getLsbD_recordKinds pol k v 9
  occurred j hj := by rw [getLsbD_recordKinds, if_pos (by omega), Nat.add_sub_cancel_left]

/-- FCX clears what its mask names (R245). -/
theorem lowCleared_clearKinds (s : State) (ra imm : Nat) (v : FpscrWord) :
    LowCleared (s.maskBit ra imm) v (clearKinds (s.maskOperand ra imm) v) where
  types j hj := by
    rw [getLsbD_clearKinds, if_neg (by omega), if_neg (by omega), getLsbD_maskOperand s ra imm (by omega)]
    split <;> simp [*]
  summary := by rw [← getLsbD_maskOperand s ra imm (by omega)]; exact getLsbD_clearKinds _ v 8
  gx := getLsbD_clearKinds _ v 9
  occurred j hj := by
    rw [getLsbD_clearKinds, if_pos (by omega), Nat.add_sub_cancel_left, getLsbD_maskOperand s ra imm (by omega)]

/-- The low bits of whatever an instruction can leave in FPSCR. -/
theorem FpscrAfter.low {i : Instr} {s : State} {w : FpscrWord} (h : FpscrAfter s i w) : LowAfter s i w := by
  cases h with
  | same => exact .kept fun _ _ => rfl
  | status hs hok =>
    obtain ⟨h5, h6, hkind⟩ := hok
    exact .recorded (.inl hs) h5 h6 hkind (lowRecorded_finishedFpscr _ _ _ _)
  | frm => exact .kept (lowKept_setField _ _ (by omega) (by omega))
  | ftx => exact .recorded (.inr rfl) rfl rfl (fun h => absurd rfl h) (lowRecorded_recordKinds _ _ _)
  | fcx => exact .cleared rfl (lowCleared_clearKinds _ _ _ _)
  | fex => exact .kept (lowKept_setField _ _ (by omega) (by omega))
  | fdx => exact .kept (lowKept_setField _ _ (by omega) (by omega))

/-- The low bits of FPSCR after any instruction. -/
theorem lowAfter_of_leads {i : Instr} {s t : State} (h : Instr.Leads i s t) : LowAfter s i t.fpscr :=
  (fpscrAfter_of_leads h).low

/-! ### The invariant -/

/-- Some bit of a field is set exactly if the field is not zero. -/
theorem extractLsb'_ne_zero_iff (v : FpscrWord) (lo n : Nat) :
    v.extractLsb' lo n ≠ 0 ↔ ∃ j < n, v.getLsbD (lo + j) = true := by
  constructor
  · intro h
    by_contra hnone
    refine h (BitVec.eq_of_getLsbD_eq fun j hj => ?_)
    rw [BitVec.getLsbD_extractLsb', decide_eq_true hj, Bool.true_and, BitVec.ofNat_eq_ofNat, BitVec.getLsbD_zero]
    exact Bool.eq_false_iff.mpr fun hbit => hnone ⟨j, hj, hbit⟩
  · rintro ⟨j, hj, hbit⟩ hzero
    have hj0 := congrArg (BitVec.getLsbD · j) hzero
    simp [hj, hbit] at hj0

/-- The recorded types of bits 5:1 come with X1, bit by bit (R40, R245). -/
def TypesComeWithX1 (v : FpscrWord) : Prop := ∀ j, 1 ≤ j → j < 6 → v.getLsbD j = true → v.getLsbD 10 = true

/-- The invariant, its second part bit by bit. -/
theorem inv_iff (s : State) : s.Inv ↔ s.mem.wf = true ∧ TypesComeWithX1 s.fpscr := by
  refine and_congr_right fun _ => ?_
  rw [extractLsb'_ne_zero_iff]
  constructor
  · intro h j h1 h6 hj
    exact h ⟨j - 1, by omega, by rwa [Nat.add_sub_cancel' h1]⟩
  · rintro h ⟨j, hj, hbit⟩
    exact h (1 + j) (by omega) (by omega) hbit

/-- A recorded type has its X1 after any instruction, if it had before: where a type is recorded so is kind 0, and where
FCX clears X1 it clears the types. -/
theorem LowAfter.typesComeWithX1 {s : State} {i : Instr} {w : FpscrWord} (h : LowAfter s i w)
    (hs : TypesComeWithX1 s.fpscr) : TypesComeWithX1 w := by
  intro j h1 h6 hj
  cases h with
  | kept h =>
    rw [h 10 (by omega)]
    exact hs j h1 h6 (by rwa [h j (by omega)] at hj)
  | @recorded ty k _ _ _ hkind h =>
    rw [h.types j (by omega), Bool.or_eq_true] at hj
    rw [h.occurred 0 (by omega), Bool.or_eq_true]
    rcases hj with hold | hnew
    · exact .inl (hs j h1 h6 hold)
    · exact .inr (hkind fun hzero => by simp [hzero] at hnew)
  | @cleared p ra imm _ h =>
    rw [h.types j (by omega), decide_eq_true ⟨h1, h6⟩, Bool.true_and, Bool.and_eq_true] at hj
    obtain ⟨hold, hmask⟩ := hj
    rw [h.occurred 0 (by omega), hmask, Bool.and_true]
    exact hs j h1 h6 hold

/-- Every instruction keeps the invariant, whether it completes or delivers an exception. -/
theorem leads_inv {i : Instr} {s t : State} (h : Instr.Leads i s t) (hs : s.Inv) : t.Inv := by
  rw [inv_iff] at hs ⊢
  obtain ⟨hwf, htypes⟩ := hs
  exact ⟨(leads_mem_params h).1 ▸ hwf, (lowAfter_of_leads h).typesComeWithX1 htypes⟩

/-- Settles O16: a step leads where the instruction it fetched leads. -/
theorem stepKeepsInvariant : Obligations.StepKeepsInvariant := by
  refine fun s hs => ⟨fun t h => ?_, fun en d h => ?_⟩
  · obtain ⟨i, -, hexec⟩ := step_next h
    exact leads_inv (.inl hexec) hs
  · obtain ⟨i, hexec⟩ := step_fpException h
    exact leads_inv (.inr ⟨en, hexec⟩) hs

/-! ### Registers and predicate registers -/

/-- The body of an instruction changes no register but the target (R23). -/
theorem Ran.readX_other {s u : State} {i : Instr} {r : Nat} (h : Ran s i u)
    (hr : ∀ rt, i.target = some rt → regIndex r ≠ regIndex rt) : u.readX r = s.readX r := by
  cases h with
  | register _ _ ht => exact readX_writeX_other _ _ _ (hr _ ht)
  | status _ _ ht => exact readX_writeX_other _ _ _ (hr _ ht)
  | _ => rfl

/-- The body of an instruction changes no predicate register but the target (R27). -/
theorem Ran.readP_other {s u : State} {i : Instr} {q : Nat} (h : Ran s i u)
    (hq : ∀ pt, i.predTarget = some pt → predIndex q ≠ predIndex pt) : u.readP q = s.readP q := by
  cases h with
  | predicate _ hp => exact readP_writeP_other _ _ _ (hq _ hp)
  | register => exact readP_writeX _ _ _ _
  | status => exact readP_writeX _ _ _ _
  | _ => rfl

/-- A delivery changes no register but the target (R287). -/
theorem Faulted.readX_other {s d : State} {i : Instr} {en : Kinds} {r : Nat} (h : Faulted s i en d)
    (hr : ∀ rt, i.target = some rt → regIndex r ≠ regIndex rt) : d.readX r = s.readX r := by
  cases h with
  | status _ _ ht => exact readX_writeX_other _ _ _ (hr _ ht)
  | ftx => rfl

/-- A delivery changes no predicate register (R287). -/
theorem Faulted.readP_same {s d : State} {i : Instr} {en : Kinds} (h : Faulted s i en d) (q : Nat) :
    d.readP q = s.readP q := by
  cases h with
  | status => exact readP_writeX _ _ _ _
  | ftx => rfl

/-- The instructions without a target register, and those with a target predicate register, by name (R23, R27). -/
theorem targets_by_mnemonic (i : Instr) :
    (i.target = none ↔ i.mnemonic ∈ ["FCMP", "FCMPS", "FTST", "FTSTS", "FRM", "FTX", "FCX", "FEX", "FDX"]) ∧
    (i.predTarget ≠ none ↔ i.mnemonic ∈ ["FCMP", "FCMPS", "FTST", "FTSTS"]) := by
  cases i <;> simp [Instr.target, Instr.predTarget, Instr.mnemonic]

/-- Settles O14: the tables by their rows, the frame by what the body and the delivery leave. -/
theorem onlyTheTargetChanges : Obligations.OnlyTheTargetChanges := by
  refine ⟨targets_by_mnemonic, fun i s t h => ?_⟩
  rcases leads_cases h with ⟨-, -, rfl⟩ | ⟨-, -, u, hran, rfl⟩ | ⟨-, en, -, hfault⟩
  · exact ⟨fun _ _ => rfl, fun _ _ => rfl⟩
  · exact ⟨fun r hr => hran.readX_other hr, fun q hq => hran.readP_other hq⟩
  · exact ⟨fun r hr => hfault.readX_other hr, fun q _ => hfault.readP_same q⟩

/-! ### The bits of FPSCR from 15 up -/

/-- A bit of FPSCR from 15 up stays, unless it is in a field that the instruction writes: the result status, the enables
or RM (R32, R33, R35). -/
theorem FpscrAfter.high_bit {s : State} {i : Instr} {w : FpscrWord} (h : FpscrAfter s i w) {j : Nat} (hj : 15 ≤ j)
    (hstatus : 16 ≤ j → j < 23 → i.recordsStatus = false)
    (henables : 24 ≤ j → j < 29 → i.mnemonic ≠ "FEX" ∧ i.mnemonic ≠ "FDX") (hrm : 29 ≤ j → i.mnemonic ≠ "FRM") :
    w.getLsbD j = s.fpscr.getLsbD j := by
  cases h with
  | same => rfl
  | status hs =>
    have hout : ¬ (16 ≤ j ∧ j < 23) := fun ⟨h16, h23⟩ => by simp [hstatus h16 h23] at hs
    rw [getLsbD_finishedFpscr, if_neg (by omega), if_neg (by omega), if_neg (by omega), if_neg (by omega)]
    by_cases h15 : j = 15
    · rw [if_pos h15]
    · rw [if_neg h15, if_neg (by omega), if_neg (by omega), if_neg (by omega)]
  | frm =>
    have hout : ¬ 29 ≤ j := fun h29 => hrm h29 rfl
    rw [getLsbD_setField _ _ _ _ (by omega), if_neg (by omega)]
  | ftx => rw [getLsbD_recordKinds, if_neg (by omega), if_neg (by omega), if_neg (by omega)]
  | fcx => rw [getLsbD_clearKinds, if_neg (by omega), if_neg (by omega), if_neg (by omega)]
  | fex =>
    have hout : ¬ (24 ≤ j ∧ j < 29) := fun ⟨h24, h29⟩ => (henables h24 h29).1 rfl
    rw [getLsbD_setField _ _ _ _ (by omega), if_neg hout]
  | fdx =>
    have hout : ¬ (24 ≤ j ∧ j < 29) := fun ⟨h24, h29⟩ => (henables h24 h29).2 rfl
    rw [getLsbD_setField _ _ _ _ (by omega), if_neg hout]

/-- A field is as it was if its bits are. -/
theorem extractLsb'_congr {v w : FpscrWord} {lo n : Nat} (h : ∀ j < n, w.getLsbD (lo + j) = v.getLsbD (lo + j)) :
    w.extractLsb' lo n = v.extractLsb' lo n :=
  BitVec.eq_of_getLsbD_eq fun j hj => by rw [BitVec.getLsbD_extractLsb', BitVec.getLsbD_extractLsb', h j hj]

/-- Settles O19: RM is bits 31:29, the enables are bits 28:24. -/
theorem fpscrFieldsHaveOneWriter : Obligations.FpscrFieldsHaveOneWriter := by
  intro i s t h
  have after := fpscrAfter_of_leads h
  refine ⟨fun hfrm => extractLsb'_congr fun j hj => ?_, fun hfex hfdx => extractLsb'_congr fun j hj => ?_, ?_, ?_⟩
  · exact after.high_bit (by omega) (by omega) (by omega) fun _ => hfrm
  · exact after.high_bit (by omega) (by omega) (fun _ _ => ⟨hfex, hfdx⟩) (by omega)
  · exact after.high_bit (by omega) (by omega) (by omega) (by omega)
  · exact after.high_bit (by omega) (by omega) (by omega) (by omega)

/-- The instructions that record a status, by name (R35). -/
theorem recordsStatus_iff (i : Instr) : i.recordsStatus = true ↔
    i.isPlanned = true ∨ i.mnemonic ∈ ["FADD", "FADDS", "FSUB", "FSUBS", "FMUL", "FMULS", "FDIV", "FDIVS", "FTOI",
      "FTOIS", "ITOF", "ITOFS"] := by
  cases i <;> simp [Instr.recordsStatus, Instr.isPlanned, Instr.mnemonic]

/-- The shared tail does not look at the result status it overwrites (R35). -/
theorem finishWith_setField_status (rt : Nat) (word : Word) (cls : BitVec 5) (r : FpResult) (s : State)
    (x : BitVec 7) :
    finishWith rt word cls r (s.setFpscr (setField s.fpscr 16 x)) = finishWith rt word cls r s := by
  have hen : enabledOf r.kinds (s.setFpscr (setField s.fpscr 16 x)).fpscr = enabledOf r.kinds s.fpscr :=
    enabledOf_setField _ _ _ (by omega) (by omega)
  by_cases h : enabledOf r.kinds s.fpscr = 0
  · rw [finishWith_disabled h, finishWith_disabled (hen.trans h), setFpscr_fpscr, finishedFpscr_setField_status]
    rfl
  · rw [finishWith_enabled h, finishWith_enabled (hen ▸ h), hen, setFpscr_fpscr, finishedFpscr_setField_status]
    rfl

/-- An instruction that records a status does not look at the one it overwrites (R35). -/
theorem exec_setField_status {i : Instr} {s : State} (hs : i.recordsStatus = true) (hp : s.predTrue i.pred = true)
    (himp : i.isPlanned = true → s.params.fmacImplemented = true) (x : BitVec 7) :
    exec i (s.setFpscr (setField s.fpscr 16 x)) = exec i s := by
  obtain ⟨rt, word, cls, r, -, -, hexec⟩ := exec_status hs hp himp
  rw [hexec, finishWith_setField_status]
  exact (hexec s.fpscr).symm

/-- A planned instruction is refused alike under any FPSCR where the family is not implemented (R101). -/
theorem exec_setFpscr_refused {i : Instr} {s : State} (hpl : i.isPlanned = true)
    (himp : s.params.fmacImplemented = false) (v : FpscrWord) : exec i (s.setFpscr v) = exec i s := by
  rcases exec_skeleton i with ⟨-, -, body, hexec⟩ | ⟨hnot, -⟩
  · rw [hexec, hexec, planned_false himp, planned_false (s := s.setFpscr v) himp]
  · simp [hpl] at hnot

/-- Settles O20: who records a status, that no other instruction writes bits 22:16, and that they are overwritten. -/
theorem resultStatusIsOverwritten : Obligations.ResultStatusIsOverwritten := by
  refine ⟨recordsStatus_iff, fun i s t h hs j h16 h23 => ?_, fun i s x hs hp => ?_⟩
  · exact (fpscrAfter_of_leads h).high_bit (by omega) (fun _ _ => hs) (by omega) (by omega)
  · by_cases hrefused : i.isPlanned = true ∧ s.params.fmacImplemented = false
    · exact exec_setFpscr_refused hrefused.1 hrefused.2 _
    · exact exec_setField_status hs hp (by simpa using hrefused) x

/-! ### The bits of FPSCR below 15, one field at a time -/

/-- A set of kinds with a member is not empty. -/
theorem kinds_ne_zero {k : Kinds} {j : Nat} (h : k.getLsbD j = true) : k ≠ 0 := by
  rintro rfl
  simp at h

/-- Settles O21: of what can happen to the low bits only recording sets X1 to X5, and only FCX clears them. -/
theorem occurredBitsAreSticky : Obligations.OccurredBitsAreSticky := by
  intro i s t hleads k hk
  cases lowAfter_of_leads hleads with
  | kept h =>
    rw [h (10 + k) (by omega)]
    exact ⟨fun hset hclear => by simp [hset] at hclear, fun hclear hset => by simp [hclear] at hset⟩
  | recorded hi _ _ _ h =>
    rw [h.occurred k hk]
    exact ⟨fun hset hclear => by simp [hset] at hclear, fun _ _ => hi⟩
  | @cleared p ra imm hi h =>
    rw [h.occurred k hk]
    exact ⟨fun hset hclear => ⟨p, ra, imm, hi, by simpa [hset] using hclear⟩,
      fun hclear hset => by simp [hclear] at hset⟩

/-- Signalling changes FPSCR alone, whether or not a kind is enabled (R146). -/
theorem signal_leads {k : Kinds} {s t : State}
    (h : signal k s = .next t ∨ ∃ en, signal k s = .fault (.fpException en t)) :
    t = s.setFpscr (recordKinds s.params.gxPolicy k s.fpscr) := by
  by_cases hen : enabledOf k s.fpscr = 0
  · rw [signal_disabled hen] at h
    rcases h with h | ⟨en, h⟩ <;> cases h
    rfl
  · rw [signal_enabled hen] at h
    rcases h with h | ⟨en, h⟩ <;> cases h
    rfl

/-- Recording a kind sets SX (R39). -/
theorem LowRecorded.summary_set {pol : GxPolicy} {ty : Types} {k : Kinds} {v w : FpscrWord}
    (h : LowRecorded pol ty k v w) (hk : k ≠ 0) : w.getLsbD 8 = true := by
  rw [h.summary, decide_eq_true hk, Bool.or_true]

/-- Where one of X1 to X5 becomes set, SX is set (R39). -/
theorem LowAfter.summary_of_occurred {s : State} {i : Instr} {w : FpscrWord} (h : LowAfter s i w) {k : Nat} (hk : k < 5)
    (hclear : s.fpscr.getLsbD (10 + k) = false) (hset : w.getLsbD (10 + k) = true) : w.getLsbD 8 = true := by
  cases h with
  | kept h => simp [h (10 + k) (by omega), hclear] at hset
  | cleared _ h => simp [h.occurred k hk, hclear] at hset
  | recorded _ _ _ _ h =>
    rw [h.occurred k hk, hclear, Bool.false_or] at hset
    exact h.summary_set (kinds_ne_zero hset)

/-- Where SX becomes clear, FCX with mask bit 5 cleared it (R39, R245). -/
theorem LowAfter.summary_clear {s : State} {i : Instr} {w : FpscrWord} (h : LowAfter s i w)
    (hset : s.fpscr.getLsbD 8 = true) (hclear : w.getLsbD 8 = false) :
    ∃ p ra imm, i = .fcx p ra imm ∧ s.maskBit ra imm 5 = true := by
  cases h with
  | kept h =>
    rw [h 8 (by omega), hset] at hclear
    cases hclear
  | recorded _ _ _ _ h =>
    rw [h.summary, hset, Bool.true_or] at hclear
    cases hclear
  | @cleared p ra imm hi h =>
    rw [h.summary, hset, Bool.true_and, Bool.not_eq_false'] at hclear
    exact ⟨p, ra, imm, hi, hclear⟩

/-- Settles O22: recording a kind sets SX, and only FCX clears it. -/
theorem summaryBit : Obligations.SummaryBit := by
  refine ⟨fun k s t h hk => ?_, fun i s t hleads => ?_⟩
  · rw [signal_leads h]
    exact (lowRecorded_recordKinds _ k _).summary_set hk
  · have after := lowAfter_of_leads hleads
    exact ⟨fun k hk => after.summary_of_occurred hk, after.summary_clear⟩

/-- A type bit that becomes set comes with X1, and is neither bit 5 nor bit 6 (R40). -/
theorem LowAfter.type_set {s : State} {i : Instr} {w : FpscrWord} (h : LowAfter s i w) {j : Nat} (hj : j < 8)
    (hclear : s.fpscr.getLsbD j = false) (hset : w.getLsbD j = true) : w.getLsbD 10 = true ∧ j ≠ 5 ∧ j ≠ 6 := by
  cases h with
  | kept h => simp [h j (by omega), hclear] at hset
  | cleared _ h => simp [h.types j hj, hclear] at hset
  | @recorded ty k _ h5 h6 hkind h =>
    rw [h.types j hj, hclear, Bool.false_or] at hset
    have hty : ty ≠ 0 := by rintro rfl; simp at hset
    refine ⟨?_, ?_, ?_⟩
    · rw [h.occurred 0 (by omega), hkind hty, Bool.or_true]
    · rintro rfl
      rw [h5] at hset
      cases hset
    · rintro rfl
      rw [h6] at hset
      cases hset

/-- A type bit that becomes clear is one of 5 to 1, and FCX with mask bit 0 cleared it, and X1 (R40, R245). -/
theorem LowAfter.type_clear {s : State} {i : Instr} {w : FpscrWord} (h : LowAfter s i w) {j : Nat} (hj : j < 8)
    (hset : s.fpscr.getLsbD j = true) (hclear : w.getLsbD j = false) :
    1 ≤ j ∧ j ≤ 5 ∧ w.getLsbD 10 = false ∧ ∃ p ra imm, i = .fcx p ra imm ∧ s.maskBit ra imm 0 = true := by
  cases h with
  | kept h => simp [h j (by omega), hset] at hclear
  | recorded _ _ _ _ h => simp [h.types j hj, hset] at hclear
  | @cleared p ra imm hi h =>
    rw [h.types j hj, hset, Bool.true_and, Bool.not_eq_false', Bool.and_eq_true, decide_eq_true_eq] at hclear
    obtain ⟨⟨h1, h6⟩, hmask⟩ := hclear
    exact ⟨h1, by omega, by rw [h.occurred 0 (by omega), hmask]; simp, p, ra, imm, hi, hmask⟩

/-- FCX, where its predicate holds, clears what its mask names (R245). -/
theorem fcx_clears {p : Pred} {ra imm : Nat} {s t : State} (hp : s.predTrue p = true)
    (h : Instr.Leads (.fcx p ra imm) s t) : LowCleared (s.maskBit ra imm) s.fpscr t.fpscr := by
  have hexec : exec (.fcx p ra imm) s =
      .next ((s.setFpscr (clearKinds (s.maskOperand ra imm) s.fpscr)).advance 4) := predicated_true hp
  rw [Instr.Leads, hexec] at h
  rcases h with h | ⟨en, h⟩ <;> cases h
  exact lowCleared_clearKinds s ra imm s.fpscr

/-- Settles O23: a type bit that becomes set, one that becomes clear, and what FCX with mask bit 0 leaves. -/
theorem invalidTypeBitsAreSticky : Obligations.InvalidTypeBitsAreSticky := by
  refine ⟨fun i s t hleads j hj => ?_, fun p ra imm s t hp hmask hleads => ?_⟩
  · have after := lowAfter_of_leads hleads
    exact ⟨after.type_set hj, after.type_clear hj⟩
  · have cleared := fcx_clears hp hleads
    refine ⟨?_, fun j h1 h5 => ?_⟩
    · rw [cleared.occurred 0 (by omega), hmask]
      simp
    · rw [cleared.types j (by omega), hmask, decide_eq_true ⟨h1, by omega⟩]
      simp

/-- Some kind of a set is enabled, bit by bit (R33, R146). -/
theorem enabledOf_ne_zero_iff (k : Kinds) (v : FpscrWord) :
    enabledOf k v ≠ 0 ↔ ∃ j < 5, k.getLsbD j = true ∧ v.getLsbD (24 + j) = true :=
  (enabledKind_iff (State.reset.setFpscr v) k).symm

/-- GX under the derived policy: a kind is enabled and recorded (R38). -/
theorem fpscrGX_derived_iff (v : FpscrWord) :
    fpscrGX .derived v = true ↔ ∃ k < 5, v.getLsbD (10 + k) = true ∧ v.getLsbD (24 + k) = true := by
  have hgx : fpscrGX .derived v = true ↔ enabledOf (fpscrOccurred v) v ≠ 0 := decide_eq_true_iff
  rw [hgx, enabledOf_ne_zero_iff]
  refine exists_congr fun k => and_congr_right fun hk => ?_
  rw [getLsbD_occurred, decide_eq_true hk, Bool.true_and]

/-- Bit 9 after any instruction: only the sticky policy sets it, and nothing clears it (R38, log 23). -/
theorem LowAfter.gx {s : State} {i : Instr} {w : FpscrWord} (h : LowAfter s i w) :
    (s.params.gxPolicy = .derived → w.getLsbD 9 = s.fpscr.getLsbD 9) ∧
    (s.fpscr.getLsbD 9 = true → w.getLsbD 9 = true) := by
  cases h with
  | kept h => exact ⟨fun _ => h 9 (by omega), fun hset => (h 9 (by omega)).trans hset⟩
  | cleared _ h => exact ⟨fun _ => h.gx, fun hset => h.gx.trans hset⟩
  | recorded _ _ _ _ h =>
    rw [h.gx]
    exact ⟨fun hpol => by simp [hpol], fun hset => by simp [hset]⟩

/-- Bit 9 after signalling: the sticky policy sets it where an enabled kind is signalled (R38, R146). -/
theorem signal_gx {k : Kinds} {s t : State}
    (h : signal k s = .next t ∨ ∃ en, signal k s = .fault (.fpException en t)) :
    t.fpscr.getLsbD 9 = (s.fpscr.getLsbD 9 ||
      decide (s.params.gxPolicy = .sticky ∧ enabledOf k s.fpscr ≠ 0)) := by
  rw [signal_leads h]
  exact (lowRecorded_recordKinds _ k _).gx

/-- Signalling faults only if a kind is enabled (R146). -/
theorem enabled_of_signal_fault {k : Kinds} {s : State} {e : Fault} (h : signal k s = .fault e) :
    enabledOf k s.fpscr ≠ 0 := fun hen => by
  rw [signal_disabled hen] at h
  cases h

/-- Signalling completes only if no kind is enabled (R146). -/
theorem disabled_of_signal_next {k : Kinds} {s t : State} (h : signal k s = .next t) : enabledOf k s.fpscr = 0 := by
  by_contra hen
  rw [signal_enabled hen] at h
  cases h

/-- Settles O24: GX as read, bit 9 after an instruction, and bit 9 after signalling with and without an enabled kind. -/
theorem gxUnderEachPolicy : Obligations.GxUnderEachPolicy := by
  refine ⟨fun v => ⟨fpscrGX_derived_iff v, rfl⟩, fun i s t hleads => (lowAfter_of_leads hleads).gx,
    fun k s en d h hpol => ?_, fun k s d h => ?_⟩
  · rw [signal_gx (.inr ⟨en, h⟩), decide_eq_true ⟨hpol, enabled_of_signal_fault h⟩, Bool.or_true]
  · rw [signal_gx (.inl h), disabled_of_signal_next h]
    simp

/-! ### Length and pc -/

/-- Decoding undoes encoding, for every instruction: the lemmas of the family, put together. -/
theorem decode_encode (i : Instr) : Laws.DecodeEncode.Statement i := by
  open Laws.DecodeEncode in
  cases i
  exacts [fmov _ _ _, ftoi _ _ _, itof _ _ _, fneg _ _ _, fabs _ _ _, fsign _ _ _, fman _ _ _, fstat _ _, frm _ _ _,
    fmovs _ _ _, ftois _ _ _, itofs _ _ _, fnegs _ _ _, fabss _ _ _, fsigns _ _ _, fmans _ _ _, ftx _ _ _, fcx _ _ _,
    fex _ _ _, fdx _ _ _, fadd _ _ _ _, fsub _ _ _ _, fmul _ _ _ _, fdiv _ _ _ _, fadds _ _ _ _, fsubs _ _ _ _,
    fmuls _ _ _ _, fdivs _ _ _ _, fcmp _ _ _ _, fcmps _ _ _ _, ftst _ _ _, ftsts _ _ _, fmacS _ _ _ _ _,
    fmasS _ _ _ _ _, fnmacS _ _ _ _ _, fnmasS _ _ _ _ _, fmac _ _ _ _ _, fmas _ _ _ _ _, fnmac _ _ _ _ _,
    fnmas _ _ _ _ _]

/-- The second byte of a number. -/
theorem second_byte_bytesOf {n w : Nat} {b op : Byte} {rest : List Byte} (h : bytesOf n w = b :: op :: rest) :
    op = BitVec.ofNat 8 (field w 8 8) := by
  rw [← opcode_byte]
  match n, h with
  | n + 2, h =>
    simp only [bytesOf, List.cons.injEq] at h
    exact h.2.1.symm

/-- The opcode byte of an encoding tells the instruction's length (R81). -/
theorem instrLength_encodeWord {i : Instr} (hw : i.wellFormed = true) :
    instrLength (BitVec.ofNat 8 (field (encodeWord i) 8 8)) = some i.length := by
  obtain ⟨b, op, rest, hbytes, hlen, -, -⟩ := decode_ok (decode_encode i hw [])
  rw [List.append_nil] at hbytes
  rwa [← second_byte_bytesOf hbytes]

/-- An instruction has the length its opcode byte tells (R81). -/
theorem length_of_opcode {i : Instr} (hw : i.wellFormed = true) {op n : Nat} (hop : field (encodeWord i) 8 8 = op)
    (hn : instrLength (BitVec.ofNat 8 op) = some n) : i.length = n := by
  have hlen := instrLength_encodeWord hw
  rw [hop, hn] at hlen
  exact (Option.some.inj hlen).symm

/-- The lengths of the test and compare instructions, by name (R25). -/
theorem length_by_mnemonic (i : Instr) :
    (i.mnemonic ∈ ["FTST", "FTSTS"] → i.length = 3) ∧ (i.mnemonic ∈ ["FCMP", "FCMPS"] → i.length = 4) := by
  cases i <;> simp [Instr.length, Instr.mnemonic]

/-- The state with another pc. -/
def State.atPc (s : State) (a : Addr) : State := { s with pc := a }

/-- A body does from another pc what it does from this one, and leaves that pc alone. -/
def IgnoresPc (body : State → Result) : Prop := ∀ s a, body (s.atPc a) = onState (·.atPc a) (body s)

/-- The outcome of an instruction of `len` bytes, were pc `a`: past the instruction if it completes, else still `a`. -/
def rerunAt (a : Addr) (len : Nat) : Result → Result
  | .next t => .next (t.atPc (a + BitVec.ofNat 64 len))
  | r => onState (·.atPc a) r

/-- The skeleton around a body that ignores pc only moves pc (R15, R25). -/
theorem predicated_atPc {body : State → Result} (hbody : IgnoresPc body) (p : Pred) (len : Nat) (s : State) (a : Addr) :
    predicated p len body (s.atPc a) = rerunAt a len (predicated p len body s) := by
  cases hp : s.predTrue p
  · rw [predicated_false hp, predicated_false (s := s.atPc a) hp]
    rfl
  · rw [predicated_true hp, predicated_true (s := s.atPc a) hp, hbody]
    rcases body s with _ | (_ | _) | _ <;> rfl

/-- So does the skeleton of a planned instruction (R101). -/
theorem planned_atPc {body : State → Result} (hbody : IgnoresPc body) (m : String) (p : Pred) (s : State) (a : Addr) :
    planned m p body (s.atPc a) = rerunAt a 6 (planned m p body s) := by
  cases himp : s.params.fmacImplemented
  · rw [planned_false himp, planned_false (s := s.atPc a) himp]
    rfl
  · rw [planned_true himp, planned_true (s := s.atPc a) himp, predicated_atPc hbody]

/-- A body that writes a register with a value that does not depend on pc. -/
theorem ignoresPc_unaryBody {value : State → Word} (rt : Nat) (hv : ∀ s a, value (State.atPc s a) = value s) :
    IgnoresPc (unaryBody rt value) := fun s a => by
  unfold unaryBody
  rw [hv]
  exact congrArg Host.Outcome.next (writeX_setPc s rt (value s) a)

theorem ignoresPc_fstatBody (rt : Nat) : IgnoresPc (fstatBody rt) :=
  fun s a => congrArg Host.Outcome.next (writeX_setPc s rt _ a)

theorem ignoresPc_arithBody (f : Fmt) (op : FpOp) (rt ra rb : Nat) : IgnoresPc (arithBody f op rt ra rb) :=
  fun s a => finishWith_setPc rt _ _ (s.arithResult f op ra rb) s a

theorem ignoresPc_macBody (f : Fmt) (subc negr : Bool) (rt ra rb rc : Nat) :
    IgnoresPc (macBody f subc negr rt ra rb rc) :=
  fun s a => finishWith_setPc rt _ _ (s.macResult f subc negr ra rb rc) s a

theorem ignoresPc_ftoiBody (f : Fmt) (rt ra : Nat) : IgnoresPc (ftoiBody f rt ra) :=
  fun s a => finishWith_setPc rt _ _ _ s a

theorem ignoresPc_itofBody (f : Fmt) (rt ra : Nat) : IgnoresPc (itofBody f rt ra) :=
  fun s a => finishWith_setPc rt _ _ _ s a

theorem ignoresPc_ftxBody (ra imm : Nat) : IgnoresPc (ftxBody ra imm) := fun s a => signal_setPc _ s a

/-- An instruction run from another pc (R25). -/
theorem exec_atPc (i : Instr) (s : State) (a : Addr) : exec i (s.atPc a) = rerunAt a i.length (exec i s) := by
  cases i with
  | fmov | fmovs | fneg | fnegs | fabs | fabss | fsign | fsigns | fman | fmans =>
    exact predicated_atPc (ignoresPc_unaryBody _ fun _ _ => rfl) _ _ s a
  | fstat => exact predicated_atPc (ignoresPc_fstatBody _) _ _ s a
  | frm | fcx | fex | fdx | fcmp | fcmps | ftst | ftsts => exact predicated_atPc (fun _ _ => rfl) _ _ s a
  | ftx => exact predicated_atPc (ignoresPc_ftxBody _ _) _ _ s a
  | ftoi | ftois => exact predicated_atPc (ignoresPc_ftoiBody _ _ _) _ _ s a
  | itof | itofs => exact predicated_atPc (ignoresPc_itofBody _ _ _) _ _ s a
  | fadd | fsub | fmul | fdiv | fadds | fsubs | fmuls | fdivs =>
    exact predicated_atPc (ignoresPc_arithBody _ _ _ _ _) _ _ s a
  | fmacS | fmasS | fnmacS | fnmasS | fmac | fmas | fnmac | fnmas =>
    exact planned_atPc (ignoresPc_macBody _ _ _ _ _ _ _) _ _ s a

/-- Settles O10: the advance, the lengths by name and by opcode byte, and what another pc changes. -/
theorem pcAdvancesByLength : Obligations.PcAdvancesByLength := by
  refine ⟨fun i s t h => ?_, fun i => ?_, fun i s a => ?_⟩
  · obtain ⟨-, -, hpc, hdraws⟩ := exec_next_rest h
    exact ⟨hpc, hdraws⟩
  · obtain ⟨htest, hcompare⟩ := length_by_mnemonic i
    refine ⟨htest, hcompare, fun hw => ⟨?_, fun hop => ?_, fun hop => ?_⟩⟩
    · rintro (hop | hop) <;> exact length_of_opcode hw hop rfl
    · exact length_of_opcode hw hop rfl
    · exact length_of_opcode hw hop rfl
  · have hrun : exec i { s with pc := a } = rerunAt a i.length (exec i s) := exec_atPc i s a
    rw [hrun]
    refine ⟨fun t h => ?_, fun en d h => ?_, fun r h => ?_⟩ <;> rw [h] <;> rfl

end Sys2Proof.Machine
end

section
/-! Proofs for the family 20_memory.md: the number a read gives, the bytes a write stores, a fetch of missing bytes. -/

namespace Sys2Proof.Machine

/-! ### Memory -/

/-- The number a list of bytes is, as a sum (R62, R63). -/
theorem wordOf_map_range (byte : Nat → Byte) (n : Nat) :
    wordOf ((List.range n).map byte) = ∑ i ∈ Finset.range n, (byte i).toNat * 2 ^ (8 * i) := by
  induction n generalizing byte with
  | zero => rfl
  | succ n ih =>
    have hshift (i : Nat) : (byte (i + 1)).toNat * 2 ^ (8 * (i + 1)) =
        256 * ((byte (i + 1)).toNat * 2 ^ (8 * i)) := by
      rw [show 8 * (i + 1) = 8 * i + 8 by omega, Nat.pow_add]
      ring
    rw [List.range_succ_eq_map, List.map_cons, List.map_map, wordOf, ih, Finset.sum_range_succ', Finset.mul_sum,
      Finset.sum_congr rfl fun i _ => hshift i, Nat.add_comm]
    simp

/-- A byte of a number (R62, R64). -/
theorem getElem_bytesOf (n v i : Nat) (hi : i < (bytesOf n v).length) :
    (bytesOf n v)[i] = BitVec.ofNat 8 (v / 2 ^ (8 * i)) := by
  induction n generalizing v i with
  | zero => simp at hi
  | succ n ih =>
    cases i with
    | zero => simp [bytesOf]
    | succ i =>
      have hrest : i < (bytesOf n (v / 256)).length := by simpa using hi
      calc (bytesOf (n + 1) v)[i + 1]
        _ = BitVec.ofNat 8 (v / 256 / 2 ^ (8 * i)) := ih _ _ hrest
        _ = BitVec.ofNat 8 (v / 2 ^ (8 * (i + 1))) := by
          rw [Nat.div_div_eq_div_mul, show 8 * (i + 1) = 8 + 8 * i by omega, Nat.pow_add]

/-- `MemRead` is the little-endian number of the bytes held (R63). -/
theorem memRead_of_byteAt {m : Memory} {a : Addr} {n : Nat} {byte : Nat → Byte}
    (h : ∀ i < n, m.byteAt (a + BitVec.ofNat 64 i).toNat = some (byte i)) :
    m.memRead a n = some (∑ i ∈ Finset.range n, (byte i).toNat * 2 ^ (8 * i)) := by
  have hread : m.readBytes a n = some ((List.range n).map byte) :=
    readBytes_eq_some.mpr ⟨by simp, fun i hi => by simpa using h i (by simpa using hi)⟩
  rw [Memory.memRead, hread, Option.map_some, wordOf_map_range]

/-- `MemWrite` stores the bytes of its value, if they do not wrap onto each other (R64). -/
theorem byteAt_memWrite (m : Memory) (a : Addr) {n : Nat} (v : Nat) (hn : n ≤ 2 ^ 64) {i : Nat} (hi : i < n) :
    (m.memWrite a n v).byteAt (a + BitVec.ofNat 64 i).toNat = some (BitVec.ofNat 8 (v / 2 ^ (8 * i))) := by
  rw [Memory.memWrite, byteAt_writeBytes m a (bytesOf n v) (by simpa using hn) i (by simpa using hi), getElem_bytesOf]

/-- `MemWrite` leaves every other byte (R64). -/
theorem byteAt_memWrite_other (m : Memory) (a : Addr) (n v : Nat) {y : Nat}
    (h : ∀ i < n, y ≠ (a + BitVec.ofNat 64 i).toNat) : (m.memWrite a n v).byteAt y = m.byteAt y :=
  byteAt_writeBytes_other m a _ y fun i hi => h i (by simpa using hi)

/-- Settles O12: what a read gives, what a write stores and leaves, and that no instruction writes memory. -/
theorem memoryReadAndWrite : Obligations.MemoryReadAndWrite := by
  refine ⟨fun m a n byte _ => memRead_of_byteAt, fun m a n v hn => ⟨fun i => ?_, fun y => ?_, fun hwf => ?_⟩,
    fun i s t h => ?_⟩
  · exact byteAt_memWrite m a v (by omega)
  · exact byteAt_memWrite_other m a n v
  · exact wf_memWrite hwf a n v
  · exact (leads_mem_params (.inl h)).1

/-! ### A fetch of bytes that memory does not hold -/

/-- A fetch finds nothing where memory lacks the predicate or the opcode byte (R68, R82). -/
theorem fetch_missing_head {s : State} (h : s.mem.readBytes s.pc 2 = none) : s.fetch = .missing := by
  rw [State.fetch, h]

/-- A fetch finds nothing where memory lacks a byte of the length that the opcode byte tells (R68, R82). -/
theorem fetch_missing_tail {s : State} {b op : Byte} {n : Nat} (h2 : s.mem.readBytes s.pc 2 = some [b, op])
    (hl : instrLength op = some n) (h : s.mem.readBytes s.pc n = none) : s.fetch = .missing := by
  rw [State.fetch, h2]
  simp only [hl, h]

/-- A step whose fetch finds nothing is the named fault (R68, log 10). -/
theorem step_missing {s : State} (h : s.fetch = .missing) : step s = .fault (.fetchOutsideProgram s.pc) := by
  rw [step, h]

/-- Settles O8: the two ways a fetch finds nothing. -/
theorem fetchOutsideProgramStops : Obligations.FetchOutsideProgramStops := fun _ =>
  ⟨fun h => step_missing (fetch_missing_head h), fun _ _ _ h2 hl h => step_missing (fetch_missing_tail h2 hl h)⟩

end Sys2Proof.Machine
end

section
/-! Proofs for the family 30_encoding.md: the encoder and the decoder, the opcode table, what is refused. -/

namespace Sys2Proof.Machine

/-! ### Decoding undoes encoding -/

/-- Settles O1: `decode_encode`, whose lemmas say it format by format and instruction by instruction. -/
theorem decodeUndoesEncode : Obligations.DecodeUndoesEncode := fun i hwf => decode_encode i hwf

/-! ### Where the fields of an encoding stand -/

theorem fieldsFR2_encode {p : Pred} {op fn rt ra : Nat} (hp : p.fits = true) (hop : op < 256) (hf : fn < 16)
    (ht : rt < 64) (ha : ra < 64) : FieldsFR2 (encodeFR2 p op fn rt ra) p op fn rt ra := by
  obtain ⟨hlt, hpc, hpn, hop, hra, hrt, hfn⟩ := fields_FR2 (p.fits_iff.mp hp) hop hf ht ha
  exact ⟨hlt, hfn, hrt, hra, hop, hpn, hpc⟩

theorem fieldsFR3_encode {p : Pred} {fn rt ra rb : Nat} (hp : p.fits = true) (hf : fn < 64) (ht : rt < 64)
    (ha : ra < 64) (hb : rb < 64) : FieldsFR3 (encodeFR3 p fn rt ra rb) p fn rt ra rb := by
  obtain ⟨hlt, hpc, hpn, hop, hra, hrb, hrt, hfn⟩ := fields_FR3 (p.fits_iff.mp hp) hf ht ha hb
  exact ⟨hlt, hfn, hrt, hrb, hra, hop, hpn, hpc⟩

/-- The bits of format FR4 above the function code stay zero (R99). -/
theorem encodeFR4_lt {p : Pred} {o5 rt ra rb rc : Nat} (hp : p.pn < 16 ∧ p.pc < 16) (ho : o5 < 32) (ht : rt < 64)
    (ha : ra < 64) (hb : rb < 64) (hc : rc < 64) : encodeFR4 p o5 rt ra rb rc < 2 ^ 45 := by
  simp only [encodeFR4, encodeHead]
  omega

theorem fieldsFR4_encode {p : Pred} {o5 rt ra rb rc : Nat} (hp : p.fits = true) (ho : o5 < 32) (ht : rt < 64)
    (ha : ra < 64) (hb : rb < 64) (hc : rc < 64) : FieldsFR4 (encodeFR4 p o5 rt ra rb rc) p o5 rt ra rb rc := by
  have hp' := p.fits_iff.mp hp
  obtain ⟨hlt, hpc, hpn, hop, hra, hrb, hrc, hrt, ho5⟩ := fields_FR4 hp' ho ht ha hb hc
  have hunused : field (encodeFR4 p o5 rt ra rb rc) 45 3 = 0 := by
    rw [field, Nat.div_eq_of_lt (encodeFR4_lt hp' ho ht ha hb hc), Nat.zero_mod]
  exact ⟨hlt, hunused, ho5, hrt, hrc, hrb, hra, hop, hpn, hpc⟩

/-- The halves of the opcode byte of FC32 and FT24 (R87, R88). -/
theorem field_opcode_high (w : Nat) : field w 12 4 = field w 8 8 / 16 := by
  simp only [field]
  omega

theorem fieldsFC32_encode {p : Pred} {fn pt ra rb : Nat} (hp : p.fits = true) (hf : fn < 16) (ht : pt < 16)
    (ha : ra < 64) (hb : rb < 64) : FieldsFC32 (encodeFC32 p fn pt ra rb) p fn pt ra rb := by
  obtain ⟨hlt, hpc, hpn, hop, hpt, hra, hrb, hfn⟩ := fields_FC32 (p.fits_iff.mp hp) hf ht ha hb
  exact ⟨hlt, hfn, hrb, hra, by rw [field_opcode_high, hop]; omega, hpt, hpn, hpc⟩

theorem fieldsFT24_encode {p : Pred} {fn pt ra : Nat} (hp : p.fits = true) (hf : fn < 4) (ht : pt < 16) (ha : ra < 64) :
    FieldsFT24 (encodeFT24 p fn pt ra) p fn pt ra := by
  obtain ⟨hlt, hpc, hpn, hop, hpt, hra, hfn⟩ := fields_FT24 (p.fits_iff.mp hp) hf ht ha
  exact ⟨hlt, hfn, hra, by rw [field_opcode_high, hop]; omega, hpt, hpn, hpc⟩

/-- Settles O4: the six formats, then every instruction, whose word is its format's with its own opcode byte and
function code. -/
theorem fieldsOfTheFormats : Obligations.FieldsOfTheFormats := by
  refine ⟨fun p op fn rt ra => fieldsFR2_encode, fun p fn rt ra rb => fieldsFR3_encode,
    fun p o5 rt ra rb rc => fieldsFR4_encode, fun p fn pt ra rb => fieldsFC32_encode,
    fun p fn pt ra => fieldsFT24_encode, fun p rt ra hp ht ha => ⟨fun x hx => ?_, ?_⟩,
    fun p ra imm hp ha hi x hx => ?_, fun p rt ra rb hp ht ha hb x hx => ?_,
    fun p rt ra rb rc hp ht ha hb hc x hx => ?_, fun p pt ra rb hp ht ha hb => ⟨?_, ?_⟩,
    fun p pt ra hp ht ha => ⟨?_, ?_⟩⟩
  · obtain ⟨henc, hop, hfn⟩ : encodeWord (x.1 p rt ra) = encodeFR2 p x.2.1 x.2.2 rt ra ∧ x.2.1 < 256 ∧ x.2.2 < 16 := by
      revert x
      simp [encodeWord]
    rw [henc]
    exact fieldsFR2_encode hp hop hfn ht ha
  · exact fieldsFR2_encode hp (by decide) (by decide) ht (by decide)
  · obtain ⟨henc, hop, hfn⟩ :
        encodeWord (x.1 p ra imm) = encodeFR2 p x.2.1 x.2.2 imm ra ∧ x.2.1 < 256 ∧ x.2.2 < 16 := by
      revert x
      simp [encodeWord]
    rw [henc]
    exact fieldsFR2_encode hp hop hfn hi ha
  · obtain ⟨henc, hfn⟩ : encodeWord (x.1 p rt ra rb) = encodeFR3 p x.2 rt ra rb ∧ x.2 < 64 := by
      revert x
      simp [encodeWord]
    rw [henc]
    exact fieldsFR3_encode hp hfn ht ha hb
  · obtain ⟨henc, ho⟩ : encodeWord (x.1 p rt ra rb rc) = encodeFR4 p x.2 rt ra rb rc ∧ x.2 < 32 := by
      revert x
      simp [encodeWord]
    rw [henc]
    exact fieldsFR4_encode hp ho ht ha hb hc
  · exact fieldsFC32_encode hp (by decide) ht ha hb
  · exact fieldsFC32_encode hp (by decide) ht ha hb
  · exact fieldsFT24_encode hp (by decide) ht ha
  · exact fieldsFT24_encode hp (by decide) ht ha

/-! ### Fields and the classes of opcode bytes -/

theorem field_lt (w lo k : Nat) : field w lo k < 2 ^ k := Nat.mod_lt _ (Nat.two_pow_pos k)

/-- The six classes of opcode bytes, with the length each gives (R81). -/
theorem opcode_cases {w n : Nat} (h : instrLength (BitVec.ofNat 8 (field w 8 8)) = some n) :
    (field w 8 8 < 0x10 ∧ n = 3) ∨ ((0x10 ≤ field w 8 8 ∧ field w 8 8 < 0x20) ∧ n = 4) ∨
    (field w 8 8 = 0x76 ∧ n = 6) ∨ (field w 8 8 = 0x77 ∧ n = 4) ∨ (field w 8 8 = 0x78 ∧ n = 5) ∨
    (field w 8 8 = 0x79 ∧ n = 4) := by
  have hop : (BitVec.ofNat 8 (field w 8 8)).toNat = field w 8 8 := by
    rw [BitVec.toNat_ofNat, Nat.mod_eq_of_lt (field_lt w 8 8)]
  simp only [instrLength, ← BitVec.toNat_inj, hop, BitVec.reduceToNat] at h
  split_ifs at h <;> cases h
  all_goals omega

/-- The opcode byte is the second byte (R80). -/
theorem field_opcode (b op : Byte) (rest : List Byte) : field (wordOf (b :: op :: rest)) 8 8 = op.toNat := by
  simp only [field, wordOf]
  have := b.isLt
  have := op.isLt
  omega

theorem functionCode_test {w : Nat} (h : field w 8 8 < 0x10) : functionCode w = field w 22 2 := by
  simp [functionCode, h]

theorem functionCode_compare {w : Nat} (h : 0x10 ≤ field w 8 8 ∧ field w 8 8 < 0x20) :
    functionCode w = field w 28 4 := by
  unfold functionCode
  rw [if_neg (by omega), if_neg (by omega), if_neg (by omega)]

theorem functionCode_76 {w : Nat} (h : field w 8 8 = 0x76) : functionCode w = field w 40 5 := by
  simp [functionCode, h]

theorem functionCode_77 {w : Nat} (h : field w 8 8 = 0x77) : functionCode w = field w 28 4 := by
  simp [functionCode, h]

theorem functionCode_78 {w : Nat} (h : field w 8 8 = 0x78) : functionCode w = field w 34 6 := by
  simp [functionCode, h]

theorem functionCode_79 {w : Nat} (h : field w 8 8 = 0x79) : functionCode w = field w 28 4 := by
  simp [functionCode, h]

/-! ### The bytes an instruction was read from -/

@[simp] theorem fits_predField (w : Nat) : (predField w).fits = true :=
  (predField w).fits_iff.mpr ⟨field_lt w 4 4, field_lt w 0 4⟩

@[simp] theorem fits6_field (w lo : Nat) : fits6 (field w lo 6) = true :=
  (fits6_iff _).mpr (field_lt w lo 6)

@[simp] theorem fits4_field (w lo : Nat) : fits4 (field w lo 4) = true :=
  (fits4_iff _).mpr (field_lt w lo 4)

/-- An instruction is well formed, of `n` bytes, planned or not, and its word is `v`. -/
structure EncodesTo (i : Instr) (n : Nat) (planned : Bool) (v : Nat) : Prop where
  wellFormed : i.wellFormed = true
  length : i.length = n
  isPlanned : i.isPlanned = planned
  word : encodeWord i = v

theorem encodesTo_decodeTest {w : Nat} {i : Instr} (h : decodeTest w = some i) :
    EncodesTo i 3 false (encodeFT24 (predField w) (field w 22 2) (field w 8 4) (field w 16 6)) := by
  unfold decodeTest at h
  split at h <;> cases h
  all_goals next hfn => exact ⟨by simp [Instr.wellFormed], rfl, rfl, by rw [hfn]; rfl⟩

theorem encodesTo_decodeCompare {w : Nat} {i : Instr} (h : decodeCompare w = some i) :
    EncodesTo i 4 false (encodeFC32 (predField w) (field w 28 4) (field w 8 4) (field w 16 6) (field w 22 6)) := by
  unfold decodeCompare at h
  split at h <;> cases h
  all_goals next hfn => exact ⟨by simp [Instr.wellFormed], rfl, rfl, by rw [hfn]; rfl⟩

theorem encodesTo_decode76 {w : Nat} {i : Instr} (h : decode76 w = some i) :
    EncodesTo i 6 true
      (encodeFR4 (predField w) (field w 40 5) (field w 34 6) (field w 16 6) (field w 22 6) (field w 28 6)) := by
  unfold decode76 at h
  split at h <;> cases h
  all_goals next hfn => exact ⟨by simp [Instr.wellFormed], rfl, rfl, by rw [hfn]; rfl⟩

theorem encodesTo_decode77 {w : Nat} {i : Instr} (h : decode77 w = some i) :
    EncodesTo i 4 false (encodeFR2 (predField w) 0x77 (field w 28 4) (field w 22 6)
      (if i.mnemonic = "FSTAT" then 0 else field w 16 6)) := by
  unfold decode77 at h
  split at h <;> cases h
  all_goals next hfn => exact ⟨by simp [Instr.wellFormed], rfl, rfl, by simp [hfn, encodeWord, Instr.mnemonic]⟩

theorem encodesTo_decode78 {w : Nat} {i : Instr} (h : decode78 w = some i) :
    EncodesTo i 5 false
      (encodeFR3 (predField w) (field w 34 6) (field w 28 6) (field w 16 6) (field w 22 6)) := by
  unfold decode78 at h
  split at h <;> cases h
  all_goals next hfn => exact ⟨by simp [Instr.wellFormed], rfl, rfl, by rw [hfn]; rfl⟩

theorem encodesTo_decode79 {w : Nat} {i : Instr} (h : decode79 w = some i) :
    EncodesTo i 4 false (encodeFR2 (predField w) 0x79 (field w 28 4) (field w 22 6) (field w 16 6)) := by
  unfold decode79 at h
  split at h <;> cases h
  all_goals next hfn => exact ⟨by simp [Instr.wellFormed], rfl, rfl, by rw [hfn]; rfl⟩

/-- A word of format FT24 put together again from its fields (R87). -/
theorem encodeFT24_fields {w : Nat} (hw : w < 2 ^ 24) (hop : field w 8 8 < 0x10) :
    encodeFT24 (predField w) (field w 22 2) (field w 8 4) (field w 16 6) = w := by
  simp only [encodeFT24, encodeHead, predField, field] at hop ⊢
  omega

/-- A word of format FC32 put together again from its fields (R88). -/
theorem encodeFC32_fields {w : Nat} (hw : w < 2 ^ 32) (hop : 0x10 ≤ field w 8 8 ∧ field w 8 8 < 0x20) :
    encodeFC32 (predField w) (field w 28 4) (field w 8 4) (field w 16 6) (field w 22 6) = w := by
  simp only [encodeFC32, encodeHead, predField, field] at hop ⊢
  omega

/-- A word of format FR2 or FI put together again from its fields (R89, R90). -/
theorem encodeFR2_fields {w op : Nat} (hw : w < 2 ^ 32) (hop : field w 8 8 = op) :
    encodeFR2 (predField w) op (field w 28 4) (field w 22 6) (field w 16 6) = w := by
  simp only [encodeFR2, encodeHead, predField, field] at hop ⊢
  omega

/-- The same with bits 21:16 zero, as FSTAT has them (R99). -/
theorem encodeFR2_fields_zero {w op : Nat} (hw : w < 2 ^ 32) (hop : field w 8 8 = op) :
    encodeFR2 (predField w) op (field w 28 4) (field w 22 6) 0 = w % 2 ^ 16 + w / 2 ^ 22 * 2 ^ 22 := by
  simp only [encodeFR2, encodeHead, predField, field] at hop ⊢
  omega

/-- A word of format FR3 put together again from its fields (R91). -/
theorem encodeFR3_fields {w : Nat} (hw : w < 2 ^ 40) (hop : field w 8 8 = 0x78) :
    encodeFR3 (predField w) (field w 34 6) (field w 28 6) (field w 16 6) (field w 22 6) = w := by
  simp only [encodeFR3, encodeHead, predField, field] at hop ⊢
  omega

/-- A word of format FR4 put together again from its fields, without the unused bits 47:45 (R92, R99). -/
theorem encodeFR4_fields {w : Nat} (hop : field w 8 8 = 0x76) :
    encodeFR4 (predField w) (field w 40 5) (field w 34 6) (field w 16 6) (field w 22 6) (field w 28 6) =
      w % 2 ^ 45 := by
  simp only [encodeFR4, encodeHead, predField, field] at hop ⊢
  omega

/-- The encoding of an instruction agrees with a word in every bit that is not unused (R99). -/
def SameUsedBits (w : Nat) (i : Instr) : Prop :=
  ∀ b, ¬ (i.mnemonic = "FSTAT" ∧ 16 ≤ b ∧ b < 22) → ¬ (i.isPlanned = true ∧ 45 ≤ b) →
    w.testBit b = (encodeWord i).testBit b

theorem sameUsedBits_of_eq {w : Nat} {i : Instr} (h : encodeWord i = w) : SameUsedBits w i :=
  fun _ _ _ => by rw [h]

/-- The unused bits of the planned family are those from 45 up (R99). -/
theorem sameUsedBits_planned {w : Nat} {i : Instr} (hp : i.isPlanned = true) (h : encodeWord i = w % 2 ^ 45) :
    SameUsedBits w i := fun b _ hb => by
  rw [h, Nat.testBit_mod_two_pow, decide_eq_true (not_le.mp fun h45 => hb ⟨hp, h45⟩), Bool.true_and]

/-- Numbers that agree below bit `lo` and from bit `hi` up agree in each of these bits. -/
theorem testBit_eq_outside {v w lo hi b : Nat} (hlow : v % 2 ^ lo = w % 2 ^ lo) (hhigh : v / 2 ^ hi = w / 2 ^ hi)
    (hb : b < lo ∨ hi ≤ b) : v.testBit b = w.testBit b := by
  rcases hb with hb | hb
  · simpa [Nat.testBit_mod_two_pow, hb] using congrArg (Nat.testBit · b) hlow
  · simpa [Nat.testBit_div_two_pow, hb] using congrArg (Nat.testBit · (b - hi)) hhigh

/-- The unused bits of FSTAT are 21:16 (R99). -/
theorem sameUsedBits_fstat {w : Nat} {i : Instr} (hm : i.mnemonic = "FSTAT")
    (h : encodeWord i = w % 2 ^ 16 + w / 2 ^ 22 * 2 ^ 22) : SameUsedBits w i := fun b hb _ => by
  refine testBit_eq_outside (lo := 16) (hi := 22) (by omega) (by omega) ?_
  by_contra hout
  exact hb ⟨hm, by omega⟩

/-- What a word decodes to is well formed, has the length the opcode byte gives, and encodes to the word again but for
the unused bits (R81, R99). -/
theorem decodeWord_some {w n : Nat} {i : Instr} (hlen : instrLength (BitVec.ofNat 8 (field w 8 8)) = some n)
    (hw : w < 256 ^ n) (h : decodeWord w = some i) : i.wellFormed = true ∧ n = i.length ∧ SameUsedBits w i := by
  rcases opcode_cases hlen with ⟨hop, rfl⟩ | ⟨hop, rfl⟩ | ⟨hop, rfl⟩ | ⟨hop, rfl⟩ | ⟨hop, rfl⟩ | ⟨hop, rfl⟩
  · obtain ⟨hwf, hl, -, henc⟩ := encodesTo_decodeTest (decodeWord_test hop ▸ h)
    exact ⟨hwf, hl.symm, sameUsedBits_of_eq (henc.trans (encodeFT24_fields hw hop))⟩
  · obtain ⟨hwf, hl, -, henc⟩ := encodesTo_decodeCompare (decodeWord_compare hop ▸ h)
    exact ⟨hwf, hl.symm, sameUsedBits_of_eq (henc.trans (encodeFC32_fields hw hop))⟩
  · obtain ⟨hwf, hl, hp, henc⟩ := encodesTo_decode76 (decodeWord_76 hop ▸ h)
    exact ⟨hwf, hl.symm, sameUsedBits_planned hp (henc.trans (encodeFR4_fields hop))⟩
  · obtain ⟨hwf, hl, -, henc⟩ := encodesTo_decode77 (decodeWord_77 hop ▸ h)
    refine ⟨hwf, hl.symm, ?_⟩
    by_cases hm : i.mnemonic = "FSTAT"
    · rw [if_pos hm] at henc
      exact sameUsedBits_fstat hm (henc.trans (encodeFR2_fields_zero hw hop))
    · rw [if_neg hm] at henc
      exact sameUsedBits_of_eq (henc.trans (encodeFR2_fields hw hop))
  · obtain ⟨hwf, hl, -, henc⟩ := encodesTo_decode78 (decodeWord_78 hop ▸ h)
    exact ⟨hwf, hl.symm, sameUsedBits_of_eq (henc.trans (encodeFR3_fields hw hop))⟩
  · obtain ⟨hwf, hl, -, henc⟩ := encodesTo_decode79 (decodeWord_79 hop ▸ h)
    exact ⟨hwf, hl.symm, sameUsedBits_of_eq (henc.trans (encodeFR2_fields hw hop))⟩

/-- Settles O2: what decoding saw of the bytes (`decode_ok`) is what `decodeWord_some` asks of their word. -/
theorem encodeUndoesDecode : Obligations.EncodeUndoesDecode := by
  intro bytes i n h
  obtain ⟨b, op, rest, rfl, hlen, hn, hdec⟩ := decode_ok h
  obtain ⟨k, rfl⟩ : ∃ k, n = k + 2 := ⟨n - 2, by have := instrLength_bounds hlen; omega⟩
  have hword : field (wordOf ((b :: op :: rest).take (k + 2))) 8 8 = op.toNat := field_opcode b op (rest.take k)
  have hlt : wordOf ((b :: op :: rest).take (k + 2)) < 256 ^ (k + 2) := by
    have := wordOf_lt ((b :: op :: rest).take (k + 2))
    rwa [List.length_take_of_le hn] at this
  obtain ⟨hwf, hl, hbits⟩ :=
    decodeWord_some (by rwa [hword, BitVec.ofNat_toNat, BitVec.setWidth_eq]) hlt hdec
  exact ⟨hwf, hl, hn, fun b _ => hbits b⟩

/-! ### The opcode table -/

/-- The rows of R98 of length `n` that match the word `w` are, by mnemonic, what `w` decodes to. -/
def AgreesWithRows (w n : Nat) : Prop :=
  ((opcodeRows.filter fun r => decide (r.len = n ∧ w &&& r.mask = r.pattern)).map (·.mnemonic)) =
    ((decodeWord w).map Instr.mnemonic).toList

/-- The opcode byte and a field of `k` bits from bit `lo` up, all other bits zero. -/
def codeBits (op lo fn : Nat) : Nat := op <<< 8 ||| fn <<< lo

/-- Masking a word with all ones in a field leaves the field where it stands. -/
theorem land_ones_shiftLeft (w lo k : Nat) : w &&& (2 ^ k - 1) <<< lo = field w lo k <<< lo := by
  refine Nat.eq_of_testBit_eq fun i => ?_
  rw [field, ← Nat.shiftRight_eq_div_pow]
  simp only [Nat.testBit_and, Nat.testBit_shiftLeft, Nat.testBit_mod_two_pow, Nat.testBit_shiftRight,
    Nat.testBit_two_pow_sub_one]
  by_cases h : lo ≤ i
  · rw [Nat.add_sub_cancel' h]
    simp [h, Bool.and_comm]
  · simp [h]

/-- Masking a word with all ones in the opcode byte and in another field leaves these two. -/
theorem land_codeBits (w lo k : Nat) :
    w &&& codeBits (2 ^ 8 - 1) lo (2 ^ k - 1) = codeBits (field w 8 8) lo (field w lo k) := by
  rw [codeBits, Nat.and_or_distrib_left, land_ones_shiftLeft, land_ones_shiftLeft, codeBits]

/-- A field that a mask has all ones in is kept by the mask. -/
theorem field_land {m lo k : Nat} (hm : field m lo k = 2 ^ k - 1) (w : Nat) : field (w &&& m) lo k = field w lo k := by
  calc field (w &&& m) lo k
    _ = field w lo k &&& field m lo k := by
      simp only [field, ← Nat.shiftRight_eq_div_pow, Nat.shiftRight_and_distrib, Nat.and_mod_two_pow]
    _ = field w lo k := by rw [hm, Nat.and_two_pow_sub_one_of_lt_two_pow (field_lt w lo k)]

/-! Each decoder names the instruction by the function code alone. -/

theorem mnemonic_decodeTest {v w : Nat} (h : field v 22 2 = field w 22 2) :
    (decodeTest v).map Instr.mnemonic = (decodeTest w).map Instr.mnemonic := by
  simp only [decodeTest, h]
  split <;> rfl

theorem mnemonic_decodeCompare {v w : Nat} (h : field v 28 4 = field w 28 4) :
    (decodeCompare v).map Instr.mnemonic = (decodeCompare w).map Instr.mnemonic := by
  simp only [decodeCompare, h]
  split <;> rfl

theorem mnemonic_decode76 {v w : Nat} (h : field v 40 5 = field w 40 5) :
    (decode76 v).map Instr.mnemonic = (decode76 w).map Instr.mnemonic := by
  simp only [decode76, h]
  split <;> rfl

theorem mnemonic_decode77 {v w : Nat} (h : field v 28 4 = field w 28 4) :
    (decode77 v).map Instr.mnemonic = (decode77 w).map Instr.mnemonic := by
  simp only [decode77, h]
  split <;> rfl

theorem mnemonic_decode78 {v w : Nat} (h : field v 34 6 = field w 34 6) :
    (decode78 v).map Instr.mnemonic = (decode78 w).map Instr.mnemonic := by
  simp only [decode78, h]
  split <;> rfl

theorem mnemonic_decode79 {v w : Nat} (h : field v 28 4 = field w 28 4) :
    (decode79 v).map Instr.mnemonic = (decode79 w).map Instr.mnemonic := by
  simp only [decode79, h]
  split <;> rfl

/-- The rows of length `n` look at the opcode byte and at the `k` bits from `lo` up, and at no other bit. -/
def RowsLookAt (n lo k : Nat) : Prop :=
  ∀ r ∈ opcodeRows, r.len = n → codeBits (2 ^ 8 - 1) lo (2 ^ k - 1) &&& r.mask = r.mask

theorem rowsLookAt_3 : RowsLookAt 3 22 2 := by
  unfold RowsLookAt
  decide

theorem rowsLookAt_4 : RowsLookAt 4 28 4 := by
  unfold RowsLookAt
  decide

theorem rowsLookAt_5 : RowsLookAt 5 34 6 := by
  unfold RowsLookAt
  decide

theorem rowsLookAt_6 : RowsLookAt 6 40 5 := by
  unfold RowsLookAt
  decide

/-- Whether a row matches a word is decided by the bits that the rows of its length look at. -/
theorem rows_codeBits {n lo k : Nat} (h : RowsLookAt n lo k) (w : Nat) :
    (opcodeRows.filter fun r => decide (r.len = n ∧ w &&& r.mask = r.pattern)) =
      opcodeRows.filter fun r =>
        decide (r.len = n ∧ codeBits (field w 8 8) lo (field w lo k) &&& r.mask = r.pattern) := by
  refine List.filter_congr fun r hr => decide_eq_decide.mpr (and_congr_right fun hn => ?_)
  rw [← land_codeBits, Nat.land_assoc, h r hr hn]

/-- The rows agree with a word if they agree with its opcode byte and function code, `dec` being the decoder of the
opcode byte, which reads the function code from the bits the rows look at. -/
theorem agreesWithRows_of_codeBits {w n lo k : Nat} {dec : Nat → Option Instr} (hrows : RowsLookAt n lo k)
    (hones : field (codeBits (2 ^ 8 - 1) lo (2 ^ k - 1)) 8 8 = 2 ^ 8 - 1 ∧
      field (codeBits (2 ^ 8 - 1) lo (2 ^ k - 1)) lo k = 2 ^ k - 1)
    (hdec : ∀ v, field v 8 8 = field w 8 8 → decodeWord v = dec v)
    (hmn : ∀ v, field v lo k = field w lo k → (dec v).map Instr.mnemonic = (dec w).map Instr.mnemonic)
    (hall : AgreesWithRows (codeBits (field w 8 8) lo (field w lo k)) n) : AgreesWithRows w n := by
  unfold AgreesWithRows at hall ⊢
  rw [rows_codeBits hrows, hall, ← land_codeBits, hdec _ (field_land hones.1 w), hmn _ (field_land hones.2 w),
    hdec w rfl]

/-! The finitely many values of opcode byte and function code, class by class (R98). -/

theorem agreesWithRows_test : ∀ op < 16, ∀ fn < 2 ^ 2, AgreesWithRows (codeBits op 22 fn) 3 := by
  unfold AgreesWithRows
  decide +kernel

theorem agreesWithRows_compare : ∀ pt < 16, ∀ fn < 2 ^ 4, AgreesWithRows (codeBits (0x10 + pt) 28 fn) 4 := by
  unfold AgreesWithRows
  decide +kernel

theorem agreesWithRows_76 : ∀ fn < 2 ^ 5, AgreesWithRows (codeBits 0x76 40 fn) 6 := by
  unfold AgreesWithRows
  decide +kernel

theorem agreesWithRows_77_79 : ∀ op ∈ [0x77, 0x79], ∀ fn < 2 ^ 4, AgreesWithRows (codeBits op 28 fn) 4 := by
  unfold AgreesWithRows
  decide +kernel

theorem agreesWithRows_78 : ∀ fn < 2 ^ 6, AgreesWithRows (codeBits 0x78 34 fn) 5 := by
  unfold AgreesWithRows
  decide +kernel

/-- Settles O3: in each class of opcode bytes rows and decoder look at the same two fields, whose values are finitely
many. -/
theorem decoderAgreesWithOpcodeTable : Obligations.DecoderAgreesWithOpcodeTable := by
  intro w n hlen
  change AgreesWithRows w n
  rcases opcode_cases hlen with ⟨hop, rfl⟩ | ⟨hop, rfl⟩ | ⟨hop, rfl⟩ | ⟨hop, rfl⟩ | ⟨hop, rfl⟩ | ⟨hop, rfl⟩
  · exact agreesWithRows_of_codeBits rowsLookAt_3 (by decide) (fun v hv => decodeWord_test (hv ▸ hop))
      (fun v => mnemonic_decodeTest) (agreesWithRows_test _ hop _ (field_lt w 22 2))
  · obtain ⟨pt, hpt⟩ := Nat.exists_eq_add_of_le hop.1
    refine agreesWithRows_of_codeBits rowsLookAt_4 (by decide) (fun v hv => decodeWord_compare (hv ▸ hop))
      (fun v => mnemonic_decodeCompare) ?_
    rw [hpt]
    exact agreesWithRows_compare pt (by omega) _ (field_lt w 28 4)
  · exact agreesWithRows_of_codeBits rowsLookAt_6 (by decide) (fun v hv => decodeWord_76 (hv.trans hop))
      (fun v => mnemonic_decode76) (hop ▸ agreesWithRows_76 _ (field_lt w 40 5))
  · exact agreesWithRows_of_codeBits rowsLookAt_4 (by decide) (fun v hv => decodeWord_77 (hv.trans hop))
      (fun v => mnemonic_decode77) (hop ▸ agreesWithRows_77_79 0x77 (by decide) _ (field_lt w 28 4))
  · exact agreesWithRows_of_codeBits rowsLookAt_5 (by decide) (fun v hv => decodeWord_78 (hv.trans hop))
      (fun v => mnemonic_decode78) (hop ▸ agreesWithRows_78 _ (field_lt w 34 6))
  · exact agreesWithRows_of_codeBits rowsLookAt_4 (by decide) (fun v hv => decodeWord_79 (hv.trans hop))
      (fun v => mnemonic_decode79) (hop ▸ agreesWithRows_77_79 0x79 (by decide) _ (field_lt w 28 4))

/-! ### Unlisted words -/

theorem decodeTest_none {w : Nat} (h : field w 22 2 ∉ [1, 2]) : decodeTest w = none := by
  unfold decodeTest
  split <;> simp_all

theorem decodeCompare_none {w : Nat} (h : field w 28 4 ∉ [1, 2]) : decodeCompare w = none := by
  unfold decodeCompare
  split <;> simp_all

theorem decode76_none {w : Nat} (h : field w 40 5 ∉ [8, 9, 10, 11, 16, 17, 18, 19]) : decode76 w = none := by
  unfold decode76
  split <;> simp_all

theorem decode77_none {w : Nat} (h : field w 28 4 ∉ [0, 2, 3, 4, 5, 6, 7, 0xC, 0xD]) : decode77 w = none := by
  unfold decode77
  split <;> simp_all

theorem decode78_none {w : Nat} (h : field w 34 6 ∉ [0x08, 0x09, 0x0A, 0x0B, 0x18, 0x19, 0x1A, 0x1B]) :
    decode78 w = none := by
  unfold decode78
  split <;> simp_all

theorem decode79_none {w : Nat} (h : field w 28 4 ∉ [0, 2, 3, 4, 5, 6, 7, 0xC, 0xD, 0xE, 0xF]) :
    decode79 w = none := by
  unfold decode79
  split <;> simp_all

/-- A word of a listed opcode byte is no instruction if its function code is not listed under that byte (R93 to R97). -/
theorem decodeWord_unlisted {w n : Nat} (hlen : instrLength (BitVec.ofNat 8 (field w 8 8)) = some n)
    (hpred : field w 8 8 < 0x20 → functionCode w ∉ [1, 2])
    (h76 : field w 8 8 = 0x76 → functionCode w ∉ [8, 9, 10, 11, 16, 17, 18, 19])
    (h77 : field w 8 8 = 0x77 → functionCode w ∉ [0, 2, 3, 4, 5, 6, 7, 0xC, 0xD])
    (h78 : field w 8 8 = 0x78 → functionCode w ∉ [0x08, 0x09, 0x0A, 0x0B, 0x18, 0x19, 0x1A, 0x1B])
    (h79 : field w 8 8 = 0x79 → functionCode w ∉ [0, 2, 3, 4, 5, 6, 7, 0xC, 0xD, 0xE, 0xF]) :
    decodeWord w = none := by
  rcases opcode_cases hlen with ⟨hop, -⟩ | ⟨hop, -⟩ | ⟨hop, -⟩ | ⟨hop, -⟩ | ⟨hop, -⟩ | ⟨hop, -⟩
  · rw [decodeWord_test hop, decodeTest_none (functionCode_test hop ▸ hpred (by omega))]
  · rw [decodeWord_compare hop, decodeCompare_none (functionCode_compare hop ▸ hpred hop.2)]
  · rw [decodeWord_76 hop, decode76_none (functionCode_76 hop ▸ h76 hop)]
  · rw [decodeWord_77 hop, decode77_none (functionCode_77 hop ▸ h77 hop)]
  · rw [decodeWord_78 hop, decode78_none (functionCode_78 hop ▸ h78 hop)]
  · rw [decodeWord_79 hop, decode79_none (functionCode_79 hop ▸ h79 hop)]

/-- Bytes of the length their opcode byte gives, whose word is no instruction, are rejected by opcode and function code
(R100). -/
theorem decode_unlisted {b op : Byte} {rest : List Byte} (hlen : instrLength op = some (rest.length + 2))
    (h : decodeWord (wordOf (b :: op :: rest)) = none) :
    decode (b :: op :: rest) = .reject (.unlistedFunction op (functionCode (wordOf (b :: op :: rest)))) := by
  have htake : (b :: op :: rest).take (rest.length + 2) = b :: op :: rest := by simp
  simp only [decode, hlen, htake, h]
  exact if_neg (Nat.lt_irrefl _)

/-- An opcode byte outside 00h to 1Fh and 76h to 79h gives no length (R81). -/
theorem instrLength_unlisted {op : Byte} (hlow : 0x20 ≤ op.toNat) (h76 : op ≠ 0x76) (h77 : op ≠ 0x77) (h78 : op ≠ 0x78)
    (h79 : op ≠ 0x79) : instrLength op = none := by
  rw [instrLength, if_neg (by omega), if_neg (by omega), if_neg h76, if_neg h77, if_neg h78, if_neg h79]

/-- A fetch of an opcode byte that gives no length is rejected by it (R100). -/
theorem fetch_unlisted {s : State} {b op : Byte} (h2 : s.mem.readBytes s.pc 2 = some [b, op])
    (hlen : instrLength op = none) : s.fetch = .rejected (.unlistedOpcode op) := by
  rw [State.fetch, h2]
  simp only [hlen]

/-- A fetch of bytes that decoding rejects is rejected for the same reason (R100). -/
theorem fetch_of_reject {s : State} {b op : Byte} {rest : List Byte} {r : Reject}
    (h : s.mem.readBytes s.pc (rest.length + 2) = some (b :: op :: rest))
    (hlen : instrLength op = some (rest.length + 2)) (hd : decode (b :: op :: rest) = .reject r) :
    s.fetch = .rejected r := by
  have h2 : s.mem.readBytes s.pc 2 = some [b, op] := readBytes_take h (k := 2) (by omega)
  rw [fetch_of_bytes h h2 hlen, hd]

/-- A step whose fetch is rejected is refused, with no look at the predicate (R100). -/
theorem step_of_rejected {s : State} {r : Reject} (h : s.fetch = .rejected r) : step s = .refused (refusalOf r) := by
  rw [step, h]

/-- Settles O7: the fetch is rejected before any predicate is read, by its opcode byte or by its function code. -/
theorem unlistedEncodingsRefused : Obligations.UnlistedEncodingsRefused := by
  refine ⟨fun s b op h2 hlow h76 h77 h78 h79 => ?_, fun s b op rest hbytes hlen => ?_⟩
  · exact step_of_rejected (fetch_unlisted h2 (instrLength_unlisted hlow h76 h77 h78 h79))
  · intro fn hpred h76 h77 h78 h79
    have hop : field (wordOf (b :: op :: rest)) 8 8 = op.toNat := field_opcode b op rest
    have opcode_eq {x : Byte} (h : field (wordOf (b :: op :: rest)) 8 8 = x.toNat) : op = x :=
      BitVec.eq_of_toNat_eq (hop ▸ h)
    have hword : decodeWord (wordOf (b :: op :: rest)) = none :=
      decodeWord_unlisted (by rwa [hop, BitVec.ofNat_toNat, BitVec.setWidth_eq]) (fun h => hpred (hop ▸ h))
        (fun h => h76 (opcode_eq h)) (fun h => h77 (opcode_eq h)) (fun h => h78 (opcode_eq h))
        (fun h => h79 (opcode_eq h))
    exact step_of_rejected (fetch_of_reject hbytes hlen (decode_unlisted hlen hword))

/-! ### The planned family -/

/-- A body that always answers a next state or a fault. -/
def NeverRefuses (body : State → Result) : Prop := ∀ s r, body s ≠ .refused r

/-- Signalling completes or delivers (R146). -/
theorem signal_ne_refused (k : Kinds) (s : State) (r : Refusal) : signal k s ≠ .refused r := by
  by_cases h : enabledOf k s.fpscr = 0
  · simp [signal_disabled h]
  · simp [signal_enabled h]

/-- So does the shared tail of every result, which ends in signalling (R147, R204). -/
theorem finishWith_ne_refused (rt : Nat) (word : Word) (cls : BitVec 5) (res : FpResult) (s : State) (r : Refusal) :
    finishWith rt word cls res s ≠ .refused r := signal_ne_refused _ _ r

theorem neverRefuses_ftxBody (ra imm : Nat) : NeverRefuses (ftxBody ra imm) := fun s => signal_ne_refused _ s

theorem neverRefuses_arithBody (f : Fmt) (op : FpOp) (rt ra rb : Nat) : NeverRefuses (arithBody f op rt ra rb) :=
  fun s => finishWith_ne_refused rt _ _ _ s

theorem neverRefuses_macBody (f : Fmt) (subc negr : Bool) (rt ra rb rc : Nat) :
    NeverRefuses (macBody f subc negr rt ra rb rc) := fun s => finishWith_ne_refused rt _ _ _ s

theorem neverRefuses_ftoiBody (f : Fmt) (rt ra : Nat) : NeverRefuses (ftoiBody f rt ra) :=
  fun s => finishWith_ne_refused rt _ _ _ s

theorem neverRefuses_itofBody (f : Fmt) (rt ra : Nat) : NeverRefuses (itofBody f rt ra) :=
  fun s => finishWith_ne_refused rt _ _ _ s

/-- The skeleton refuses only as its body does (R15). -/
theorem predicated_ne_refused {body : State → Result} (hbody : NeverRefuses body) (p : Pred) (len : Nat) (s : State)
    (r : Refusal) : predicated p len body s ≠ .refused r := by
  cases hp : s.predTrue p
  · simp [predicated_false hp]
  · rw [predicated_true hp]
    cases h : body s with
    | refused r' => exact absurd h (hbody s r')
    | _ => simp [advanceNext]

/-- A planned instruction is refused only where the family is not implemented (R101). -/
theorem planned_refused {body : State → Result} (hbody : NeverRefuses body) {m : String} {p : Pred} {s : State}
    {r : Refusal} (h : planned m p body s = .refused r) : s.params.fmacImplemented = false := by
  by_contra himp
  rw [planned_true (by simpa using himp)] at h
  exact predicated_ne_refused hbody p 6 s r h

/-- Only a planned instruction is ever refused, and only where the family is not implemented (R101). -/
theorem exec_refused {i : Instr} {s : State} {r : Refusal} (h : exec i s = .refused r) :
    i.isPlanned = true ∧ s.params.fmacImplemented = false := by
  cases i with
  | fmacS | fmasS | fnmacS | fnmasS | fmac | fmas | fnmac | fnmas =>
    exact ⟨rfl, planned_refused (neverRefuses_macBody _ _ _ _ _ _ _) h⟩
  | fadd | fsub | fmul | fdiv | fadds | fsubs | fmuls | fdivs =>
    exact absurd h (predicated_ne_refused (neverRefuses_arithBody _ _ _ _ _) _ _ s r)
  | ftoi | ftois => exact absurd h (predicated_ne_refused (neverRefuses_ftoiBody _ _ _) _ _ s r)
  | itof | itofs => exact absurd h (predicated_ne_refused (neverRefuses_itofBody _ _ _) _ _ s r)
  | ftx => exact absurd h (predicated_ne_refused (neverRefuses_ftxBody _ _) _ _ s r)
  | _ => exact absurd h (predicated_ne_refused (fun _ _ hbody => by cases hbody) _ _ s r)

/-- Settles O11: the skeleton lemma gives the refusal and the length, `exec_refused` that there is no other. -/
theorem plannedFamilyRefused : Obligations.PlannedFamilyRefused := by
  refine ⟨fun i s hpl himp => ?_, fun i hpl => ?_, fun i s r => exec_refused⟩
  all_goals obtain ⟨-, hlen, body, hexec⟩ | ⟨hnot, -⟩ := exec_skeleton i
  · rw [hexec, planned_false himp]
  · simp [hpl] at hnot
  · exact hlen
  · simp [hpl] at hnot

end Sys2Proof.Machine
end

section
/-! Proofs for the family 40_numerics.md: the rounding mode, delivery, the class bits, values, rounding and the four
operations. -/

namespace Sys2Proof.Machine

/-! ### The rounding mode -/

/-- The state with another RM (R32). -/
def State.withRM (s : State) (x : BitVec 3) : State := { s with fpscr := setField s.fpscr 29 x }

/-- A body does under another RM what it does under this one, and leaves that RM alone. -/
def IgnoresRM (body : State → Result) : Prop := ∀ s x, body (s.withRM x) = onState (·.withRM x) (body s)

/-- The skeleton around a body that ignores RM ignores it (R15, R130). -/
theorem ignoresRM_predicated {body : State → Result} (hbody : IgnoresRM body) (p : Pred) (len : Nat) :
    IgnoresRM (predicated p len body) := fun s x => by
  cases hp : s.predTrue p
  · rw [predicated_false hp, predicated_false (s := s.withRM x) hp]
    rfl
  · rw [predicated_true hp, predicated_true (s := s.withRM x) hp, hbody]
    rcases body s with _ | (_ | _) | _ <;> rfl

/-- So does the skeleton of a planned instruction (R101, R130). -/
theorem ignoresRM_planned {body : State → Result} (hbody : IgnoresRM body) (m : String) (p : Pred) :
    IgnoresRM (planned m p body) := fun s x => by
  cases himp : s.params.fmacImplemented
  · rw [planned_false himp, planned_false (s := s.withRM x) himp]
    rfl
  · rw [planned_true himp, planned_true (s := s.withRM x) himp, ignoresRM_predicated hbody]

/-- A register is written alike under any RM. -/
theorem writeX_withRM (s : State) (r : Nat) (v : Word) (x : BitVec 3) :
    (s.withRM x).writeX r v = (s.writeX r v).withRM x := by
  unfold State.writeX State.withRM
  split <;> rfl

/-- A body that writes a register with a value that does not depend on RM. -/
theorem ignoresRM_unaryBody {value : State → Word} (rt : Nat) (hv : ∀ s x, value (State.withRM s x) = value s) :
    IgnoresRM (unaryBody rt value) := fun s x => by
  unfold unaryBody
  rw [hv, writeX_withRM]
  rfl

/-- Kinds are signalled alike under any RM (R130, R146). -/
theorem signal_withRM (k : Kinds) (s : State) (x : BitVec 3) :
    signal k (s.withRM x) = onState (·.withRM x) (signal k s) := by
  have hen : enabledOf k (s.withRM x).fpscr = enabledOf k s.fpscr := enabledOf_setField _ _ _ (by omega) (by omega)
  have hrec : (s.withRM x).setFpscr (recordKinds s.params.gxPolicy k (s.withRM x).fpscr) =
      (s.setFpscr (recordKinds s.params.gxPolicy k s.fpscr)).withRM x :=
    congrArg s.setFpscr (recordKinds_setField_rm _ k s.fpscr x)
  by_cases h : enabledOf k s.fpscr = 0
  · rw [signal_disabled h, signal_disabled (hen.trans h)]
    exact congrArg Host.Outcome.next hrec
  · rw [signal_enabled h, signal_enabled (hen ▸ h), hen]
    exact congrArg (fun d => Host.Outcome.fault (Fault.fpException (enabledOf k s.fpscr) d)) hrec

/-- The shared tail does alike under any RM (R130, R147). -/
theorem finishWith_withRM (rt : Nat) (word : Word) (cls : BitVec 5) (r : FpResult) (s : State) (x : BitVec 3) :
    finishWith rt word cls r (s.withRM x) = onState (·.withRM x) (finishWith rt word cls r s) := by
  have hen : enabledOf r.kinds (s.withRM x).fpscr = enabledOf r.kinds s.fpscr :=
    enabledOf_setField _ _ _ (by omega) (by omega)
  have hfin : ∀ v, ((s.withRM x).setFpscr (finishedFpscr s.params.gxPolicy cls r (s.withRM x).fpscr)).writeX rt v =
      ((s.setFpscr (finishedFpscr s.params.gxPolicy cls r s.fpscr)).writeX rt v).withRM x := fun v => by
    rw [← writeX_withRM]
    exact congrArg (fun w => (s.setFpscr w).writeX rt v) (finishedFpscr_setField_rm _ cls r s.fpscr x)
  by_cases h : enabledOf r.kinds s.fpscr = 0
  · rw [finishWith_disabled h, finishWith_disabled (hen.trans h)]
    exact congrArg Host.Outcome.next (hfin word)
  · rw [finishWith_enabled h, finishWith_enabled (hen ▸ h), hen]
    exact congrArg (fun d => Host.Outcome.fault (Fault.fpException (enabledOf r.kinds s.fpscr) d)) (hfin _)

/-- A field below RM is written alike under any RM. -/
theorem setField_setField_rm (v : FpscrWord) {lo n : Nat} (y : BitVec n) (x : BitVec 3) (h : lo + n ≤ 29) :
    setField (setField v 29 x) lo y = setField (setField v lo y) 29 x := by
  apply BitVec.eq_of_getLsbD_eq
  intro i hi
  simp only [getLsbD_setField _ 29 3 _ (by omega), getLsbD_setField _ lo n _ (by omega : lo + n ≤ 32)]
  by_cases hfield : lo ≤ i ∧ i < lo + n
  · rw [if_pos hfield, if_neg (by omega), if_pos hfield]
  · rw [if_neg hfield, if_neg hfield]

/-- The enable bits are read alike under any RM (R33). -/
theorem fpscrEnables_setField_rm (v : FpscrWord) (x : BitVec 3) : fpscrEnables (setField v 29 x) = fpscrEnables v := by
  apply BitVec.eq_of_getLsbD_eq
  intro i hi
  rw [getLsbD_enables, getLsbD_enables, getLsbD_setField _ _ _ _ (by omega), if_neg (by omega)]

/-- FCX clears alike under any RM (R245). -/
theorem clearKinds_setField_rm (m : BitVec 6) (v : FpscrWord) (x : BitVec 3) :
    clearKinds m (setField v 29 x) = setField (clearKinds m v) 29 x := by
  apply BitVec.eq_of_getLsbD_eq
  intro i hi
  simp only [getLsbD_setField _ 29 3 _ (by omega), getLsbD_clearKinds]
  by_cases hrm : 29 ≤ i ∧ i < 29 + 3
  · rw [if_neg (by omega), if_neg (by omega), if_neg (by omega), if_pos hrm, if_pos hrm]
  · simp only [if_neg hrm]

/-! What each body does under another RM. -/

theorem ignoresRM_fcxBody (ra imm : Nat) : IgnoresRM (fcxBody ra imm) := fun s x =>
  congrArg (fun w => Host.Outcome.next (s.setFpscr w)) (clearKinds_setField_rm (s.maskOperand ra imm) s.fpscr x)

/-- A body that writes the enable bits with a value that does not depend on RM (R33). -/
theorem ignoresRM_setEnables {value : State → Kinds} (hv : ∀ s x, value (State.withRM s x) = value s) :
    IgnoresRM fun s => .next (s.setFpscr (setField s.fpscr 24 (value s))) := fun s x => by
  beta_reduce
  rw [hv]
  exact congrArg (fun w => Host.Outcome.next (s.setFpscr w)) (setField_setField_rm s.fpscr (value s) x (by omega))

theorem ignoresRM_fexBody (ra imm : Nat) : IgnoresRM (fexBody ra imm) :=
  ignoresRM_setEnables fun s x => congrArg (· ||| maskKinds (s.maskOperand ra imm)) (fpscrEnables_setField_rm s.fpscr x)

theorem ignoresRM_fdxBody (ra imm : Nat) : IgnoresRM (fdxBody ra imm) :=
  ignoresRM_setEnables fun s x =>
    congrArg (· &&& ~~~maskKinds (s.maskOperand ra imm)) (fpscrEnables_setField_rm s.fpscr x)

theorem ignoresRM_ftxBody (ra imm : Nat) : IgnoresRM (ftxBody ra imm) := fun s x => signal_withRM _ s x

theorem ignoresRM_arithBody (f : Fmt) (op : FpOp) (rt ra rb : Nat) : IgnoresRM (arithBody f op rt ra rb) :=
  fun s x => finishWith_withRM rt _ _ (s.arithResult f op ra rb) s x

theorem ignoresRM_macBody (f : Fmt) (subc negr : Bool) (rt ra rb rc : Nat) :
    IgnoresRM (macBody f subc negr rt ra rb rc) :=
  fun s x => finishWith_withRM rt _ _ (s.macResult f subc negr ra rb rc) s x

theorem ignoresRM_ftoiBody (f : Fmt) (rt ra : Nat) : IgnoresRM (ftoiBody f rt ra) :=
  fun s x => finishWith_withRM rt _ _ _ s x

theorem ignoresRM_itofBody (f : Fmt) (rt ra : Nat) : IgnoresRM (itofBody f rt ra) :=
  fun s x => finishWith_withRM rt _ _ _ s x

/-- Every instruction but FSTAT, which reads RM, and FRM, which writes it, ignores RM (R130). -/
theorem ignoresRM_exec (i : Instr) (hstat : i.mnemonic ≠ "FSTAT") (hfrm : i.mnemonic ≠ "FRM") : IgnoresRM (exec i) := by
  cases i with
  | fstat => exact absurd rfl hstat
  | frm => exact absurd rfl hfrm
  | fmov | fmovs | fneg | fnegs | fabs | fabss | fsign | fsigns | fman | fmans =>
    exact ignoresRM_predicated (ignoresRM_unaryBody _ fun _ _ => rfl) _ _
  | fcmp | fcmps | ftst | ftsts => exact ignoresRM_predicated (fun _ _ => rfl) _ _
  | fcx => exact ignoresRM_predicated (ignoresRM_fcxBody _ _) _ _
  | fex => exact ignoresRM_predicated (ignoresRM_fexBody _ _) _ _
  | fdx => exact ignoresRM_predicated (ignoresRM_fdxBody _ _) _ _
  | ftx => exact ignoresRM_predicated (ignoresRM_ftxBody _ _) _ _
  | ftoi | ftois => exact ignoresRM_predicated (ignoresRM_ftoiBody _ _ _) _ _
  | itof | itofs => exact ignoresRM_predicated (ignoresRM_itofBody _ _ _) _ _
  | fadd | fsub | fmul | fdiv | fadds | fsubs | fmuls | fdivs =>
    exact ignoresRM_predicated (ignoresRM_arithBody _ _ _ _ _) _ _
  | fmacS | fmasS | fnmacS | fnmasS | fmac | fmas | fnmac | fnmas =>
    exact ignoresRM_planned (ignoresRM_macBody _ _ _ _ _ _ _) _ _

/-- FRM, where it runs, overwrites RM: what it was does not show (R242). -/
theorem frmBody_withRM (ra imm : Nat) (s : State) (x : BitVec 3) : frmBody ra imm (s.withRM x) = frmBody ra imm s := by
  refine congrArg (fun w => Host.Outcome.next (s.setFpscr w))
    (?_ : setField (setField s.fpscr 29 x) 29 _ = setField s.fpscr 29 _)
  apply BitVec.eq_of_getLsbD_eq
  intro i hi
  simp only [getLsbD_setField _ 29 3 _ (by omega)]
  split <;> rfl

/-- The instruction of the mnemonic FRM. -/
theorem eq_frm_of_mnemonic {i : Instr} (h : i.mnemonic = "FRM") : ∃ p ra imm, i = .frm p ra imm := by
  cases i with
  | frm p ra imm => exact ⟨p, ra, imm, rfl⟩
  | _ => simp [Instr.mnemonic] at h

/-- Leaving the state of an outcome as it is. -/
theorem onState_same (r : Result) : onState (fun t => t) r = r := by
  rcases r with _ | (_ | _) | _ <;> rfl

/-- Settles O25: FRM overwrites RM where it runs; where its predicate is false pc alone changes; whatever else there is
ignores RM. -/
theorem roundingModeHasNoEffect : Obligations.RoundingModeHasNoEffect := by
  intro i s x hstat
  by_cases hrun : i.mnemonic = "FRM" ∧ s.predTrue i.pred = true
  · simp only [if_pos hrun, onState_same]
    obtain ⟨hfrm, hp⟩ := hrun
    obtain ⟨p, ra, imm, rfl⟩ := eq_frm_of_mnemonic hfrm
    calc exec (.frm p ra imm) (s.withRM x) = advanceNext 4 (frmBody ra imm (s.withRM x)) := predicated_true hp
      _ = advanceNext 4 (frmBody ra imm s) := by rw [frmBody_withRM]
      _ = exec (.frm p ra imm) s := (predicated_true hp).symm
  · simp only [if_neg hrun]
    by_cases hfrm : i.mnemonic = "FRM"
    · obtain ⟨p, ra, imm, rfl⟩ := eq_frm_of_mnemonic hfrm
      have hp : s.predTrue p = false := Bool.eq_false_iff.mpr fun hp => hrun ⟨hfrm, hp⟩
      rw [exec_of_predTrue_false (i := .frm p ra imm) nofun hp]
      exact exec_of_predTrue_false (i := .frm p ra imm) (s := s.withRM x) nofun hp
    · exact ignoresRM_exec i hstat hfrm s x

/-! ### Delivery -/

/-- An arithmetic instruction is the skeleton around its body (R160, R162 to R169). -/
theorem exec_arithInstr (f : Fmt) (op : FpOp) (p : Pred) (rt ra rb : Nat) (s : State) :
    exec (arithInstr f op p rt ra rb) s = predicated p 5 (arithBody f op rt ra rb) s := by
  cases f <;> cases op <;> rfl

/-- Its target (R23). -/
theorem target_arithInstr (f : Fmt) (op : FpOp) (p : Pred) (rt ra rb : Nat) :
    (arithInstr f op p rt ra rb).target = some rt := by
  cases f <;> cases op <;> rfl

/-- A multiply-accumulate instruction, where the family is implemented, is the skeleton around its body (R263 to
R271). -/
theorem exec_macInstr {f : Fmt} {subc negr : Bool} {p : Pred} {rt ra rb rc : Nat} {s : State}
    (himp : s.params.fmacImplemented = true) :
    exec (macInstr f subc negr p rt ra rb rc) s = predicated p 6 (macBody f subc negr rt ra rb rc) s := by
  cases f <;> cases subc <;> cases negr <;> exact planned_true himp

/-- Its target (R23). -/
theorem target_macInstr (f : Fmt) (subc negr : Bool) (p : Pred) (rt ra rb rc : Nat) :
    (macInstr f subc negr p rt ra rb rc).target = some rt := by
  cases f <;> cases subc <;> cases negr <;> rfl

/-- Settles O45: every body ends in the shared tail, which delivers the enabled kinds that occur. -/
theorem enabledKindsAreDelivered : Obligations.EnabledKindsAreDelivered :=
  ⟨fun _ _ _ _ _ _ _ hp hen =>
      delivers_result (exec_arithInstr _ _ _ _ _ _ _) (target_arithInstr _ _ _ _ _ _) hp rfl hen,
    fun _ _ _ s hp => ⟨fun hen => delivers_result rfl rfl hp rfl hen, fun hen => delivers_result rfl rfl hp rfl hen,
      fun hen => ⟨Config.freeClass s.draws, delivers_result rfl rfl hp rfl hen⟩,
      fun hen => ⟨Config.freeClass s.draws, delivers_result rfl rfl hp rfl hen⟩⟩,
    fun _ _ _ _ _ _ _ _ _ himp hp hen =>
      delivers_result (exec_macInstr himp) (target_macInstr _ _ _ _ _ _ _ _) hp rfl hen⟩

/-! ### Classes and values -/

/-- A NaN, an infinity or a zero is no denormalized number (R124, R125). -/
theorem denormal_false {f : Fmt} {v : Word} (h : isNaN f v = true ∨ isInf f v = true ∨ isZero f v = true) :
    isDenormal f v = false := by
  simp only [isDenormal, isNaN, isInf, isZero, decide_eq_true_eq, decide_eq_false_iff_not] at *
  have : 0 < f.expMax := by cases f <;> decide
  omega

/-- What is no signalling NaN is a quiet NaN if it is a NaN (R124, R125). -/
theorem isQNaN_of_not_snan {f : Fmt} {v : Word} (h : isSNaN f v = false) : isQNaN f v = isNaN f v := by
  cases hn : isNaN f v <;> simp_all [isQNaN, isSNaN]

/-- Settles O46: the classes exclude one another, so each case leaves the class bits to the sign. -/
theorem resultClassTable : Obligations.ResultClassTable := by
  intro f r hsnan
  unfold classBits
  rw [isQNaN_of_not_snan hsnan]
  cases hn : isNaN f r
  · cases hinf : isInf f r
    · cases hzero : isZero f r
      · cases isDenormal f r <;> cases fpSign f r <;> rfl
      · rw [denormal_false (.inr (.inr hzero))]
        cases fpSign f r <;> rfl
    · obtain ⟨-, hzero, -⟩ := inf_excludes hinf
      rw [hzero, denormal_false (.inr (.inl hinf))]
      cases fpSign f r <;> rfl
  · obtain ⟨hinf, hzero, -⟩ := nan_excludes hn
    rw [hinf, hzero, denormal_false (.inl hn)]
    cases fpSign f r <;> rfl

/-- The exponent field of a pattern is these bits (R120, R122). -/
theorem fpExp_eq_extract (f : Fmt) (v : Word) : fpExp f v = (v.extractLsb' f.fracBits f.expBits).toNat := by
  rw [BitVec.extractLsb'_toNat, Nat.shiftRight_eq_div_pow]
  rfl

/-- The fraction of a pattern is these bits (R120, R122). -/
theorem fpFrac_eq_extract (f : Fmt) (v : Word) : fpFrac f v = (v.extractLsb' 0 f.fracBits).toNat := by
  rw [BitVec.extractLsb'_toNat, Nat.shiftRight_zero]
  rfl

/-- A quiet NaN, by its fields (R124, R125). -/
theorem isQNaN_iff (f : Fmt) (v : Word) :
    isQNaN f v = true ↔ fpExp f v = f.expMax ∧ fpFrac f v ≠ 0 ∧ quietBit f v = true := by
  simp [isQNaN, isNaN, and_assoc]

/-- A signalling NaN, by its fields (R124, R125). -/
theorem isSNaN_iff (f : Fmt) (v : Word) :
    isSNaN f v = true ↔ fpExp f v = f.expMax ∧ fpFrac f v ≠ 0 ∧ quietBit f v = false := by
  simp [isSNaN, isNaN, and_assoc]

/-- The value of a pattern is its units, each of them 2^(emin-p+1) (R124, R125). -/
theorem realValue_eq_units (f : Fmt) (v : Word) : (fpValue f v : ℚ) * 2 ^ (-(f.unitExp : Int)) = realValue f v := by
  rw [← realValue_units, zpow_neg, zpow_natCast]
  exact mul_inv_cancel_right₀ (by positivity) _

/-- The value of a pattern as a sign and a magnitude by the formulas of R124 and R125. -/
theorem realValue_eq_formula (f : Fmt) (v : Word) : realValue f v = (if fpSign f v then -1 else 1) *
    if fpExp f v = 0 then 2 ^ f.emin * ((fpFrac f v : ℚ) / 2 ^ f.fracBits)
    else 2 ^ ((fpExp f v : Int) - f.emax) * (1 + (fpFrac f v : ℚ) / 2 ^ f.fracBits) := by
  unfold realValue
  cases fpSign f v
  · exact (one_mul _).symm
  · exact (neg_one_mul _).symm

/-- Settles O47: the fields are bits of the pattern, the classes are by fields, the value by `realValue_eq_formula`. -/
theorem classesAndValues : Obligations.ClassesAndValues := by
  refine ⟨fun v => ?_, fun v => ?_⟩
  · have hexp : (v.extractLsb' 52 11).toNat = fpExp .double v := (fpExp_eq_extract .double v).symm
    have hfrac : (v.extractLsb' 0 52).toNat = fpFrac .double v := (fpFrac_eq_extract .double v).symm
    rw [hexp, hfrac]
    exact ⟨decide_eq_true_iff, decide_eq_true_iff, decide_eq_true_iff, isQNaN_iff .double v, isSNaN_iff .double v, rfl,
      fun _ => (realValue_eq_units .double v).trans (realValue_eq_formula .double v)⟩
  · have hexp : (v.extractLsb' 23 8).toNat = fpExp .single v := (fpExp_eq_extract .single v).symm
    have hfrac : (v.extractLsb' 0 23).toNat = fpFrac .single v := (fpFrac_eq_extract .single v).symm
    rw [hexp, hfrac]
    exact ⟨decide_eq_true_iff, decide_eq_true_iff, decide_eq_true_iff, isQNaN_iff .single v, isSNaN_iff .single v, rfl,
      fun _ => (realValue_eq_units .single v).trans (realValue_eq_formula .single v)⟩

/-! ### Rounding -/

/-- The magnitude `fpRound` rounds to, in units. -/
def roundedMag (f : Fmt) (num den : Nat) : Nat := gridPoint f num den * 2 ^ gridExp f num den

/-- `Round` where the rounded magnitude overflows (R129). -/
theorem fpRound_overflow {f : Fmt} {num den : Nat} (h : f.overflowMag ≤ roundedMag f num den) (t : Tininess)
    (neg : Bool) : fpRound f t neg num den = ⟨fpInf f neg, true, true, true, false⟩ := if_pos h

/-- `Round` where it does not (R129). -/
theorem fpRound_in_range {f : Fmt} {num den : Nat} (h : roundedMag f num den < f.overflowMag) (t : Tininess)
    (neg : Bool) : fpRound f t neg num den =
      ⟨fpOfMag f neg (roundedMag f num den), decide (roundedMag f num den * den ≠ num),
        decide (num < roundedMag f num den * den), false,
        isTiny f t num den && decide (roundedMag f num den * den ≠ num)⟩ := if_neg (Nat.not_le.mpr h)

/-- An infinity is one, of its sign. -/
theorem isInf_fpInf (f : Fmt) (neg : Bool) : isInf f (fpInf f neg) = true ∧ fpSign f (fpInf f neg) = neg := by
  cases f <;> cases neg <;> decide

/-- An exact value `e` of sign `neg` whose magnitude is `num / den` units (R126). -/
def InUnits (f : Fmt) (neg : Bool) (num den : Nat) (e : ℚ) : Prop :=
  e * 2 ^ f.unitExp = (if neg then -1 else 1) * ((num : ℚ) / den)

section
variable {f : Fmt} {neg : Bool} {num den : Nat} {e : ℚ} (he : InUnits f neg num den e) (hnum : 0 < num) (hden : 0 < den)
include he

/-- Its magnitude, in units. -/
theorem InUnits.abs_eq : |e| * 2 ^ f.unitExp = (num : ℚ) / den := by
  have hU : (0 : ℚ) < 2 ^ f.unitExp := by positivity
  have hq : (0 : ℚ) ≤ (num : ℚ) / den := by positivity
  rw [← abs_of_pos hU, ← abs_mul, he, abs_mul, abs_of_nonneg hq]
  cases neg <;> simp

include hden

/-- Rounding overflows exactly from `overflowAt` on (R126, R129). -/
theorem InUnits.overflow_iff : f.overflowMag ≤ roundedMag f num den ↔ f.overflowAt ≤ |e| := by
  have hU : (0 : ℚ) < 2 ^ f.unitExp := by positivity
  have hdq : (0 : ℚ) < den := by exact_mod_cast hden
  have hexp : f.fracBits + f.expMax - 1 = f.fracBits + (f.expMax - 1) ∧ f.expMax - 1 - 2 = f.expMax - 3 ∧
      2 ≤ f.expMax - 1 := by cases f <;> decide
  obtain ⟨hsum, hsub, htwo⟩ := hexp
  rw [Fmt.overflowMag, hsum, roundedMag, rounded_reaches f num hden htwo, hsub, ← mul_le_mul_iff_left₀ hU, he.abs_eq,
    overflowAt_units, le_div_iff₀ hdq, ← Nat.cast_le (α := ℚ)]
  push_cast [Nat.one_le_two_pow]
  rfl

include hnum

/-- It is negative exactly if its sign says so. -/
theorem InUnits.neg_iff : e < 0 ↔ neg = true := by
  have hU : (0 : ℚ) < 2 ^ f.unitExp := by positivity
  have hq : (0 : ℚ) < (num : ℚ) / den := by positivity
  rw [← mul_lt_mul_iff_left₀ hU, he, zero_mul]
  cases neg
  · simp [hq.le]
  · simp [hq]

end

/-- A tiny value does not overflow (R126, R129). -/
theorem not_overflow_of_tiny {f : Fmt} {t : Tininess} {e : ℚ} (h : Tiny f t e) : |e| < f.overflowAt := by
  have hmin : |e| < 2 ^ f.emin := by
    cases t
    · exact h
    · refine h.trans_le (mul_le_of_le_one_left (by positivity) ?_)
      rw [sub_le_self_iff]
      positivity
  refine hmin.trans_le ?_
  have hU : (0 : ℚ) < 2 ^ f.unitExp := by positivity
  rw [← mul_le_mul_iff_left₀ hU, emin_units, overflowAt_units]
  have hP : (1 : ℚ) ≤ 2 ^ f.fracBits := one_le_pow₀ (by norm_num)
  have hE : (1 : ℚ) ≤ 2 ^ (f.expMax - 3) := one_le_pow₀ (by norm_num)
  rw [pow_add]
  nlinarith

/-- Two patterns have one value exactly if they have one number of units. -/
theorem realValue_eq_iff (f : Fmt) (v w : Word) : realValue f v = realValue f w ↔ fpValue f v = fpValue f w := by
  have hU : (2 : ℚ) ^ f.unitExp ≠ 0 := by positivity
  rw [← mul_left_inj' hU, realValue_units, realValue_units, Int.cast_inj]

/-- How far a pattern is from the value of sign `neg` and magnitude `num / den`, in units over `den`. -/
def errorUnits (f : Fmt) (neg : Bool) (num den : Nat) (v : Word) : Int :=
  |fpValue f v * den - (if neg then -(num : Int) else num)|

/-- The distance of a pattern's value from an exact one. -/
theorem InUnits.error_eq {f : Fmt} {neg : Bool} {num den : Nat} {e : ℚ} (he : InUnits f neg num den e) (hden : 0 < den)
    (v : Word) : |realValue f v - e| * (2 ^ f.unitExp * den) = (errorUnits f neg num den v : ℚ) := by
  have hdq : (0 : ℚ) < den := by exact_mod_cast hden
  have hpos : (0 : ℚ) < 2 ^ f.unitExp * den := by positivity
  have hdiff : (realValue f v - e) * (2 ^ f.unitExp * den) = fpValue f v * den - (if neg then -(num : ℚ) else num) := by
    rw [← mul_assoc, sub_mul, realValue_units, he, sub_mul]
    congr 1
    cases neg <;> simp [hdq.ne']
  rw [← abs_of_pos hpos, ← abs_mul, hdiff, errorUnits]
  cases neg <;> push_cast <;> rfl

/-- A pattern of the value's own sign is as far from it as its magnitude from the value's. -/
theorem errorUnits_of_sign {f : Fmt} {neg : Bool} {v : Word} (h : fpSign f v = neg) (num den : Nat) :
    errorUnits f neg num den v = |((fpMag f v * den : Nat) : Int) - num| := by
  subst h
  unfold errorUnits fpValue
  cases fpSign f v
  · rw [if_neg nofun, if_neg nofun, Nat.cast_mul]
  · rw [if_pos rfl, if_pos rfl, ← abs_neg, Nat.cast_mul]
    congr 1
    ring

/-- A pattern of the other sign is farther away. -/
theorem errorUnits_of_other_sign {f : Fmt} {neg : Bool} {v : Word} (h : fpSign f v ≠ neg) (num den : Nat) :
    errorUnits f neg num den v = ((fpMag f v * den : Nat) : Int) + num := by
  have hneg : neg = !fpSign f v := by cases neg <;> simpa using h
  subst hneg
  unfold errorUnits fpValue
  cases fpSign f v
  · rw [← abs_of_nonneg (by positivity : 0 ≤ ((fpMag f v * den : Nat) : Int) + num)]
    simp
  · rw [← abs_of_nonneg (by positivity : 0 ≤ ((fpMag f v * den : Nat) : Int) + num), ← abs_neg]
    simp [add_comm]

/-- A pattern is at least as far from a value as its magnitude from the value's, and only so far if it is the magnitude
with the value's sign (R129). -/
theorem errorUnits_ge {f : Fmt} {neg : Bool} {num den : Nat} (hnum : 0 < num) (hden : 0 < den) (v : Word) :
    |((fpMag f v * den : Nat) : Int) - num| ≤ errorUnits f neg num den v ∧
      (errorUnits f neg num den v = |((fpMag f v * den : Nat) : Int) - num| →
        fpValue f v = if neg then -(fpMag f v : Int) else fpMag f v) := by
  by_cases hsign : fpSign f v = neg
  · rw [errorUnits_of_sign hsign]
    exact ⟨le_rfl, fun _ => by rw [fpValue, hsign]⟩
  · rw [errorUnits_of_other_sign hsign]
    refine ⟨abs_le.mpr ⟨by omega, by omega⟩, fun heq => ?_⟩
    have hzero : fpMag f v * den = 0 := by
      rcases abs_choice (((fpMag f v * den : Nat) : Int) - num) with habs | habs <;> rw [habs] at heq <;> omega
    have hmag : fpMag f v = 0 := by
      rcases Nat.mul_eq_zero.mp hzero with h | h
      · exact h
      · omega
    rw [fpValue, hmag]
    simp

/-- The pattern of the rounded magnitude, where that does not overflow: sign, class and magnitude (R129). -/
theorem fpOfMag_roundedMag {f : Fmt} (neg : Bool) {num den : Nat} (hden : 0 < den)
    (hov : roundedMag f num den < f.overflowMag) :
    fpSign f (fpOfMag f neg (roundedMag f num den)) = neg ∧ isFinite f (fpOfMag f neg (roundedMag f num den)) = true ∧
      fpMag f (fpOfMag f neg (roundedMag f num den)) = roundedMag f num den :=
  fpOfMag_spec neg (representable_rounded f num hden hov)

section
variable {f : Fmt} {neg : Bool} {num den : Nat} {e : ℚ} (he : InUnits f neg num den e) (hnum : 0 < num) (hden : 0 < den)
  (hov : roundedMag f num den < f.overflowMag)
include hden hov

/-- How far it is from the exact value. -/
theorem errorUnits_rounded : errorUnits f neg num den (fpOfMag f neg (roundedMag f num den)) =
    |((roundedMag f num den * den : Nat) : Int) - num| := by
  obtain ⟨hsign, -, hmag⟩ := fpOfMag_roundedMag neg hden hov
  rw [errorUnits_of_sign hsign, hmag]

include he

/-- It is inexact exactly if its value is not the exact one (R128). -/
theorem InUnits.inexact_iff :
    roundedMag f num den * den ≠ num ↔ realValue f (fpOfMag f neg (roundedMag f num den)) ≠ e := by
  have hpos : (0 : ℚ) < 2 ^ f.unitExp * den := by
    have : (0 : ℚ) < den := by exact_mod_cast hden
    positivity
  rw [← sub_ne_zero (b := e), ← abs_ne_zero, ← mul_ne_zero_iff_right hpos.ne', he.error_eq hden,
    errorUnits_rounded hden hov, Int.cast_ne_zero, abs_ne_zero, sub_ne_zero]
  exact not_congr Nat.cast_inj.symm

/-- It is rounded away from zero exactly if its magnitude is the greater (R128). -/
theorem InUnits.away_iff :
    num < roundedMag f num den * den ↔ |e| < |realValue f (fpOfMag f neg (roundedMag f num den))| := by
  have hU : (0 : ℚ) < 2 ^ f.unitExp := by positivity
  have hdq : (0 : ℚ) < den := by exact_mod_cast hden
  obtain ⟨-, -, hmag⟩ := fpOfMag_roundedMag neg hden hov
  rw [← mul_lt_mul_iff_left₀ hU, he.abs_eq, realValue_abs, hmag, div_lt_iff₀ hdq, ← Nat.cast_lt (α := ℚ), Nat.cast_mul]

include hnum

/-- It is nearest to the exact value, ties to even (R129). -/
theorem InUnits.nearest {w : Word} (hw : isFinite f w = true) :
    |realValue f (fpOfMag f neg (roundedMag f num den)) - e| ≤ |realValue f w - e| ∧
      (|realValue f (fpOfMag f neg (roundedMag f num den)) - e| = |realValue f w - e| →
        realValue f w ≠ realValue f (fpOfMag f neg (roundedMag f num den)) →
        fpFrac f (fpOfMag f neg (roundedMag f num den)) % 2 = 0) := by
  obtain ⟨hsign, -, hmag⟩ := fpOfMag_roundedMag neg hden hov
  have hr := errorUnits_rounded (neg := neg) hden hov
  have hpos : (0 : ℚ) < 2 ^ f.unitExp * den := by
    have : (0 : ℚ) < den := by exact_mod_cast hden
    positivity
  obtain ⟨hnear, heven⟩ := rounded_nearest f num hden (representable_fpMag hw)
  obtain ⟨hge, hvalue⟩ := errorUnits_ge (neg := neg) hnum hden w
  rw [← mul_le_mul_iff_left₀ hpos, ← mul_left_inj' hpos.ne', he.error_eq hden, he.error_eq hden, Int.cast_le,
    Int.cast_inj, Ne, realValue_eq_iff, hr]
  refine ⟨hnear.trans hge, fun heq hne => fpFrac_fpOfMag_even f neg hden hov ?_⟩
  have hw_eq : errorUnits f neg num den w = |((fpMag f w * den : Nat) : Int) - num| := le_antisymm (heq ▸ hnear) hge
  refine heven (heq.trans hw_eq) fun hmags => hne ?_
  rw [hvalue hw_eq, fpValue, hsign, hmag, hmags]
  rfl

end

/-- `Round` of a value in units is that value correctly rounded (R129): the infinity of its sign from `overflowAt` on,
else the pattern of the rounded magnitude. -/
theorem InUnits.correctlyRounded {f : Fmt} {neg : Bool} {num den : Nat} {e : ℚ} (he : InUnits f neg num den e)
    (t : Tininess) (hnum : 0 < num) (hden : 0 < den) : CorrectlyRounded f t e (fpRound f t neg num den) := by
  have hneg : neg = decide (e < 0) := by rw [Bool.eq_iff_iff, decide_eq_true_iff, he.neg_iff hnum hden]
  rcases le_or_gt f.overflowMag (roundedMag f num den) with hov | hov
  · have hlarge := (he.overflow_iff hden).mp hov
    rw [fpRound_overflow hov]
    obtain ⟨hinf, hsign⟩ := isInf_fpInf f neg
    exact ⟨hsign.trans hneg, iff_of_true rfl hlarge,
      iff_of_false nofun fun ⟨htiny, _⟩ => hlarge.not_gt (not_overflow_of_tiny htiny),
      fun _ => ⟨hinf, rfl, rfl⟩, nofun⟩
  · have hsmall : ¬ f.overflowAt ≤ |e| := fun h => hov.not_ge ((he.overflow_iff hden).mpr h)
    obtain ⟨hsign, hfin, -⟩ := fpOfMag_roundedMag neg hden hov
    rw [fpRound_in_range hov]
    refine ⟨hsign.trans hneg, iff_of_false nofun hsmall, ?_, nofun, fun _ => ⟨hfin,
      decide_eq_true_iff.trans (he.inexact_iff hden hov), decide_eq_true_iff.trans (he.away_iff hden hov),
      fun w hw => he.nearest hnum hden hov hw⟩⟩
    rw [Bool.and_eq_true, isTiny_iff f t num den hden e he.abs_eq]

/-- Settles O49: the value is in units as stated. -/
theorem roundNearestEven : Obligations.RoundNearestEven := by
  intro f t neg num den hnum hden
  have he : InUnits f neg num den ((if neg then -1 else 1) * ((num : ℚ) / ((den : ℚ) * 2 ^ f.unitExp))) := by
    rw [InUnits, mul_assoc, div_mul_eq_mul_div, mul_div_mul_right _ _ (by positivity)]
  exact he.correctlyRounded t hnum hden

/-! ### Rounding what needs none -/

/-- The units of a pattern that is not zero are not none (R124, R125). -/
theorem fpMag_pos {f : Fmt} {v : Word} (h : isZero f v = false) : 0 < fpMag f v := by
  rw [Nat.pos_iff_ne_zero]
  intro hmag
  have hvalue : fpValue f v = 0 := by simp [fpValue, hmag]
  rw [(value_zero_iff f v).mp hvalue] at h
  cases h

/-- A magnitude the format can hold is rounded to itself (R128). -/
theorem roundedMag_of_representable {f : Fmt} {mag : Nat} (h : Representable f mag) {den : Nat} (hden : 0 < den) :
    roundedMag f (mag * den) den = mag := by
  obtain ⟨hnear, -⟩ := rounded_nearest f (mag * den) hden h
  rw [sub_self, abs_zero, abs_nonpos_iff, sub_eq_zero, Nat.cast_inj] at hnear
  exact Nat.eq_of_mul_eq_mul_right hden hnear

/-- Tininess depends on the value alone (R129). -/
theorem isTiny_scale (f : Fmt) (t : Tininess) (num : Nat) {den c : Nat} (hden : 0 < den) (hc : 0 < c) :
    isTiny f t (num * c) (den * c) = isTiny f t num den := by
  have hU : (0 : ℚ) < 2 ^ f.unitExp := by positivity
  have hcq : (c : ℚ) ≠ 0 := by exact_mod_cast hc.ne'
  have hq : (0 : ℚ) ≤ (num : ℚ) / den / 2 ^ f.unitExp := by positivity
  have he : |(num : ℚ) / den / 2 ^ f.unitExp| * 2 ^ f.unitExp = (num : ℚ) / den := by
    rw [abs_of_nonneg hq, div_mul_cancel₀ _ hU.ne']
  rw [Bool.eq_iff_iff, isTiny_iff f t num den hden _ he, isTiny_iff f t (num * c) (den * c) (Nat.mul_pos hden hc)]
  rw [he, Nat.cast_mul, Nat.cast_mul, mul_div_mul_right _ _ hcq]

/-- The rounded magnitude depends on the value alone (R128). -/
theorem roundedMag_scale (f : Fmt) (num den : Nat) {c : Nat} (hc : 0 < c) :
    roundedMag f (num * c) (den * c) = roundedMag f num den := by
  have hgrid : gridExp f (num * c) (den * c) = gridExp f num den := by
    rw [gridExp, Nat.mul_div_mul_right _ _ hc, gridExp]
  rw [roundedMag, gridPoint, hgrid, Nat.mul_right_comm, roundDiv_scale _ _ hc, roundedMag, gridPoint]

/-- So does all that rounding returns (R128). -/
theorem fpRound_scale (f : Fmt) (t : Tininess) (neg : Bool) (num : Nat) {den c : Nat} (hden : 0 < den) (hc : 0 < c) :
    fpRound f t neg (num * c) (den * c) = fpRound f t neg num den := by
  have hmag := roundedMag_scale f num den hc
  rcases le_or_gt f.overflowMag (roundedMag f num den) with hov | hov
  · rw [fpRound_overflow hov, fpRound_overflow (hmag ▸ hov)]
  · have hprod : roundedMag f num den * (den * c) = roundedMag f num den * den * c := (Nat.mul_assoc _ _ _).symm
    have hne : roundedMag f num den * den * c ≠ num * c ↔ roundedMag f num den * den ≠ num :=
      not_congr (Nat.mul_left_inj hc.ne')
    have hlt : num * c < roundedMag f num den * den * c ↔ num < roundedMag f num den * den := Nat.mul_lt_mul_right hc
    rw [fpRound_in_range hov, fpRound_in_range (hmag ▸ hov), hmag, hprod, isTiny_scale f t num hden hc]
    simp only [hne, hlt]

/-- Settles O48: a representable magnitude is rounded to itself, and fractions of one value are scalings of one
another. -/
theorem roundExact : Obligations.RoundExact := by
  refine ⟨fun f t v num den hden hfin hzero hwidth hvalue => ?_, fun f t neg num den num' den' hnum hden hden' hq => ?_⟩
  · have hrep := representable_fpMag hfin
    have hdq : (den : ℚ) ≠ 0 := by exact_mod_cast hden.ne'
    have hnum : num = fpMag f v * den := by
      have habs := realValue_abs f v
      rw [hvalue, div_mul_eq_mul_div, mul_div_mul_right _ _ (by positivity), div_eq_iff hdq] at habs
      exact_mod_cast habs
    have hround : roundedMag f num den = fpMag f v := by rw [hnum, roundedMag_of_representable hrep hden]
    rw [fpRound_in_range (hround ▸ hrep.1), hround, fpOfMag_fpMag hfin hwidth, ← hnum]
    simp
  · have hcross : num * den' = num' * den := by
      rw [div_eq_div_iff (by exact_mod_cast hden.ne') (by exact_mod_cast hden'.ne')] at hq
      exact_mod_cast hq
    rw [← fpRound_scale f t neg num hden hden', hcross, Nat.mul_comm den den', fpRound_scale f t neg num' hden' hden]

/-! ### The four operations on numbers -/

/-- What `FpArith` does with operands that are no NaNs (R136). -/
def numberCase (f : Fmt) (t : Tininess) (op : FpOp) (nan a b : Word) : FpResult :=
  match op with
  | .add => addCase f t nan a b
  | .sub => addCase f t nan a (flipSign f b)
  | .mul => mulCase f t nan a b
  | .div => divCase f t nan a b

/-- `FpArith` with a signalling NaN operand (R131). -/
theorem fpArith_snan {f : Fmt} {a b : Word} (h : isSNaN f a = true ∨ isSNaN f b = true) (t : Tininess) (op : FpOp)
    (nan : Word) : fpArith f t op nan a b = .invalid 0 nan := if_pos h

/-- `FpArith` with a NaN operand, but no signalling one (R131). -/
theorem fpArith_qnan {f : Fmt} {a b : Word} (hs : ¬ (isSNaN f a = true ∨ isSNaN f b = true))
    (h : isNaN f a = true ∨ isNaN f b = true) (t : Tininess) (op : FpOp) (nan : Word) :
    fpArith f t op nan a b = .exact nan := (if_neg hs).trans (if_pos h)

/-- `FpArith` with operands that are no NaNs (R136). -/
theorem fpArith_numbers {f : Fmt} {a b : Word} (ha : isNaN f a = false) (hb : isNaN f b = false) (t : Tininess)
    (op : FpOp) (nan : Word) : fpArith f t op nan a b = numberCase f t op nan a b := by
  unfold fpArith
  rw [if_neg (by simp [snan_false ha, snan_false hb]), if_neg (by simp [ha, hb])]
  cases op <;> rfl

/-- What an operation returns where it divides by zero (R134). -/
def divideByZeroResult (f : Fmt) (a b : Word) : FpResult :=
  { bits := fpInf f (fpSign f a != fpSign f b), kinds := kindBit 3 true, types := 0, inexact := false, away := false }

/-! The cases of R136, each under the conditions that select it. -/

section
variable {f : Fmt} {a b : Word}

theorem addCase_inf_left (ha : isInf f a = true) (hsign : isInf f b = true → fpSign f a = fpSign f b) (t : Tininess)
    (nan : Word) : addCase f t nan a b = .exact a :=
  (if_neg fun ⟨_, hb, hne⟩ => hne (hsign hb)).trans (if_pos ha)

theorem addCase_inf_right (ha : isInf f a = false) (hb : isInf f b = true) (t : Tininess) (nan : Word) :
    addCase f t nan a b = .exact b := by
  rw [addCase, if_neg (by simp [ha]), if_neg (by simp [ha]), if_pos hb]

theorem addCase_finite (ha : isInf f a = false) (hb : isInf f b = false) (t : Tininess) (nan : Word) :
    addCase f t nan a b = finishSum f t (fpValue f a + fpValue f b) 1 (fpSign f a && fpSign f b) := by
  rw [addCase, if_neg (by simp [ha]), if_neg (by simp [ha]), if_neg (by simp [hb])]

theorem mulCase_inf (h : isInf f a = true ∧ isZero f b = false ∨ isInf f b = true ∧ isZero f a = false) (t : Tininess)
    (nan : Word) : mulCase f t nan a b = .exact (fpInf f (fpSign f a != fpSign f b)) := by
  rcases h with ⟨hinf, hzero⟩ | ⟨hinf, hzero⟩ <;> obtain ⟨-, hother, -⟩ := inf_excludes hinf <;>
    rw [mulCase, if_neg (by simp [hzero, hother]), if_pos (by simp [hinf])]

theorem mulCase_zero (h : isZero f a = true ∧ isInf f b = false ∨ isZero f b = true ∧ isInf f a = false) (t : Tininess)
    (nan : Word) : mulCase f t nan a b = .exact (fpZero f (fpSign f a != fpSign f b)) := by
  rcases h with ⟨hzero, hinf⟩ | ⟨hzero, hinf⟩ <;> obtain ⟨-, hother, -⟩ := zero_excludes hzero <;>
    rw [mulCase, if_neg (by simp [hinf, hother]), if_neg (by simp [hinf, hother]), if_pos (by simp [hzero])]

theorem mulCase_nonzero (ha : isInf f a = false) (hb : isInf f b = false) (hza : isZero f a = false)
    (hzb : isZero f b = false) (t : Tininess) (nan : Word) : mulCase f t nan a b =
      .rounded (fpRound f t (fpSign f a != fpSign f b) (fpMag f a * fpMag f b) f.one) := by
  rw [mulCase, if_neg (by simp [ha, hb]), if_neg (by simp [ha, hb]), if_neg (by simp [hza, hzb])]

theorem divCase_inf_left (ha : isInf f a = true) (hb : isInf f b = false) (t : Tininess) (nan : Word) :
    divCase f t nan a b = .exact (fpInf f (fpSign f a != fpSign f b)) := by
  obtain ⟨-, hza, -⟩ := inf_excludes ha
  rw [divCase, if_neg (by simp [hb]), if_neg (by simp [hza]), if_pos ha]

theorem divCase_inf_right (ha : isInf f a = false) (hb : isInf f b = true) (t : Tininess) (nan : Word) :
    divCase f t nan a b = .exact (fpZero f (fpSign f a != fpSign f b)) := by
  obtain ⟨-, hzb, -⟩ := inf_excludes hb
  rw [divCase, if_neg (by simp [ha]), if_neg (by simp [hzb]), if_neg (by simp [ha]), if_pos hb]

theorem divCase_zero_right (ha : isFinite f a = true) (hza : isZero f a = false) (hzb : isZero f b = true)
    (t : Tininess) (nan : Word) : divCase f t nan a b = divideByZeroResult f a b := by
  obtain ⟨-, hia, -⟩ := finite_cases ha
  obtain ⟨-, hib, -⟩ := zero_excludes hzb
  rw [divCase, if_neg (by simp [hia]), if_neg (by simp [hza]), if_neg (by simp [hia]), if_neg (by simp [hib]),
    if_pos hzb]
  rfl

theorem divCase_zero_left (hza : isZero f a = true) (hzb : isZero f b = false) (t : Tininess) (nan : Word) :
    divCase f t nan a b = .exact (fpZero f (fpSign f a != fpSign f b)) := by
  obtain ⟨-, hia, -⟩ := zero_excludes hza
  cases hib : isInf f b
  · rw [divCase, if_neg (by simp [hia]), if_neg (by simp [hzb]), if_neg (by simp [hia]), if_neg (by simp [hib]),
      if_neg (by simp [hzb]), if_pos hza]
  · exact divCase_inf_right hia hib t nan

theorem divCase_nonzero (ha : isInf f a = false) (hb : isInf f b = false) (hza : isZero f a = false)
    (hzb : isZero f b = false) (t : Tininess) (nan : Word) : divCase f t nan a b =
      .rounded (fpRound f t (fpSign f a != fpSign f b) (fpMag f a * f.one) (fpMag f b)) := by
  rw [divCase, if_neg (by simp [ha]), if_neg (by simp [hza]), if_neg (by simp [ha]), if_neg (by simp [hb]),
    if_neg (by simp [hzb]), if_neg (by simp [hza])]

end

/-! ### Infinities and zeros -/

/-- A sum of values, in units (R124, R125). -/
theorem realValue_add_units (f : Fmt) (a b : Word) :
    (realValue f a + realValue f b) * 2 ^ f.unitExp = ((fpValue f a + fpValue f b : Int) : ℚ) := by
  rw [add_mul, realValue_units, realValue_units, Int.cast_add]

/-- An exactly zero sum of finite numbers (R136, note Z). -/
theorem addCase_zero {f : Fmt} {a b : Word} (ha : isInf f a = false) (hb : isInf f b = false)
    (hsum : realValue f a + realValue f b = 0) (t : Tininess) (nan : Word) :
    addCase f t nan a b = .exact (fpZero f (fpSign f a && fpSign f b)) := by
  have hunits := realValue_add_units f a b
  rw [hsum, zero_mul] at hunits
  rw [addCase_finite ha hb, finishSum, if_pos (by exact_mod_cast hunits.symm)]

/-- Settles O51: each clause is one case of the operation; a difference is the sum with the second sign inverted. -/
theorem infinitiesAndZeros : Obligations.InfinitiesAndZeros := by
  intro f t nan a b ha hb sign
  obtain ⟨-, -, hinfFlip, -, -, hsignFlip⟩ := flip_classes f b
  simp only [fpArith_numbers ha hb]
  refine ⟨fun hia hs => addCase_inf_left hia hs t nan, fun hib hia => addCase_inf_right hia hib t nan,
    fun hfa hfb hsum => ?_, fun hia hs => addCase_inf_left hia ?_ t nan,
    fun hib hia => addCase_inf_right hia (hinfFlip.trans hib) t nan, fun hfa hfb hdiff => ?_,
    fun h => mulCase_inf h t nan, fun h => mulCase_zero h t nan, fun hia hib => divCase_inf_left hia hib t nan,
    fun hib hia => divCase_inf_right hia hib t nan, fun hza hzb => divCase_zero_left hza hzb t nan⟩
  · obtain ⟨-, hia, -⟩ := finite_cases hfa
    obtain ⟨-, hib, -⟩ := finite_cases hfb
    exact addCase_zero hia hib hsum t nan
  · rw [hinfFlip, hsignFlip]
    exact fun hib => Bool.eq_not.mpr (hs hib)
  · obtain ⟨-, hia, -⟩ := finite_cases hfa
    obtain ⟨-, hib, -⟩ := finite_cases hfb
    have hsum : realValue f a + realValue f (flipSign f b) = 0 := by rw [real_flip, ← sub_eq_add_neg, hdiff]
    have hzero := addCase_zero hia (hinfFlip.trans hib) hsum t nan
    rwa [hsignFlip] at hzero

/-! ### Finite numbers -/

/-- A result is the exact value `e` correctly rounded, or a zero where that is zero, with no kind but overflow,
underflow and inexact (R135, R136). -/
structure FpResult.RoundsTo (r : FpResult) (f : Fmt) (t : Tininess) (e : ℚ) : Prop where
  zero : e = 0 → isZero f r.bits = true ∧ r.kinds = 0 ∧ r.inexact = false ∧ r.away = false
  nonzero : e ≠ 0 → CorrectlyRounded f t e
      ⟨r.bits, r.inexact, r.away, r.kinds.getLsbD 1, r.kinds.getLsbD 2⟩ ∧ r.kinds.getLsbD 4 = r.inexact ∧
      r.kinds.getLsbD 0 = false ∧ r.kinds.getLsbD 3 = false
  types : r.types = 0

/-- An exact zero. -/
theorem roundsTo_zero (f : Fmt) (t : Tininess) (neg : Bool) : (FpResult.exact (fpZero f neg)).RoundsTo f t 0 where
  zero _ := ⟨isZero_fpZero f neg, rfl, rfl, rfl⟩
  nonzero h := absurd rfl h
  types := rfl

/-- A rounded value. -/
theorem InUnits.roundsTo {f : Fmt} {neg : Bool} {num den : Nat} {e : ℚ} (he : InUnits f neg num den e) (t : Tininess)
    (hnum : 0 < num) (hden : 0 < den) : (FpResult.rounded (fpRound f t neg num den)).RoundsTo f t e where
  zero h := by
    have habs := he.abs_eq
    rw [h, abs_zero, zero_mul] at habs
    have hq : (0 : ℚ) < (num : ℚ) / den := by positivity
    exact absurd habs hq.ne
  nonzero _ := by
    obtain ⟨h1, h2, h4, h0, h3⟩ := bits_kinds (fpRound f t neg num den)
    rw [h1, h2]
    exact ⟨he.correctlyRounded t hnum hden, h4, h0, h3⟩
  types := rfl

/-- A sum of finite numbers of units (R136). -/
theorem finishSum_roundsTo {f : Fmt} {n : Int} {den : Nat} {e : ℚ} (he : e * 2 ^ f.unitExp = (n : ℚ) / den)
    (hden : 0 < den) (t : Tininess) (zeroNeg : Bool) : (finishSum f t n den zeroNeg).RoundsTo f t e := by
  have hU : (2 : ℚ) ^ f.unitExp ≠ 0 := by positivity
  unfold finishSum
  split
  · next hn =>
    rw [hn, Int.cast_zero, zero_div, mul_eq_zero_iff_right hU] at he
    rw [he]
    exact roundsTo_zero f t zeroNeg
  · next hn =>
    refine InUnits.roundsTo ?_ t (Int.natAbs_pos.mpr hn) hden
    rw [InUnits, he, mul_div_assoc']
    congr 1
    rw [Nat.cast_natAbs, Int.cast_abs]
    by_cases hneg : n < 0
    · rw [if_pos (decide_eq_true hneg), abs_of_neg (by exact_mod_cast hneg)]
      ring
    · rw [if_neg (by simpa using hneg), abs_of_nonneg (by exact_mod_cast not_lt.mp hneg)]
      ring

/-- The sign of a product (R136). -/
theorem sign_mul (x y : Bool) :
    (if (x != y) then -1 else 1 : ℚ) = (if x then -1 else 1) * (if y then -1 else 1) := by
  cases x <;> cases y <;> norm_num

/-- The sign of a quotient (R136). -/
theorem sign_div (x y : Bool) :
    (if (x != y) then -1 else 1 : ℚ) = (if x then -1 else 1) / (if y then -1 else 1) := by
  cases x <;> cases y <;> norm_num

/-- The product of finite numbers is rounded once (R136). -/
theorem mulCase_roundsTo {f : Fmt} {a b : Word} (ha : isInf f a = false) (hb : isInf f b = false) (t : Tininess)
    (nan : Word) : (mulCase f t nan a b).RoundsTo f t (realValue f a * realValue f b) := by
  by_cases hzero : isZero f a = true ∨ isZero f b = true
  · have hprod : realValue f a * realValue f b = 0 := by
      rwa [mul_eq_zero, real_zero_iff, real_zero_iff]
    rw [hprod, mulCase_zero (hzero.imp (⟨·, hb⟩) (⟨·, ha⟩))]
    exact roundsTo_zero f t _
  · obtain ⟨hza, hzb⟩ : isZero f a = false ∧ isZero f b = false := by simpa using hzero
    rw [mulCase_nonzero ha hb hza hzb]
    refine InUnits.roundsTo ?_ t (Nat.mul_pos (fpMag_pos hza) (fpMag_pos hzb)) (Nat.two_pow_pos _)
    have hU : (2 : ℚ) ^ f.unitExp ≠ 0 := by positivity
    rw [InUnits, sign_mul, sign_real f a, sign_real f b, Nat.cast_mul, ← realValue_abs, ← realValue_abs, Fmt.one]
    push_cast
    field_simp

/-- So is the quotient, the divisor not zero (R136). -/
theorem divCase_roundsTo {f : Fmt} {a b : Word} (ha : isInf f a = false) (hb : isInf f b = false)
    (hzb : isZero f b = false) (t : Tininess) (nan : Word) :
    (divCase f t nan a b).RoundsTo f t (realValue f a / realValue f b) := by
  cases hza : isZero f a
  · rw [divCase_nonzero ha hb hza hzb]
    refine InUnits.roundsTo ?_ t (Nat.mul_pos (fpMag_pos hza) (Nat.two_pow_pos _)) (fpMag_pos hzb)
    have hU : (2 : ℚ) ^ f.unitExp ≠ 0 := by positivity
    have hvb : |realValue f b| ≠ 0 := by
      rw [abs_ne_zero, Ne, real_zero_iff, hzb]
      simp
    have hsign : (if fpSign f b then -1 else 1 : ℚ) ≠ 0 := by split <;> norm_num
    rw [InUnits, sign_div, sign_real f a, sign_real f b, Nat.cast_mul, ← realValue_abs, ← realValue_abs, Fmt.one]
    push_cast
    field_simp
  · rw [(real_zero_iff f a).mpr hza, zero_div, divCase_zero_left hza hzb]
    exact roundsTo_zero f t _

/-- So is the sum (R136). -/
theorem addCase_roundsTo {f : Fmt} {a b : Word} (ha : isInf f a = false) (hb : isInf f b = false) (t : Tininess)
    (nan : Word) : (addCase f t nan a b).RoundsTo f t (realValue f a + realValue f b) := by
  rw [addCase_finite ha hb]
  exact finishSum_roundsTo (by rw [realValue_add_units, Nat.cast_one, div_one]) Nat.one_pos t _

/-- The exact value of an operation (R136). -/
def exactValue (f : Fmt) (op : FpOp) (a b : Word) : ℚ :=
  match op with
  | .add => realValue f a + realValue f b
  | .sub => realValue f a - realValue f b
  | .mul => realValue f a * realValue f b
  | .div => realValue f a / realValue f b

/-- An operation on finite numbers, the divisor not zero, rounds the exact value (R136). -/
theorem numberCase_roundsTo {f : Fmt} {op : FpOp} {a b : Word} (ha : isFinite f a = true) (hb : isFinite f b = true)
    (hdiv : op = .div → isZero f b = false) (t : Tininess) (nan : Word) :
    (numberCase f t op nan a b).RoundsTo f t (exactValue f op a b) := by
  obtain ⟨-, hia, -⟩ := finite_cases ha
  obtain ⟨-, hib, -⟩ := finite_cases hb
  cases op with
  | add => exact addCase_roundsTo hia hib t nan
  | sub =>
    obtain ⟨-, -, hinfFlip, -⟩ := flip_classes f b
    have hdiff := addCase_roundsTo hia (hinfFlip.trans hib) t nan
    rwa [real_flip, ← sub_eq_add_neg] at hdiff
  | mul => exact mulCase_roundsTo hia hib t nan
  | div => exact divCase_roundsTo hia hib (hdiv rfl) t nan

/-- Settles O50: finite operands are no NaNs, so the operation is `numberCase`. -/
theorem arithmeticCorrectlyRounded : Obligations.ArithmeticCorrectlyRounded := by
  intro f t op nan a b ha hb hdiv e r
  have hr : r.RoundsTo f t (exactValue f op a b) := by
    obtain ⟨hna, -, -⟩ := finite_cases ha
    obtain ⟨hnb, -, -⟩ := finite_cases hb
    unfold r
    rw [fpArith_numbers hna hnb]
    exact numberCase_roundsTo ha hb hdiv t nan
  have he : e = exactValue f op a b := by cases op <;> rfl
  rw [he]
  exact ⟨hr.zero, hr.nonzero, hr.types⟩

/-! ### NaN operands and generated NaNs -/

/-- The fused multiply-accumulate with a signalling NaN operand (R131, R262). -/
theorem fusedMac_snan {f : Fmt} {a b c : Word} (h : isSNaN f a = true ∨ isSNaN f b = true ∨ isSNaN f c = true)
    (t : Tininess) (nan : Word) : fusedMac f t nan a b c = .invalid 0 nan := if_pos h

/-- The fused multiply-accumulate with a NaN operand, but no signalling one (R131, R262). -/
theorem fusedMac_qnan {f : Fmt} {a b c : Word} (hs : ¬ (isSNaN f a = true ∨ isSNaN f b = true ∨ isSNaN f c = true))
    (h : isNaN f a = true ∨ isNaN f b = true ∨ isNaN f c = true) (t : Tininess) (nan : Word) :
    fusedMac f t nan a b c = .exact nan := (if_neg hs).trans (if_pos h)

/-- A NaN result is not negated (R262). -/
theorem negateResult_nan {f : Fmt} {r : FpResult} (h : isNaN f r.bits = true) : negateResult f r = r := if_pos h

/-- Where the fused operation gives a NaN, so does `FMacOp`, and the same (R262). -/
theorem fMacOp_of_fused_nan {f : Fmt} {t : Tininess} {subc : Bool} {nan a b c : Word} {r : FpResult}
    (hr : fusedMac f t nan a b (if subc then flipSign f c else c) = r) (hnan : isNaN f r.bits = true) (negr : Bool)
    (np : Word) : fMacOp f t true subc negr np nan a b c = r := by
  subst hr
  cases negr
  · rfl
  · exact negateResult_nan hnan

/-- Settles O52: the third operand is a NaN, or a signalling one, whether or not its sign is inverted. -/
theorem naNOperands : Obligations.NaNOperands := by
  refine ⟨fun f t op nan a b => ⟨fun h => fpArith_snan h t op nan, fun ha hb h => ?_⟩,
    fun f t subc negr np nan a b c hnan => ?_⟩
  · exact fpArith_qnan (by simp [ha, hb]) h t op nan
  · obtain ⟨hn, hs, -⟩ := third_operand f subc c
    refine ⟨fun h => ?_, fun ha hb hc h => ?_⟩
    · rw [← hs] at h
      exact fMacOp_of_fused_nan (fusedMac_snan h t nan) hnan negr np
    · rw [← hn] at h
      rw [← hs] at hc
      exact fMacOp_of_fused_nan (fusedMac_qnan (by simp [ha, hb, hc]) h t nan) hnan negr np

/-- A generated NaN, bit by bit: exponent field and quiet bit are ones, the rest of the format is free (R132). -/
theorem getLsbD_quietNaN (f : Fmt) (free : Word) {i : Nat} (hi : i < 64) : (quietNaN f free).getLsbD i =
    (free.getLsbD i && decide (i < f.width) || decide (f.fracBits - 1 ≤ i ∧ i < f.width - 1)) := by
  have hdouble : ∀ i < 64, (0x7FF8000000000000 : Word).getLsbD i = decide (52 - 1 ≤ i ∧ i < 64 - 1) := by decide
  have hsingle : ∀ i < 64, (0x7FC00000 : Word).getLsbD i = decide (23 - 1 ≤ i ∧ i < 32 - 1) := by decide
  have hlow : ∀ i < 64, (0xFFFFFFFF : Word).getLsbD i = decide (i < 32) := by decide
  cases f with
  | double =>
    rw [decide_eq_true (show i < Fmt.width .double from hi), Bool.and_true]
    exact BitVec.getLsbD_or.trans (congrArg (free.getLsbD i || ·) (hdouble i hi))
  | single =>
    rw [quietNaN, BitVec.getLsbD_or, BitVec.getLsbD_and, hlow i hi, hsingle i hi]
    rfl

/-- Where fields and sign of a format stand (R120, R122). -/
theorem Fmt.fields (f : Fmt) : f.fracBits + f.expBits = f.width - 1 ∧ 0 < f.fracBits ∧ f.width ≤ 64 ∧
    f.expMax = 2 ^ f.expBits - 1 := by
  cases f <;> decide

/-- The exponent field is all ones exactly if its bits are (R124, R125). -/
theorem fpExp_eq_expMax_iff (f : Fmt) (v : Word) :
    fpExp f v = f.expMax ↔ ∀ i, f.fracBits ≤ i → i < f.width - 1 → v.getLsbD i = true := by
  obtain ⟨hwidth, -, -, hmax⟩ := f.fields
  have hbit : ∀ j, (fpExp f v).testBit j = (decide (j < f.expBits) && v.getLsbD (j + f.fracBits)) := fun j => by
    rw [fpExp, Nat.testBit_mod_two_pow, Nat.testBit_div_two_pow]
    rfl
  rw [hmax]
  constructor
  · intro h i hlow hhigh
    have hi := hbit (i - f.fracBits)
    rw [h, Nat.testBit_two_pow_sub_one, Nat.sub_add_cancel hlow, decide_eq_true (by omega), Bool.true_and] at hi
    exact hi.symm
  · intro h
    refine Nat.eq_of_testBit_eq fun j => ?_
    rw [hbit, Nat.testBit_two_pow_sub_one]
    by_cases hj : j < f.expBits
    · rw [h _ (by omega) (by omega), Bool.and_true]
    · rw [decide_eq_false hj, Bool.false_and]

/-- A pattern whose quiet bit is set has a fraction that is not zero (R124, R125). -/
theorem fpFrac_ne_zero_of_quietBit {f : Fmt} {v : Word} (h : quietBit f v = true) : fpFrac f v ≠ 0 := by
  obtain ⟨-, hfrac, -⟩ := f.fields
  intro hzero
  have hbit : (fpFrac f v).testBit (f.fracBits - 1) = quietBit f v := by
    rw [fpFrac, Nat.testBit_mod_two_pow, decide_eq_true (by omega), Bool.true_and]
    rfl
  rw [hzero, h, Nat.zero_testBit] at hbit
  cases hbit

/-- A quiet NaN, bit by bit: exponent field and quiet bit are ones (R124, R125). -/
theorem isQNaN_iff_bits (f : Fmt) (v : Word) :
    isQNaN f v = true ↔ ∀ i, f.fracBits - 1 ≤ i → i < f.width - 1 → v.getLsbD i = true := by
  obtain ⟨hwidth, hfrac, -⟩ := f.fields
  have hexp : 0 < f.expBits := by cases f <;> decide
  rw [isQNaN_iff, fpExp_eq_expMax_iff]
  constructor
  · rintro ⟨hones, -, hquiet⟩ i hlow hhigh
    by_cases hi : i = f.fracBits - 1
    · rw [hi]
      exact hquiet
    · exact hones i (by omega) hhigh
  · intro h
    have hquiet : quietBit f v = true := h _ le_rfl (by omega)
    exact ⟨fun i hlow hhigh => h i (by omega) hhigh, fpFrac_ne_zero_of_quietBit hquiet, hquiet⟩

/-- A generated NaN is a quiet NaN (R132). -/
theorem isQNaN_quietNaN (f : Fmt) (free : Word) : isQNaN f (quietNaN f free) = true := by
  obtain ⟨-, -, hwidth, -⟩ := f.fields
  rw [isQNaN_iff_bits]
  intro i hlow hhigh
  rw [getLsbD_quietNaN f free (by omega), decide_eq_true (p := _ ∧ _) ⟨hlow, hhigh⟩, Bool.or_true]

/-- A generated NaN is a pattern of the format (R123, R132). -/
theorem quietNaN_lt (f : Fmt) (free : Word) : (quietNaN f free).toNat < 2 ^ f.width := by
  refine Nat.lt_pow_two_of_testBit _ fun i hi => ?_
  by_cases h64 : i < 64
  · refine (getLsbD_quietNaN f free h64).trans ?_
    rw [decide_eq_false (by omega), Bool.and_false, decide_eq_false (by omega), Bool.or_false]
  · exact BitVec.getLsbD_of_ge _ _ (by omega)

/-- A quiet NaN of the format is generated from its own bits (R132). -/
theorem quietNaN_self {f : Fmt} {v : Word} (h : isQNaN f v = true) (hlt : v.toNat < 2 ^ f.width) :
    quietNaN f v = v := by
  rw [isQNaN_iff_bits] at h
  refine BitVec.eq_of_getLsbD_eq fun i hi => ?_
  rw [getLsbD_quietNaN f v hi]
  by_cases hones : f.fracBits - 1 ≤ i ∧ i < f.width - 1
  · rw [decide_eq_true hones, Bool.or_true, h i hones.1 hones.2]
  · rw [decide_eq_false hones, Bool.or_false]
    by_cases hin : i < f.width
    · rw [decide_eq_true hin, Bool.and_true]
    · have hclear : v.getLsbD i = false :=
        Nat.testBit_eq_false_of_lt (hlt.trans_le (Nat.pow_le_pow_right (by omega) (by omega)))
      rw [hclear, Bool.false_and]

/-- Settles O53: a generated NaN has ones where a quiet NaN has, and its other bits are free. -/
theorem generatedNaNIsAnyQuietNaN : Obligations.GeneratedNaNIsAnyQuietNaN :=
  ⟨fun s f => ⟨isQNaN_quietNaN f (Config.freeNaN s.draws), quietNaN_lt f (Config.freeNaN s.draws)⟩,
    fun _ v hq hlt => ⟨v, quietNaN_self hq hlt⟩⟩

/-! ### Invalid operations and division by zero -/

/-- The type of invalid operation on numbers, if the operation is one (R133). -/
def numberInvalidType (f : Fmt) (op : FpOp) (a b : Word) : Option Nat :=
  match op with
  | .add => if isInf f a ∧ isInf f b ∧ fpSign f a ≠ fpSign f b then some 1 else none
  | .sub => if isInf f a ∧ isInf f b ∧ fpSign f a = fpSign f b then some 1 else none
  | .mul => if (isInf f a ∧ isZero f b) ∨ (isZero f a ∧ isInf f b) then some 4 else none
  | .div => if isInf f a ∧ isInf f b then some 2 else if isZero f a ∧ isZero f b then some 3 else none

/-- The type of invalid operation, NaN operands included (R131, R133). -/
def invalidType (f : Fmt) (op : FpOp) (a b : Word) : Option Nat :=
  if isSNaN f a ∨ isSNaN f b then some 0
  else if isNaN f a ∨ isNaN f b then none
  else numberInvalidType f op a b

/-- A finite number that is not zero is divided by a zero (R134). -/
def DividesByZero (f : Fmt) (op : FpOp) (a b : Word) : Prop :=
  op = .div ∧ isFinite f a = true ∧ isZero f a = false ∧ isZero f b = true

/-- Everything an operation can return (R131, R133, R134, R136): `ty` is the type of invalid operation, `z` says whether
it divides by zero. -/
inductive OpResult (f : Fmt) (nan a b : Word) (ty : Option Nat) (z : Prop) : FpResult → Prop where
  | invalid {n : Nat} (h : ty = some n) (hz : ¬ z) : OpResult f nan a b ty z (.invalid n nan)
  | divideByZero (h : ty = none) (hz : z) : OpResult f nan a b ty z (divideByZeroResult f a b)
  | exact {v : Word} (h : ty = none) (hz : ¬ z) : OpResult f nan a b ty z (.exact v)
  | rounded {r : Rounded} (h : ty = none) (hz : ¬ z) : OpResult f nan a b ty z (.rounded r)

section
variable {f : Fmt} {a b : Word}

/-- The sum, the second operand perhaps with its sign inverted (R136). -/
theorem opResult_addCase (t : Tininess) (nan b' : Word) {ty : Option Nat} {z : Prop} (hz : ¬ z)
    (hty : ty = if isInf f a ∧ isInf f b' ∧ fpSign f a ≠ fpSign f b' then some 1 else none) :
    OpResult f nan a b ty z (addCase f t nan a b') := by
  unfold addCase
  split
  · next h => exact .invalid (hty.trans (if_pos h)) hz
  · next h =>
    have hnone : ty = none := hty.trans (if_neg h)
    split
    · exact .exact hnone hz
    · split
      · exact .exact hnone hz
      · unfold finishSum
        split
        · exact .exact hnone hz
        · exact .rounded hnone hz

/-- The product (R136). -/
theorem opResult_mulCase (t : Tininess) (nan : Word) :
    OpResult f nan a b (numberInvalidType f .mul a b) (DividesByZero f .mul a b) (mulCase f t nan a b) := by
  have hz : ¬ DividesByZero f .mul a b := nofun
  unfold mulCase
  simp only
  split
  · next h => exact .invalid (if_pos h) hz
  · next h =>
    have hnone : numberInvalidType f .mul a b = none := if_neg h
    split
    · exact .exact hnone hz
    · split
      · exact .exact hnone hz
      · exact .rounded hnone hz

/-- The quotient of numbers (R136). -/
theorem opResult_divCase (ha : isNaN f a = false) (t : Tininess) (nan : Word) :
    OpResult f nan a b (numberInvalidType f .div a b) (DividesByZero f .div a b) (divCase f t nan a b) := by
  by_cases hz : DividesByZero f .div a b
  · obtain ⟨-, hfin, hza, hzb⟩ := hz
    obtain ⟨-, hia, -⟩ := finite_cases hfin
    have hinf : ¬ (isInf f a = true ∧ isInf f b = true) := by simp [hia]
    have hnone : numberInvalidType f .div a b = none := (if_neg hinf).trans (if_neg (by simp [hza]))
    rw [divCase_zero_right hfin hza hzb]
    exact .divideByZero hnone ⟨rfl, hfin, hza, hzb⟩
  · unfold divCase
    simp only
    split
    · next h => exact .invalid (if_pos h) hz
    · next hinf =>
      split
      · next h => exact .invalid ((if_neg hinf).trans (if_pos h)) hz
      · next hzeros =>
        have hnone : numberInvalidType f .div a b = none := (if_neg hinf).trans (if_neg hzeros)
        split
        · exact .exact hnone hz
        · next hia =>
          split
          · exact .exact hnone hz
          · split
            · next hzb =>
              have hfin : isFinite f a = true := (isFinite_iff f a).mpr ⟨ha, by simpa using hia⟩
              have hza : isZero f a = false := by simpa [hzb] using hzeros
              exact absurd ⟨rfl, hfin, hza, hzb⟩ hz
            · split
              · exact .exact hnone hz
              · exact .rounded hnone hz

/-- The operation on numbers. -/
theorem opResult_numberCase (ha : isNaN f a = false) (op : FpOp) (t : Tininess) (nan : Word) :
    OpResult f nan a b (numberInvalidType f op a b) (DividesByZero f op a b) (numberCase f t op nan a b) := by
  cases op with
  | add => exact opResult_addCase t nan b nofun rfl
  | sub =>
    obtain ⟨-, -, hinf, -, -, hsign⟩ := flip_classes f b
    refine opResult_addCase t nan (flipSign f b) nofun ?_
    have hne : fpSign f a ≠ !fpSign f b ↔ fpSign f a = fpSign f b := by
      cases fpSign f a <;> cases fpSign f b <;> decide
    rw [hinf, hsign]
    simp only [hne]
    rfl
  | mul => exact opResult_mulCase t nan
  | div => exact opResult_divCase ha t nan

/-- Every result of `FpArith` (R131, R136). -/
theorem opResult_fpArith (t : Tininess) (op : FpOp) (nan : Word) :
    OpResult f nan a b (invalidType f op a b) (DividesByZero f op a b) (fpArith f t op nan a b) := by
  by_cases hs : isSNaN f a = true ∨ isSNaN f b = true
  · have hz : ¬ DividesByZero f op a b := by
      rintro ⟨-, hfin, -, hzb⟩
      obtain ⟨-, -, hsa⟩ := finite_cases hfin
      obtain ⟨hnb, -, -⟩ := zero_excludes hzb
      simp [hsa, snan_false hnb] at hs
    rw [fpArith_snan hs]
    exact .invalid (if_pos hs) hz
  · by_cases hn : isNaN f a = true ∨ isNaN f b = true
    · have hz : ¬ DividesByZero f op a b := by
        rintro ⟨-, hfin, -, hzb⟩
        obtain ⟨hna, -, -⟩ := finite_cases hfin
        obtain ⟨hnb, -, -⟩ := zero_excludes hzb
        simp [hna, hnb] at hn
      rw [fpArith_qnan hs hn]
      exact .exact ((if_neg hs).trans (if_pos hn)) hz
    · obtain ⟨ha, hb⟩ : isNaN f a = false ∧ isNaN f b = false := by simpa using hn
      have hty : invalidType f op a b = numberInvalidType f op a b := (if_neg hs).trans (if_neg hn)
      rw [fpArith_numbers ha hb, hty]
      exact opResult_numberCase ha op t nan

end

/-- An exact result has no kind (R128). -/
theorem kinds_exact (v : Word) (j : Nat) : (FpResult.exact v).kinds.getLsbD j = false := by simp [FpResult.exact]

/-- An invalid operation has kind 0 alone (R133). -/
theorem kinds_invalid (n : Nat) (v : Word) (j : Nat) : (FpResult.invalid n v).kinds.getLsbD j = decide (j = 0) := by
  simp [FpResult.invalid]

/-- A division by zero has kind 3 alone (R134). -/
theorem kinds_divideByZeroResult (f : Fmt) (a b : Word) {j : Nat} (hj : j < 5) :
    (divideByZeroResult f a b).kinds.getLsbD j = decide (j = 3) := by
  have hbits : ∀ j < 5, (kindBit 3 true).getLsbD j = decide (j = 3) := by decide
  exact hbits j hj

section
variable {f : Fmt} {nan a b : Word} {ty : Option Nat} {z : Prop} {r : FpResult} (h : OpResult f nan a b ty z r)
include h

/-- Kind 3 is a division by zero (R134). -/
theorem OpResult.divideByZero_iff : r.kinds.getLsbD 3 = true ↔ z := by
  cases h with
  | invalid _ hz => rw [kinds_invalid]; simp [hz]
  | divideByZero _ hz => rw [kinds_divideByZeroResult f a b (by omega)]; simp [hz]
  | exact _ hz => rw [kinds_exact]; simp [hz]
  | @rounded q _ hz =>
    obtain ⟨-, -, -, -, h3⟩ := bits_kinds q
    rw [h3]
    exact iff_of_false nofun hz

/-- What a division by zero returns (R134). -/
theorem OpResult.eq_divideByZeroResult (hz : z) : r = divideByZeroResult f a b := by
  cases h with
  | divideByZero => rfl
  | invalid _ hnot => exact absurd hz hnot
  | exact _ hnot => exact absurd hz hnot
  | rounded _ hnot => exact absurd hz hnot

/-- A type bit is the type of invalid operation (R133). -/
theorem OpResult.type_iff {j : Nat} (hj : j < 8) : r.types.getLsbD j = true ↔ ty = some j := by
  cases h with
  | @invalid n hty =>
    have hbit : (1#8 <<< n).getLsbD j = true ↔ n = j := by
      rw [BitVec.getLsbD_shiftLeft, decide_eq_true hj]
      simp
      omega
    rw [hty, Option.some_inj]
    exact hbit
  | divideByZero hty => simp [hty, divideByZeroResult]
  | exact hty => simp [hty, FpResult.exact]
  | rounded hty => simp [hty, FpResult.rounded]

/-- Kind 0 is an invalid operation (R133). -/
theorem OpResult.invalid_iff : r.kinds.getLsbD 0 = true ↔ ∃ n, ty = some n := by
  cases h with
  | invalid hty => rw [kinds_invalid, hty]; simp
  | divideByZero hty => rw [kinds_divideByZeroResult f a b (by omega), hty]; simp
  | exact hty => rw [kinds_exact, hty]; simp
  | @rounded q hty =>
    obtain ⟨-, -, -, h0, -⟩ := bits_kinds q
    rw [h0, hty]
    simp

/-- An invalid operation returns the generated NaN (R131). -/
theorem OpResult.bits_of_invalid {n : Nat} (hn : ty = some n) : r.bits = nan := by
  cases h with
  | invalid => rfl
  | divideByZero hty => simp [hty] at hn
  | exact hty => simp [hty] at hn
  | rounded hty => simp [hty] at hn

end

/-- Settles O55: kind 3 of what an operation can return, and infinity divided by zero. -/
theorem divisionByZero : Obligations.DivisionByZero := by
  intro f t op nan a b r
  have hr : OpResult f nan a b (invalidType f op a b) (DividesByZero f op a b) r := opResult_fpArith t op nan
  refine ⟨hr.divideByZero_iff, fun hkind => ?_, fun hop hia hzb => ?_⟩
  · rw [hr.eq_divideByZeroResult (hr.divideByZero_iff.mp hkind)]
    exact ⟨rfl, rfl⟩
  · subst hop
    obtain ⟨hna, -, -⟩ := inf_excludes hia
    obtain ⟨hnb, hib, -⟩ := zero_excludes hzb
    exact (fpArith_numbers hna hnb t .div nan).trans (divCase_inf_left hia hib t nan)

section
variable {f : Fmt} {op : FpOp} {a b : Word}

/-- Which type of invalid operation an operation on numbers is (R133). -/
theorem numberInvalidType_eq_some_iff {n : Nat} : numberInvalidType f op a b = some n ↔
    (n = 1 ∧ (isInf f a = true ∧ isInf f b = true) ∧
      (op = .add ∧ fpSign f a ≠ fpSign f b ∨ op = .sub ∧ fpSign f a = fpSign f b)) ∨
    (n = 2 ∧ op = .div ∧ isInf f a = true ∧ isInf f b = true) ∨
    (n = 3 ∧ op = .div ∧ isZero f a = true ∧ isZero f b = true) ∨
    (n = 4 ∧ op = .mul ∧ (isInf f a = true ∧ isZero f b = true ∨ isZero f a = true ∧ isInf f b = true)) := by
  cases op with
  | add =>
    simp only [numberInvalidType, Option.ite_none_right_eq_some, Option.some_inj, eq_comm (a := 1)]
    simp [and_comm, and_left_comm]
  | sub =>
    simp only [numberInvalidType, Option.ite_none_right_eq_some, Option.some_inj, eq_comm (a := 1)]
    simp [and_comm, and_left_comm]
  | mul =>
    simp only [numberInvalidType, Option.ite_none_right_eq_some, Option.some_inj, eq_comm (a := 4)]
    simp [and_comm]
  | div =>
    by_cases hinf : isInf f a = true ∧ isInf f b = true
    · obtain ⟨-, hzero, -⟩ := inf_excludes hinf.1
      simp [numberInvalidType, hinf, hzero, eq_comm (a := 2)]
    · by_cases hzero : isZero f a = true ∧ isZero f b = true
      · simp [numberInvalidType, hinf, hzero, eq_comm (a := 3)]
      · simp [numberInvalidType, hinf, hzero]

/-- Only a signalling NaN operand makes an operation invalid of type 0 (R131). -/
theorem invalidType_eq_zero_iff : invalidType f op a b = some 0 ↔ isSNaN f a = true ∨ isSNaN f b = true := by
  unfold invalidType
  split
  · next hs => exact iff_of_true rfl hs
  · next hs =>
    refine iff_of_false ?_ hs
    split
    · nofun
    · simp [numberInvalidType_eq_some_iff]

/-- Every other type is one of numbers (R133). -/
theorem invalidType_eq_succ_iff {n : Nat} : invalidType f op a b = some (n + 1) ↔
    (isNaN f a = false ∧ isNaN f b = false) ∧ numberInvalidType f op a b = some (n + 1) := by
  by_cases hn : isNaN f a = true ∨ isNaN f b = true
  · refine iff_of_false ?_ (by simpa using fun ha hb => absurd hn (by simp [ha, hb]))
    unfold invalidType
    split
    · simp
    · simp
  · obtain ⟨ha, hb⟩ : isNaN f a = false ∧ isNaN f b = false := by simpa using hn
    have hs : ¬ (isSNaN f a = true ∨ isSNaN f b = true) := by simp [snan_false ha, snan_false hb]
    rw [invalidType, if_neg hs, if_neg hn]
    simp [ha, hb]

/-- The types that an operation can be invalid of (R133). -/
theorem invalidType_le {n : Nat} (h : invalidType f op a b = some n) : n ≤ 4 := by
  cases n with
  | zero => omega
  | succ n =>
    obtain ⟨-, hnumber⟩ := invalidType_eq_succ_iff.mp h
    rcases numberInvalidType_eq_some_iff.mp hnumber with h | h | h | h <;> omega

end

/-- Kind 0 of an operation comes exactly with a type (R133). -/
theorem fpArith_invalid_iff (f : Fmt) (t : Tininess) (op : FpOp) (nan a b : Word) :
    (fpArith f t op nan a b).kinds.getLsbD 0 = true ↔ (fpArith f t op nan a b).types ≠ 0 := by
  have hr := opResult_fpArith (f := f) (a := a) (b := b) t op nan
  obtain ⟨-, -, hok⟩ := ok_fpArith f t op nan a b
  refine ⟨fun hkind hzero => ?_, hok⟩
  obtain ⟨n, hn⟩ := hr.invalid_iff.mp hkind
  have hn4 := invalidType_le hn
  have hbit := (hr.type_iff (by omega)).mpr hn
  rw [hzero] at hbit
  simp at hbit

/-- A conversion to an integer is an invalid operation, of type 7, exactly if the operand has no integer that fits
(R202, R203). -/
theorem fToI_invalid_iff (f : Fmt) (dir : RoundDir) (free a : Word) :
    ((fToI f dir free a).types = 0 ∨ (fToI f dir free a).types = 0x80) ∧
    ((fToI f dir free a).kinds.getLsbD 0 = true ↔ (fToI f dir free a).types = 0x80) ∧
    ((fToI f dir free a).types = 0x80 ↔ isNaN f a = true ∨ isInf f a = true ∨
      roundInt dir (fpValue f a) f.one < -(2 ^ 63) ∨ 2 ^ 63 - 1 < roundInt dir (fpValue f a) f.one) := by
  unfold fToI
  simp only
  split
  · next h => exact ⟨.inr rfl, iff_of_true (kinds_invalid 7 free 0) rfl, iff_of_true rfl h⟩
  · next h =>
    have hkind : ∀ x, (kindBit 4 x).getLsbD 0 = false := by decide
    exact ⟨.inl rfl, iff_of_false (by rw [hkind]; nofun) nofun, iff_of_false nofun h⟩

/-- Settles O54: each type bit by the type of invalid operation; the conversion by its one test. -/
theorem invalidOperations : Obligations.InvalidOperations := by
  refine ⟨fun f t op nan a b => ?_, fToI_invalid_iff⟩
  have hr := opResult_fpArith (f := f) (a := a) (b := b) t op nan
  have hhigh : ∀ j < 8, 4 < j → (fpArith f t op nan a b).types.getLsbD j = false := fun j hj h4 =>
    Bool.eq_false_iff.mpr fun hbit => absurd (invalidType_le ((hr.type_iff hj).mp hbit)) (by omega)
  have hnumbers : ∀ j < 7, (fpArith f t op nan a b).types.getLsbD (j + 1) = true ↔
      (isNaN f a = false ∧ isNaN f b = false) ∧ numberInvalidType f op a b = some (j + 1) := fun j hj =>
    (hr.type_iff (by omega)).trans invalidType_eq_succ_iff
  refine ⟨(hr.type_iff (by omega)).trans invalidType_eq_zero_iff, ?_, ?_, ?_, ?_, hhigh 5 (by omega) (by omega),
    hhigh 6 (by omega) (by omega), hhigh 7 (by omega) (by omega), fpArith_invalid_iff f t op nan a b, fun hkind => ?_⟩
  · rw [hnumbers 0 (by omega), numberInvalidType_eq_some_iff]
    simp
  · rw [hnumbers 1 (by omega), numberInvalidType_eq_some_iff]
    simp
  · rw [hnumbers 2 (by omega), numberInvalidType_eq_some_iff]
    simp
  · rw [hnumbers 3 (by omega), numberInvalidType_eq_some_iff]
    simp
  · obtain ⟨n, hn⟩ := hr.invalid_iff.mp hkind
    exact hr.bits_of_invalid hn

end Sys2Proof.Machine
end

section
/-! Proofs for the family 41_arithmetic.md: the arithmetic instructions complete; words of the spec's examples. -/

namespace Sys2Proof.Machine

/-! ### Arithmetic -/

/-- Settles O41: the body of each of the eight ends in the shared tail, which completes when no kind that occurs is
enabled and then writes a word that holds the result. -/
theorem arithmeticCompletes : Obligations.ArithmeticCompletes := by
  intro f op p rt ra rb s hp hen
  have hbody : arithBody f op rt ra rb s = finishWith rt (s.resultWord f (s.arithResult f op ra rb).bits)
      (classBits f (s.arithResult f op ra rb).bits) (s.arithResult f op ra rb) s := rfl
  rw [exec_arithInstr]
  exact completes_result hp hbody hen (holds_resultWord s f _)

/-! ### Words of the spec's examples -/

/-- Bytes that encode a well-formed instruction decode to it, in its own length. -/
theorem decode_of_encode {i : Instr} {bytes : List Byte} (hwf : i.wellFormed = true) (h : encode i = bytes) :
    decode bytes = .ok i i.length := by
  rw [← h, ← List.append_nil (encode i)]
  exact decode_encode i hwf []

/-- Settles O5: each word is the encoding of its instruction, which decoding undoes. -/
theorem specWordsDecode : Obligations.SpecWordsDecode :=
  ⟨decode_of_encode rfl rfl, decode_of_encode rfl rfl, decode_of_encode rfl rfl, decode_of_encode rfl rfl,
    decode_of_encode rfl rfl, decode_of_encode rfl rfl, decode_of_encode rfl rfl, decode_of_encode rfl rfl,
    decode_of_encode rfl rfl⟩

end Sys2Proof.Machine
end

section
/-! Proofs for the family 42_sign_move.md: the ten instructions that write a function of the operand's bits. -/

namespace Sys2Proof.Machine

/-- The operands of a well-formed instruction with a target and a source fit their fields (R84, R85). -/
theorem lt_of_fits {p : Pred} {rt ra : Nat} (h : (p.fits && fits6 rt && fits6 ra) = true) :
    (p.pn < 16 ∧ p.pc < 16) ∧ rt < 64 ∧ ra < 64 := by
  simpa [Pred.fits_iff, fits6_iff, and_assoc] using h

/-! ### Move -/

/-- Settles O27: the register written holds what was read. -/
theorem move : Obligations.Move := fun p rt ra s hp =>
  ⟨hasCode_FR2 rfl rfl (by decide) (.inl rfl) lt_of_fits, hasCode_FR2 rfl rfl (by decide) (.inr rfl) lt_of_fits,
    completes_register hp rfl rfl, completes_register hp rfl rfl⟩

/-! ### Sign bit -/

/-- The sign bit inverted, bit by bit (R184, R185). -/
theorem getLsbD_flipSign (f : Fmt) (v : Word) {i : Nat} (hi : i < f.width) :
    (flipSign f v).getLsbD i = if i = f.width - 1 then !v.getLsbD (f.width - 1) else v.getLsbD i := by
  have hmask : ∀ i < f.width, (signMask f).getLsbD i = decide (i = f.width - 1) := by cases f <;> decide
  rw [flipSign, BitVec.getLsbD_xor, hmask i hi]
  split
  · next h => simp [h]
  · next h => simp [h]

/-- The low `k` bits of a word. -/
def lowMask (k : Nat) : Word := BitVec.ofNat 64 (2 ^ k - 1)

theorem getLsbD_lowMask (k : Nat) {i : Nat} (hi : i < 64) : (lowMask k).getLsbD i = decide (i < k) := by
  rw [lowMask, BitVec.getLsbD_ofNat, Nat.testBit_two_pow_sub_one, decide_eq_true hi, Bool.true_and]

/-- The bits below bit `k` kept and bit `k` cleared, which for the sign bit is FABS and FABSS (R186, R187). -/
theorem getLsbD_and_lowMask (v : Word) {k i : Nat} (hi : i < 64) (hk : i ≤ k) :
    (v &&& lowMask k).getLsbD i = if i = k then false else v.getLsbD i := by
  rw [BitVec.getLsbD_and, getLsbD_lowMask k hi]
  split
  · next h => simp [h]
  · next h => simp [show i < k by omega]

/-- Settles O28: FNEG is `flipSign` of a double, and the mask of FABS is every bit below the sign bit, 63. -/
theorem signOfDouble : Obligations.SignOfDouble := fun p rt ra s hp =>
  ⟨hasCode_FR2 rfl rfl (by decide) (.inl rfl) lt_of_fits, hasCode_FR2 rfl rfl (by decide) (.inl rfl) lt_of_fits,
    completes_register hp rfl fun _ hi => getLsbD_flipSign .double _ hi,
    completes_register hp rfl fun _ hi => getLsbD_and_lowMask (k := 63) _ hi (Nat.le_of_lt_succ hi)⟩

/-- Settles O29: as for a double, with sign bit 31, in the low half that the operand and the result of a single share
with their registers. -/
theorem signOfSingle : Obligations.SignOfSingle := fun p rt ra s hp => by
  refine ⟨hasCode_FR2 rfl rfl (by decide) (.inr rfl) lt_of_fits,
    hasCode_FR2 rfl rfl (by decide) (.inr rfl) lt_of_fits,
    completes_register hp rfl fun i hi => ?_, completes_register hp rfl fun i hi => ?_⟩
  · rw [getLsbD_singleResult s _ hi, ← getLsbD_fpOperand_single s ra hi,
      ← getLsbD_fpOperand_single s ra (by decide : 31 < 32)]
    exact getLsbD_flipSign .single _ hi
  · rw [getLsbD_singleResult s _ hi, ← getLsbD_fpOperand_single s ra hi]
    exact getLsbD_and_lowMask (k := 31) _ (by omega) (Nat.le_of_lt_succ hi)

/-! ### Sign of a number -/

/-- For an operand that is no NaN, FSIGN and FSIGNS write the result 0 or `one` with the operand's sign (R188, R189). -/
theorem signOf_number (s : State) {f : Fmt} {a : Word} (one : Word) (h : isNaN f a = false) :
    s.signOf f one a =
      s.resultWord f (if isZero f a then 0 else if fpSign f a then flipSign f one else one) := by
  rw [State.signOf, if_neg (by simp [h]), apply_ite (s.resultWord f), apply_ite (s.resultWord f)]

/-- Settles O30: a double is its own operand and result; of a single the low half decides class and sign, and is what
the result keeps. -/
theorem signNumber : Obligations.SignNumber := fun p rt ra s hp => by
  refine ⟨hasCode_FR2 rfl rfl (by decide) (.inl rfl) lt_of_fits,
    hasCode_FR2 rfl rfl (by decide) (.inr rfl) lt_of_fits,
    completes_register hp rfl fun hnum => ?_, completes_register hp rfl fun hnum => ?_⟩
  · exact signOf_number s _ hnum
  · simp only [State.fpOperand]
    rw [signOf_number s _ ((isNaN_low _).trans hnum), State.resultWord, singleResult_low, isZero_low, fpSign_low,
      apply_ite (BitVec.setWidth 32), apply_ite (BitVec.setWidth 32)]
    rfl

/-! ### Fraction field -/

/-- The low `k` bits of a word, zero extended (R190, R191). -/
theorem zeroExtend_low (v : Word) (k : Nat) : (v.setWidth k).setWidth 64 = v &&& lowMask k := by
  refine BitVec.eq_of_getLsbD_eq fun i hi => ?_
  rw [BitVec.getLsbD_and, getLsbD_lowMask k hi, BitVec.getLsbD_setWidth, BitVec.getLsbD_setWidth, decide_eq_true hi,
    Bool.true_and, Bool.and_comm]

/-- Settles O31: the fraction field is the low 52 bits of a double and the low 23 of a single. -/
theorem mantissa : Obligations.Mantissa := fun p rt ra s hp =>
  ⟨hasCode_FR2 rfl rfl (by decide) (.inl rfl) lt_of_fits, hasCode_FR2 rfl rfl (by decide) (.inr rfl) lt_of_fits,
    completes_register hp rfl (zeroExtend_low _ 52), completes_register hp rfl (zeroExtend_low _ 23)⟩

end Sys2Proof.Machine
end

section
/-! Proofs for the family 43_conversion.md: rounding to an integer, the two conversions, and the four instructions. -/

namespace Sys2Proof.Machine

/-! ### Rounding to an integer -/

/-- A number rounded to nearest even, scaled back, is off by less than a whole step (R201). -/
theorem roundInt_nearestEven_near (n : Int) {d : Nat} (hd : 0 < d) : |roundInt .nearestEven n d * d - n| < d := by
  obtain ⟨hup, hdown⟩ := roundDiv_near (num := n.natAbs) hd
  zify at hup hdown
  rw [roundInt, abs_lt]
  rcases lt_trichotomy n 0 with hn | rfl | hn
  · rw [abs_of_neg hn] at hup hdown
    rw [Int.sign_eq_neg_one_of_neg hn, neg_one_mul, neg_mul]
    constructor <;> omega
  · simpa using hd
  · rw [abs_of_pos hn] at hup hdown
    rw [Int.sign_eq_one_of_pos hn, one_mul]
    constructor <;> omega

/-- The floor, scaled back, is below by less than a whole step (R201). -/
theorem fdiv_near (n : Int) {d : Nat} (hd : 0 < d) : n.fdiv d * d ≤ n ∧ n < n.fdiv d * d + d := by
  have hd' : (0 : Int) < d := by exact_mod_cast hd
  have hceil := Int.lt_ediv_add_one_mul_self n hd'
  rw [Int.fdiv_eq_ediv_of_nonneg n hd'.le]
  exact ⟨Int.ediv_mul_le n hd'.ne', by rwa [add_one_mul] at hceil⟩

/-- In every direction the rounded number is within one of the exact quotient, said of their multiples (R201). -/
theorem roundInt_near (dir : RoundDir) (n : Int) {d : Nat} (hd : 0 < d) : |roundInt dir n d * d - n| < d := by
  have hd' : (0 : Int) < d := by exact_mod_cast hd
  cases dir with
  | towardZero =>
    have hrest : roundInt .towardZero n d * d - n = -(n.tmod d) := by
      rw [roundInt]
      linarith [Int.tdiv_mul_add_tmod n d]
    rw [hrest, abs_neg, abs_lt]
    exact ⟨Int.lt_tmod_of_pos n hd', Int.tmod_lt_of_pos n hd'⟩
  | nearestEven => exact roundInt_nearestEven_near n hd
  | towardNegative =>
    obtain ⟨hle, hlt⟩ := fdiv_near n hd
    rw [roundInt, abs_lt]
    constructor <;> omega
  | towardPositive =>
    obtain ⟨hle, hlt⟩ := fdiv_near (-n) hd
    rw [roundInt, abs_lt, neg_mul]
    constructor <;> omega

/-- In every direction an integer is rounded to itself (R201): no other integer is within one of it. -/
theorem roundInt_mul (dir : RoundDir) (k : Int) {d : Nat} (hd : 0 < d) : roundInt dir (k * d) d = k := by
  have hd' : (0 : Int) < d := by exact_mod_cast hd
  have hnear := roundInt_near dir (k * d) hd
  rw [← sub_mul, abs_mul, abs_of_pos hd'] at hnear
  have hone : |roundInt dir (k * d) d - k| < 1 := lt_of_mul_lt_mul_right (by rwa [one_mul]) hd'.le
  exact sub_eq_zero.mp (Int.abs_lt_one_iff.mp hone)

/-- In every direction the rounded number is within one of the exact quotient (R201). -/
theorem roundInt_within_one (dir : RoundDir) (n : Int) {d : Nat} (hd : 0 < d) :
    |((roundInt dir n d : Int) : ℚ) - (n : ℚ) / (d : ℚ)| < 1 := by
  have hd' : (0 : ℚ) < d := by exact_mod_cast hd
  have hnear : |(roundInt dir n d : ℚ) * d - n| < d := by exact_mod_cast roundInt_near dir n hd
  rwa [sub_div' hd'.ne', abs_div, abs_of_pos hd', div_lt_one hd']

/-- Discarding the fraction does not raise the magnitude (R201). -/
theorem roundInt_towardZero_abs_le (n : Int) {d : Nat} (hd : 0 < d) :
    |((roundInt .towardZero n d : Int) : ℚ)| ≤ |(n : ℚ) / (d : ℚ)| := by
  have hd' : (0 : ℚ) < d := by exact_mod_cast hd
  have hmag : (roundInt .towardZero n d).natAbs * d ≤ n.natAbs := by
    rw [roundInt, Int.natAbs_tdiv, Int.natAbs_natCast]
    exact Nat.div_mul_le_self _ _
  rw [abs_div, abs_of_pos hd', le_div_iff₀ hd', ← Int.cast_abs, ← Int.cast_abs, Int.abs_eq_natAbs, Int.abs_eq_natAbs]
  exact_mod_cast hmag

/-- Settles O57: the two properties hold in each direction, and the default lowers the magnitude. -/
theorem roundIntWithinOne : Obligations.RoundIntWithinOne :=
  ⟨fun dir n _ hd => ⟨roundInt_within_one dir n hd, fun k hn => hn ▸ roundInt_mul dir k hd⟩,
    fun n _ hd => roundInt_towardZero_abs_le n hd, rfl, rfl⟩

/-! ### From a floating-point number to an integer -/

/-- The number one is some units. -/
theorem Fmt.one_pos (f : Fmt) : 0 < f.one := Nat.two_pow_pos _

/-- The value of a pattern is its number of units over the units of one (R124 to R126). -/
theorem realValue_eq_div (f : Fmt) (v : Word) : realValue f v = (fpValue f v : ℚ) / (f.one : ℚ) := by
  rw [eq_div_iff (by exact_mod_cast f.one_pos.ne'), Fmt.one, Nat.cast_pow]
  exact realValue_units f v

/-- Its magnitude likewise. -/
theorem abs_realValue_eq_div (f : Fmt) (v : Word) : |realValue f v| = (fpMag f v : ℚ) / (f.one : ℚ) := by
  rw [eq_div_iff (by exact_mod_cast f.one_pos.ne'), Fmt.one, Nat.cast_pow]
  exact realValue_abs f v

/-- `FToI` where the rounded value fits 64 bits (R202). -/
theorem fToI_of_fits {f : Fmt} {dir : RoundDir} {a : Word} {n : Int} (hfin : isFinite f a = true)
    (hn : roundInt dir (fpValue f a) f.one = n) (hlow : -(2 ^ 63) ≤ n) (hhigh : n ≤ 2 ^ 63 - 1) (free : Word) :
    fToI f dir free a = ⟨BitVec.ofInt 64 n, kindBit 4 (decide (n * f.one ≠ fpValue f a)), 0,
      decide (n * f.one ≠ fpValue f a), decide (fpMag f a < n.natAbs * f.one)⟩ := by
  subst hn
  obtain ⟨hnan, hinf, -⟩ := finite_cases hfin
  exact if_neg (by simp only [hnan, hinf, Bool.false_eq_true, false_or]; omega)

/-- An integer is the value of a pattern exactly if it is so in units (R128). -/
theorem int_eq_realValue_iff (f : Fmt) (n : Int) (v : Word) : (n : ℚ) = realValue f v ↔ n * f.one = fpValue f v := by
  rw [realValue_eq_div, eq_div_iff (by exact_mod_cast f.one_pos.ne')]
  exact_mod_cast Iff.rfl

/-- An integer is greater in magnitude than a pattern's value exactly if it is so in units (R128). -/
theorem abs_realValue_lt_int_iff (f : Fmt) (n : Int) (v : Word) :
    |realValue f v| < |(n : ℚ)| ↔ fpMag f v < n.natAbs * f.one := by
  rw [abs_realValue_eq_div, div_lt_iff₀ (by exact_mod_cast f.one_pos), ← Int.cast_abs, Int.abs_eq_natAbs]
  exact_mod_cast Iff.rfl

/-- The inexact kind alone, as a number (R16). -/
theorem kindBit_inexact (b : Bool) : kindBit 4 b = if b then 16 else 0 := by cases b <;> rfl

/-- Settles O58: the conversion is possible, and its comparisons in units are those of the values. -/
theorem floatToIntegerResult : Obligations.FloatToIntegerResult := by
  intro f dir free a hfin n hhigh hlow r
  have hr : r = _ := fToI_of_fits hfin rfl hlow hhigh free
  have hbits : (BitVec.ofInt 64 n).toInt = n := BitVec.toInt_ofInt_eq_self (by decide) (by omega) (by omega)
  have hwithin : |(n : ℚ) - realValue f a| < 1 := by
    rw [realValue_eq_div]
    exact roundInt_within_one dir (fpValue f a) f.one_pos
  rw [hr]
  exact ⟨hbits, hwithin, decide_eq_true_iff.trans (not_congr (int_eq_realValue_iff f n a).symm),
    decide_eq_true_iff.trans (abs_realValue_lt_int_iff f n a).symm, kindBit_inexact _, rfl⟩

/-! ### From an integer to a floating-point number -/

/-- The conversion of zero (R207). -/
theorem iToF_zero {a : Word} (h : a.toInt = 0) (f : Fmt) (t : Tininess) : iToF f t a = .exact (fpZero f false) :=
  if_pos h

/-- What `Round` makes of an integer, given in units. -/
def roundedInt (f : Fmt) (t : Tininess) (n : Int) : Rounded := fpRound f t (decide (n < 0)) (n.natAbs * f.one) 1

/-- The conversion of any other integer (R207). -/
theorem iToF_nonzero {a : Word} (h : a.toInt ≠ 0) (f : Fmt) (t : Tininess) :
    iToF f t a = ⟨(roundedInt f t a.toInt).bits, kindBit 4 (roundedInt f t a.toInt).inexact, 0,
      (roundedInt f t a.toInt).inexact, (roundedInt f t a.toInt).away⟩ := if_neg h

/-- An integer in units. -/
theorem inUnits_int (f : Fmt) (n : Int) : InUnits f (decide (n < 0)) (n.natAbs * f.one) 1 n := by
  have hsign : (n : ℚ) = (if decide (n < 0) then -1 else 1) * (n.natAbs : ℚ) := by
    rw [Nat.cast_natAbs, Int.cast_abs]
    by_cases hneg : n < 0
    · rw [if_pos (decide_eq_true hneg), abs_of_neg (by exact_mod_cast hneg), neg_one_mul, neg_neg]
    · rw [if_neg (by simpa using hneg), abs_of_nonneg (by exact_mod_cast not_lt.mp hneg), one_mul]
  rw [InUnits, Nat.cast_one, div_one, Nat.cast_mul, Fmt.one, Nat.cast_pow, Nat.cast_ofNat, ← mul_assoc,
    ← hsign]

/-- Any integer but zero is correctly rounded (R129). -/
theorem roundedInt_correct (f : Fmt) (t : Tininess) {n : Int} (hn : n ≠ 0) :
    CorrectlyRounded f t n (roundedInt f t n) :=
  (inUnits_int f n).correctlyRounded t (Nat.mul_pos (Int.natAbs_pos.mpr hn) f.one_pos) Nat.one_pos

/-- A tiny value is below one (R129). -/
theorem abs_lt_one_of_tiny {f : Fmt} {t : Tininess} {e : ℚ} (h : Tiny f t e) : |e| < 1 := by
  have hmin : (2 : ℚ) ^ f.emin ≤ 1 := zpow_le_one_of_nonpos₀ (by norm_num) (by cases f <;> decide)
  cases t with
  | beforeRounding => exact lt_of_lt_of_le h hmin
  | afterRounding =>
    refine lt_of_lt_of_le h (mul_le_one₀ ?_ (by positivity) hmin)
    rw [sub_le_self_iff]
    positivity

/-- A signed 64-bit integer is far below overflow (R126). -/
theorem abs_toInt_lt_overflowAt (f : Fmt) (a : Word) : |(a.toInt : ℚ)| < f.overflowAt := by
  have hbound : |(a.toInt : ℚ)| ≤ 2 ^ 63 := by
    have hlow := BitVec.le_toInt a
    have hhigh := BitVec.toInt_lt (x := a)
    have hint : |a.toInt| ≤ 2 ^ 63 := abs_le.mpr ⟨by omega, by omega⟩
    exact_mod_cast hint
  have hmax : (2 : ℚ) ^ 63 < 2 ^ f.emax := by
    rw [← zpow_natCast, zpow_lt_zpow_iff_right₀ (by norm_num)]
    cases f <;> decide
  have hfactor : (1 : ℚ) ≤ 2 - 1 / 2 ^ f.prec := by
    have : (1 : ℚ) / 2 ^ f.prec ≤ 1 := div_le_one_of_le₀ (one_le_pow₀ (by norm_num)) (by positivity)
    linarith
  exact (hbound.trans_lt hmax).trans_le (le_mul_of_one_le_left (by positivity) hfactor)

/-- Rounding an integer neither overflows nor underflows (R207): its magnitude is below the one
threshold and above the other. -/
theorem roundedInt_no_overflow_underflow (f : Fmt) (t : Tininess) {a : Word} (ha : a.toInt ≠ 0) :
    (⟨(roundedInt f t a.toInt).bits, (roundedInt f t a.toInt).inexact, (roundedInt f t a.toInt).away, false, false⟩ :
      Rounded) = roundedInt f t a.toInt := by
  obtain ⟨-, hover, hunder, -⟩ := roundedInt_correct f t ha
  have hone : (1 : ℚ) ≤ |(a.toInt : ℚ)| := by exact_mod_cast Int.one_le_abs ha
  have hnover : (roundedInt f t a.toInt).overflow = false :=
    Bool.eq_false_iff.mpr fun h => (abs_toInt_lt_overflowAt f a).not_ge (hover.mp h)
  have hnunder : (roundedInt f t a.toInt).underflow = false :=
    Bool.eq_false_iff.mpr fun h => hone.not_gt (abs_lt_one_of_tiny (hunder.mp h).1)
  exact congrArg₂ (Rounded.mk _ _ _) hnover.symm hnunder.symm

/-- Settles O59: zero, and any other integer as `Round` gives it, whose overflow and underflow are false. -/
theorem integerToFloatCorrectlyRounded : Obligations.IntegerToFloatCorrectlyRounded := by
  intro f t a r
  by_cases ha : a.toInt = 0
  · have hr : r = _ := iToF_zero ha f t
    rw [hr]
    exact ⟨fun _ => rfl, fun hne => absurd ha hne, rfl, rfl⟩
  · have hr : r = _ := iToF_nonzero ha f t
    rw [hr]
    refine ⟨fun hzero => absurd hzero ha, fun _ => ?_, kindBit_inexact _, rfl⟩
    rw [roundedInt_no_overflow_underflow f t ha]
    exact roundedInt_correct f t ha

/-! ### There and back -/

/-- An integer of at most `p` bits is a magnitude the format can hold (R126). -/
theorem representable_int {f : Fmt} {m : Nat} (h : m ≤ 2 ^ f.prec) : Representable f (m * f.one) := by
  have hprec : f.prec = f.fracBits + 1 := by cases f <;> rfl
  refine ⟨?_, ?_⟩
  · calc m * f.one ≤ 2 ^ f.prec * f.one := Nat.mul_le_mul_right _ h
      _ = 2 ^ (f.prec + f.unitExp) := (Nat.pow_add ..).symm
      _ < f.overflowMag := Nat.pow_lt_pow_right (by decide) (by cases f <;> decide)
  · rw [hprec] at h
    rcases h.lt_or_eq with hlt | rfl
    · exact ⟨m, f.unitExp, hlt, rfl⟩
    · refine ⟨2 ^ f.fracBits, f.unitExp + 1, Nat.pow_lt_pow_right (by decide) (by omega), ?_⟩
      rw [Fmt.one, ← Nat.pow_add, ← Nat.pow_add, Nat.add_right_comm, Nat.add_assoc]

/-- An integer of at most `p` bits is converted exactly, to a finite number of that many units (R207, R208). -/
theorem iToF_exact (f : Fmt) (t : Tininess) {a : Word} (h : a.toInt.natAbs ≤ 2 ^ f.prec) :
    ∃ v, iToF f t a = .exact v ∧ isFinite f v = true ∧ fpValue f v = a.toInt * f.one := by
  by_cases ha : a.toInt = 0
  · have hzero := isZero_fpZero f false
    obtain ⟨-, -, hfin⟩ := zero_excludes hzero
    exact ⟨_, iToF_zero ha f t, hfin, by rw [(value_zero_iff f _).mpr hzero, ha, zero_mul]⟩
  · have hrep := representable_int h
    have hmag : roundedMag f (a.toInt.natAbs * f.one) 1 = a.toInt.natAbs * f.one := by
      simpa using roundedMag_of_representable hrep Nat.one_pos
    have hround : roundedInt f t a.toInt =
        ⟨fpOfMag f (decide (a.toInt < 0)) (a.toInt.natAbs * f.one), false, false, false, false⟩ := by
      rw [roundedInt, fpRound_in_range (by rw [hmag]; exact hrep.1), hmag]
      simp
    obtain ⟨hsign, hfin, hunits⟩ := fpOfMag_spec (decide (a.toInt < 0)) hrep
    refine ⟨_, by rw [iToF_nonzero ha, hround]; rfl, hfin, ?_⟩
    rw [fpValue, hsign, hunits, Nat.cast_mul, ← neg_mul]
    by_cases hneg : a.toInt < 0
    · rw [if_pos (decide_eq_true hneg), Int.ofNat_natAbs_of_nonpos hneg.le, neg_neg]
    · rw [if_neg (by simpa using hneg), Int.natAbs_of_nonneg (not_lt.mp hneg)]

/-- A pattern whose value is a 64-bit integer is converted to it, exactly and in every direction (R203). -/
theorem fToI_int {f : Fmt} {v a : Word} (hfin : isFinite f v = true) (hvalue : fpValue f v = a.toInt * f.one)
    (dir : RoundDir) (free : Word) : fToI f dir free v = .exact a := by
  have hn : roundInt dir (fpValue f v) f.one = a.toInt := by rw [hvalue, roundInt_mul dir _ f.one_pos]
  have hlow := BitVec.le_toInt a
  have hhigh := BitVec.toInt_lt (x := a)
  have hmag : fpMag f v = a.toInt.natAbs * f.one := by
    have habs : (fpValue f v).natAbs = fpMag f v := by
      rw [fpValue]
      split <;> simp
    rw [← habs, hvalue, Int.natAbs_mul, Int.natAbs_natCast]
  rw [fToI_of_fits hfin hn (by omega) (by omega), hvalue, hmag, BitVec.ofInt_toInt]
  simp [kindBit, FpResult.exact]

/-- Settles O60: the first conversion is exact, so the second finds the integer's own units. -/
theorem integerRoundTrip : Obligations.IntegerRoundTrip := by
  intro f t dir free a h
  obtain ⟨v, hv, hfin, hvalue⟩ := iToF_exact f t h
  rw [hv]
  exact ⟨rfl, fToI_int hfin hvalue dir free⟩

/-! ### The instructions -/

/-- A conversion from an integer that is exact, or whose inexact kind is not enabled, signals no enabled kind (R207). -/
theorem not_enabledKind_iToF {s : State} {f : Fmt} {t : Tininess} {a : Word}
    (h : ¬ ((iToF f t a).inexact = true ∧ s.fpscr.getLsbD 28 = true)) : ¬ s.EnabledKind (iToF f t a).kinds :=
  fun hen => h (enabledKind_iToF hen)

/-- Settles O43: the body of each ends in the shared tail, and only an enabled inexact kind could stop it. -/
theorem integerToFloatCompletes : Obligations.IntegerToFloatCompletes := fun p rt ra s hp =>
  ⟨⟨hasCode_FR2 rfl rfl (by decide) (.inl rfl) lt_of_fits, fun h =>
      completes_result (body := itofBody .double rt ra) hp rfl (not_enabledKind_iToF h) rfl⟩,
    ⟨hasCode_FR2 rfl rfl (by decide) (.inr rfl) lt_of_fits, fun h =>
      completes_result (body := itofBody .single rt ra) hp rfl (not_enabledKind_iToF h) (singleResult_low s _)⟩⟩

/-- What FTOI and FTOIS convert, in a state (R202, R204). -/
def State.ftoiResult (s : State) (f : Fmt) (ra : Nat) : FpResult :=
  fToI f s.params.ftoiRound (Config.freeInteger s.draws) (s.fpOperand f ra)

/-- The conversion to an integer ends in the shared tail, the whole integer written and the class bits free (R204). -/
theorem ftoiBody_completes {p : Pred} {f : Fmt} {rt ra : Nat} {s : State} (hp : s.predTrue p = true)
    (hen : ¬ s.EnabledKind (s.ftoiResult f ra).kinds) :
    ∃ t cls, predicated p 4 (ftoiBody f rt ra) s = .next t ∧
      s.WritesResult t 4 rt (fun w => w = (s.ftoiResult f ra).bits) cls (s.ftoiResult f ra) := by
  have hbody : ftoiBody f rt ra s =
      finishWith rt (s.ftoiResult f ra).bits (Config.freeClass s.draws) (s.ftoiResult f ra) s := rfl
  obtain ⟨t, hexec, hwrites⟩ := completes_result (P := fun w => w = (s.ftoiResult f ra).bits) hp hbody hen rfl
  exact ⟨t, _, hexec, hwrites⟩

/-- Settles O44: `ftoiBody_completes` in each format. -/
theorem floatToIntegerCompletes : Obligations.FloatToIntegerCompletes := fun _ _ _ _ hp =>
  ⟨⟨hasCode_FR2 rfl rfl (by decide) (.inl rfl) lt_of_fits, ftoiBody_completes hp⟩,
    ⟨hasCode_FR2 rfl rfl (by decide) (.inr rfl) lt_of_fits, ftoiBody_completes hp⟩⟩

end Sys2Proof.Machine
end

section
/-! Proofs for the family 44_compare.md: what a comparison says of the values, and the four instructions. -/

namespace Sys2Proof.Machine

/-! ### The flags of a comparison -/

/-- Two operands are unordered when either is a NaN (R224). -/
theorem fpCompare_un_iff (f : Fmt) (a b : Word) :
    (fpCompare f a b).un = true ↔ isNaN f a = true ∨ isNaN f b = true := by
  rw [fpCompare, Bool.or_eq_true]

/-- `lt` is the order of the values (R221, R225). -/
theorem fpCompare_lt_iff (f : Fmt) (a b : Word) :
    (fpCompare f a b).lt = true ↔ (fpCompare f a b).un = false ∧ extended f a < extended f b := by
  simp only [fpCompare, Bool.and_eq_true, Bool.not_eq_true', less_iff_extended]

/-- `ltu` is the order of the values with both signs cleared (R222, R225). -/
theorem fpCompare_ltu_iff (f : Fmt) (a b : Word) :
    (fpCompare f a b).ltu = true ↔
      (fpCompare f a b).un = false ∧ extended f (a &&& ~~~signMask f) < extended f (b &&& ~~~signMask f) := by
  simp only [fpCompare, Bool.and_eq_true, Bool.not_eq_true', extMag_eq, less_iff_extended]

/-- `eq` is the equality of the values (R223, R225). -/
theorem fpCompare_eq_iff (f : Fmt) (a b : Word) :
    (fpCompare f a b).eq = true ↔ (fpCompare f a b).un = false ∧ extended f a = extended f b := by
  simp only [fpCompare, Bool.and_eq_true, Bool.not_eq_true', decide_eq_true_eq, eq_iff_extended]

/-- None of `lt`, `eq` and `un` is true exactly when the first value is above the second: the line is totally ordered
(R226). -/
theorem fpCompare_none_iff (f : Fmt) (a b : Word) :
    (fpCompare f a b).lt = false ∧ (fpCompare f a b).eq = false ∧ (fpCompare f a b).un = false ↔
      isNaN f a = false ∧ isNaN f b = false ∧ extended f b < extended f a := by
  have hun : (fpCompare f a b).un = false ↔ isNaN f a = false ∧ isNaN f b = false := Bool.or_eq_false_iff
  rw [← and_assoc (a := isNaN f a = false), ← hun, ← Bool.not_eq_true, ← Bool.not_eq_true, fpCompare_lt_iff,
    fpCompare_eq_iff]
  constructor
  · rintro ⟨hlt, heq, hord⟩
    exact ⟨hord, lt_of_le_of_ne (not_lt.mp fun h => hlt ⟨hord, h⟩) fun h => heq ⟨hord, h.symm⟩⟩
  · rintro ⟨hord, habove⟩
    exact ⟨fun h => lt_asymm h.2 habove, fun h => habove.ne' h.2, hord⟩

/-- A value is not both below another and equal to it (R226). -/
theorem fpCompare_not_lt_and_eq (f : Fmt) (a b : Word) :
    ¬ ((fpCompare f a b).lt = true ∧ (fpCompare f a b).eq = true) := by
  rw [fpCompare_lt_iff, fpCompare_eq_iff]
  rintro ⟨⟨-, hlt⟩, -, heq⟩
  exact hlt.ne heq

/-! ### The flags of a test -/

/-- The pattern 0 is the number zero (R124, R125). -/
theorem extValue_zero (f : Fmt) : extValue f 0 = .finite 0 := by cases f <;> decide

/-- The zeros are the patterns whose magnitude is 0 (R124, R125). -/
theorem isZero_iff_fpMag (f : Fmt) (a : Word) : isZero f a = true ↔ fpMag f a = 0 := by
  rw [isZero, decide_eq_true_iff, fpMag]
  split
  · next h => simp [h]
  · next h => simp [h]

/-- The patterns of the value zero are the zeros of either sign (R223, R230). -/
theorem extValue_eq_zero_iff (f : Fmt) (a : Word) : extValue f a = .finite 0 ↔ isZero f a = true := by
  by_cases hinf : isInf f a = true
  · obtain ⟨-, hzero, -⟩ := inf_excludes hinf
    rw [extValue, if_pos hinf, hzero]
    split <;> simp
  · rw [extValue, if_neg hinf, ExtValue.finite.injEq, isZero_iff_fpMag, fpValue]
    split <;> omega

/-- A test's `lt` is the order of the value and zero (R230). -/
theorem fpTest_lt_iff (f : Fmt) (a : Word) :
    (fpTest f a).lt = true ↔ (fpTest f a).un = false ∧ extended f a < extended f 0 := by
  rw [← less_iff_extended, extValue_zero]
  simp only [fpTest, Bool.and_eq_true, Bool.not_eq_true']

/-- A test's `eq` is the equality of the value and zero, which no NaN is (R230). -/
theorem fpTest_eq_iff (f : Fmt) (a : Word) :
    (fpTest f a).eq = true ↔ (fpTest f a).un = false ∧ extended f a = extended f 0 := by
  rw [← eq_iff_extended, extValue_zero, extValue_eq_zero_iff]
  exact ⟨fun h => ⟨(zero_excludes h).1, h⟩, And.right⟩

/-- Settles O34: each flag by its lemma. -/
theorem compareOutcomes : Obligations.CompareOutcomes :=
  ⟨fun f a b => ⟨fpCompare_un_iff f a b, fpCompare_lt_iff f a b, fpCompare_ltu_iff f a b, fpCompare_eq_iff f a b,
      fpCompare_none_iff f a b, fpCompare_not_lt_and_eq f a b⟩,
    fun f a => ⟨rfl, fpTest_lt_iff f a, fpTest_eq_iff f a, rfl⟩⟩

/-! ### The encodings -/

/-- Length, opcode byte and function code of a compare, format FC32 (R88). -/
theorem hasCode_FC32 {i : Instr} {p : Pred} {fn pt ra rb : Nat} (hi : encodeWord i = encodeFC32 p fn pt ra rb)
    (hl : i.length = 4) (hfn : fn < 16)
    (hw : i.wellFormed = (p.fits && fits4 pt && fits6 ra && fits6 rb)) : Instr.HasCode i 4 (0x10 + pt) fn := by
  intro h
  simp only [hw, Bool.and_eq_true, Pred.fits_iff, fits4_iff, fits6_iff] at h
  obtain ⟨⟨⟨hp, ht⟩, ha⟩, hb⟩ := h
  obtain ⟨-, -, -, hop, -, -, -, hcode⟩ := fields_FC32 hp hfn ht ha hb
  rw [hi, functionCode_compare (by omega)]
  exact ⟨hl, hop, hcode⟩

/-- Length, opcode byte and function code of a test, format FT24 (R87). -/
theorem hasCode_FT24 {i : Instr} {p : Pred} {fn pt ra : Nat} (hi : encodeWord i = encodeFT24 p fn pt ra)
    (hl : i.length = 3) (hfn : fn < 4) (hw : i.wellFormed = (p.fits && fits4 pt && fits6 ra)) :
    Instr.HasCode i 3 pt fn := by
  intro h
  simp only [hw, Bool.and_eq_true, Pred.fits_iff, fits4_iff, fits6_iff] at h
  obtain ⟨⟨hp, ht⟩, ha⟩ := h
  obtain ⟨-, -, -, hop, -, -, hcode⟩ := fields_FT24 hp hfn ht ha
  rw [hi, functionCode_test (by omega)]
  exact ⟨hl, hop, hcode⟩

/-! ### The instructions -/

/-- Settles O32: the body writes what `fpCompare` gives for the two operands. -/
theorem compareInstructions : Obligations.CompareInstructions := fun _ _ _ _ _ hp =>
  ⟨hasCode_FC32 rfl rfl (by decide) rfl, hasCode_FC32 rfl rfl (by decide) rfl,
    completes_predicate hp rfl, completes_predicate hp rfl⟩

/-- The flags of a test by class and sign (R230). -/
theorem fpTest_eq_classes (f : Fmt) (a : Word) :
    fpTest f a =
      { lt := !isNaN f a && !isZero f a && fpSign f a, ltu := false, eq := isZero f a, un := isNaN f a } := by
  rw [fpTest, less_zero, Bool.and_assoc]

/-- Class and sign of a single are those of its register's low half (R231). -/
theorem fpTest_single_low (v : Word) :
    fpTest .single (v.setWidth 32 |>.setWidth 64) =
      { lt := !isNaN .single v && !isZero .single v && v.getLsbD 31
        ltu := false
        eq := isZero .single v
        un := isNaN .single v } := by
  rw [fpTest_eq_classes, isNaN_low, isZero_low, fpSign_low]

/-- A test completes with whatever flags its operand has (R220, R230). -/
theorem completes_test {p : Pred} {f : Fmt} {pt ra : Nat} {c : PredFlags} {s : State} (hp : s.predTrue p = true)
    (hc : fpTest f (s.fpOperand f ra) = c) :
    ∃ t, predicated p 3 (testBody f pt ra) s = .next t ∧ s.WritesPredicate t 3 pt c :=
  hc ▸ completes_predicate hp rfl

/-- Settles O33: the flags by class and sign, which for a single the low half decides. -/
theorem testInstructions : Obligations.TestInstructions := fun _ _ ra s hp =>
  ⟨hasCode_FT24 rfl rfl (by decide) rfl, hasCode_FT24 rfl rfl (by decide) rfl,
    completes_test hp (fpTest_eq_classes .double (s.readX ra)), completes_test hp (fpTest_single_low (s.readX ra))⟩

end Sys2Proof.Machine
end

section
/-! Proofs for the family 45_control_status.md: the six instructions that read and write FPSCR. -/

namespace Sys2Proof.Machine

/-! ### Encodings and fields -/

/-- Length, opcode byte and function code of an instruction of format FI, which has the immediate where FR2 has the
target (R90). -/
theorem hasCode_FI {i : Instr} {p : Pred} {op fn ra imm : Nat} (hi : encodeWord i = encodeFR2 p op fn imm ra)
    (hl : i.length = 4) (hfn : fn < 16) (hop : op = 0x77 ∨ op = 0x79)
    (hw : i.wellFormed = (p.fits && fits6 ra && fits6 imm)) : Instr.HasCode i 4 op fn :=
  hasCode_FR2 hi hl hfn hop fun h => (lt_of_fits (hw.symm.trans h)).imp_right And.symm

/-- A field update by a field whose bits are known, bit by bit: bit `i` of the field is `m i`. -/
theorem getLsbD_setField_of_bits {v : FpscrWord} {lo n : Nat} {x : BitVec n} {m : Nat → Bool} (hn : lo + n ≤ 32)
    (hx : ∀ j < n, x.getLsbD j = m (lo + j)) (i : Nat) :
    (setField v lo x).getLsbD i = if lo ≤ i ∧ i < lo + n then m i else v.getLsbD i := by
  rw [getLsbD_setField v lo n x hn]
  split
  · next hin => rw [hx (i - lo) (by omega), Nat.add_sub_cancel' hin.1]
  · rfl

/-! ### FRM and FSTAT -/

/-- Settles O35: RM is the topmost field, and its three bits are bits 2:0 of the operand. -/
theorem setRoundingMode : Obligations.SetRoundingMode := fun p ra imm s hp => by
  refine ⟨hasCode_FI rfl rfl (by decide) (.inl rfl) rfl, completes_fpscr hp rfl fun i hi => ?_⟩
  rw [getLsbD_setField_of_bits (m := fun i => s.maskBit ra imm (i - 29)) (by decide) fun j hj => ?_]
  · exact if_congr (by omega) rfl rfl
  · rw [BitVec.getLsbD_setWidth, decide_eq_true hj, Bool.true_and, getLsbD_orOperand s ra imm (by omega),
      Nat.add_sub_cancel_left]

/-- Settles O36: the word written is `fpscrRead`, of which bit 15 alone is free. -/
theorem readStatus : Obligations.ReadStatus := fun p rt s hp => by
  refine ⟨hasCode_FR2 rfl rfl (by decide) (.inl rfl) fun h => lt_of_fits (Bool.and_eq_true_iff.mpr ⟨h, rfl⟩),
    completes_register hp rfl fun i hi h15 => ?_⟩
  rw [BitVec.getLsbD_setWidth, decide_eq_true hi, Bool.true_and, getLsbD_fpscrRead, if_neg h15]
  rfl

/-! ### FTX -/

/-- A mask names an enabled kind (R146, R241). -/
theorem enabledOf_maskKinds_ne_zero_iff (s : State) (ra imm : Nat) :
    enabledOf (maskKinds (s.maskOperand ra imm)) s.fpscr ≠ 0 ↔
      ∃ k < 5, s.maskBit ra imm k = true ∧ s.fpscr.getLsbD (24 + k) = true :=
  (enabledOf_ne_zero_iff _ _).trans <| exists_congr fun k => and_congr_right fun hk => by
    rw [getLsbD_maskKinds s ra imm hk]

/-- A mask names no kind exactly if its bits 4:0 are clear (R241). -/
theorem maskKinds_eq_zero_iff (s : State) (ra imm : Nat) :
    maskKinds (s.maskOperand ra imm) = 0 ↔ ∀ k < 5, s.maskBit ra imm k = false := by
  constructor
  · intro hzero k hk
    rw [← getLsbD_maskKinds s ra imm hk, hzero, BitVec.ofNat_eq_ofNat, BitVec.getLsbD_zero]
  · intro hclear
    refine BitVec.eq_of_getLsbD_eq fun k hk => ?_
    rw [getLsbD_maskKinds s ra imm hk, hclear k hk, BitVec.ofNat_eq_ofNat, BitVec.getLsbD_zero]

/-- A mask names some kind, as a disjunction of its bits 4:0 (R241). -/
theorem decide_maskKinds_ne_zero (s : State) (ra imm : Nat) :
    decide (maskKinds (s.maskOperand ra imm) ≠ 0) = (List.range 5).any (s.maskBit ra imm) := by
  rw [Bool.eq_iff_iff, decide_eq_true_iff, Ne, maskKinds_eq_zero_iff]
  simp

/-- Where no kind that occurred is enabled, recording writes X1 to X5 and SX alone (R146). -/
theorem getLsbD_recordKinds_disabled {k : Kinds} {v : FpscrWord} (h : enabledOf k v = 0) (pol : GxPolicy) (i : Nat) :
    (recordKinds pol k v).getLsbD i =
      if 10 ≤ i ∧ i < 15 then v.getLsbD i || k.getLsbD (i - 10)
      else if i = 8 then v.getLsbD i || decide (k ≠ 0)
      else v.getLsbD i := by
  rw [getLsbD_recordKinds]
  simp [h]

/-- Settles O37: no kind signalled is enabled, so that signalling completes and GX stays. -/
theorem triggerCompletes : Obligations.TriggerCompletes := fun p ra imm s hp hdis => by
  have hen : enabledOf (maskKinds (s.maskOperand ra imm)) s.fpscr = 0 := by
    by_contra h
    obtain ⟨k, hk, hnamed, henabled⟩ := (enabledOf_maskKinds_ne_zero_iff s ra imm).mp h
    simp [hdis k hk hnamed] at henabled
  refine ⟨hasCode_FI rfl rfl (by decide) (.inr rfl) rfl, completes_fpscr hp (signal_disabled hen) fun i hi => ?_⟩
  rw [getLsbD_recordKinds_disabled hen]
  split
  · rw [getLsbD_maskKinds s ra imm (by omega)]
  · split
    · next h8 => rw [h8, decide_maskKinds_ne_zero]
    · rfl

/-- Settles O38: some kind signalled is enabled, so that signalling faults, in the state with the kinds recorded. -/
theorem triggerRaises : Obligations.TriggerRaises := fun p ra imm s hp hraise => by
  have hen := (enabledOf_maskKinds_ne_zero_iff s ra imm).mpr hraise
  have hexec : exec (.ftx p ra imm) s =
      advanceNext 4 (signal (maskKinds (s.maskOperand ra imm)) s) := predicated_true hp
  rw [signal_enabled hen] at hexec
  exact ⟨_, fun j hj => getLsbD_maskKinds s ra imm hj, _, _, hexec, fun j hj => getLsbD_enabledOf _ _ hj, hen, rfl,
    fun _ => rfl, rfl, fun _ => rfl, fun _ _ => rfl, fun j _ => getLsbD_recordKinds_signalBit _ _ _ j⟩

/-! ### FCX, FEX and FDX -/

/-- Settles O39: the bits `clearKinds` clears, by the bits of the mask. -/
theorem clearExceptions : Obligations.ClearExceptions := fun p ra imm s hp => by
  refine ⟨hasCode_FI rfl rfl (by decide) (.inr rfl) rfl, completes_fpscr hp rfl fun i hi => ?_⟩
  rw [getLsbD_clearKinds, getLsbD_maskOperand s ra imm (by decide : 5 < 6),
    getLsbD_maskOperand s ra imm (by decide : 0 < 6)]
  split
  · rw [getLsbD_maskOperand s ra imm (by omega)]
  · by_cases h8 : i = 8
    · rw [if_pos h8, if_neg (by omega), if_pos h8]
    · rw [if_neg h8, if_neg h8]
      exact if_congr (by omega) rfl rfl

/-- Settles O40: the enables are bits 28:24, and the field written into them is theirs with the kinds of the mask set or
cleared. -/
theorem enableAndDisable : Obligations.EnableAndDisable := fun p ra imm s hp => by
  refine ⟨hasCode_FI rfl rfl (by decide) (.inr rfl) rfl, hasCode_FI rfl rfl (by decide) (.inr rfl) rfl,
    completes_fpscr hp rfl fun i _ =>
      getLsbD_setField_of_bits (m := fun i => s.fpscr.getLsbD i || s.maskBit ra imm (i - 24)) (by decide)
        (fun j hj => ?_) i,
    completes_fpscr hp rfl fun i _ =>
      getLsbD_setField_of_bits (m := fun i => s.fpscr.getLsbD i && !s.maskBit ra imm (i - 24)) (by decide)
        (fun j hj => ?_) i⟩
  · rw [BitVec.getLsbD_or, getLsbD_enables, decide_eq_true hj, Bool.true_and, getLsbD_maskKinds s ra imm hj,
      Nat.add_sub_cancel_left]
  · rw [BitVec.getLsbD_and, BitVec.getLsbD_not, getLsbD_enables, decide_eq_true hj, Bool.true_and, Bool.true_and,
      getLsbD_maskKinds s ra imm hj, Nat.add_sub_cancel_left]

end Sys2Proof.Machine
end

section
/-! Proofs for the family 46_fmac_planned.md: the eight instructions complete; what `FMacOp` returns for numbers. -/

namespace Sys2Proof.Machine

/-! ### The instructions -/

/-- Settles O42: the body of each of the eight ends in the shared tail, which completes when no kind that occurs is
enabled and then writes a word that holds the result. -/
theorem macCompletes : Obligations.MacCompletes := by
  intro f subc negr p rt ra rb rc s himp hp hen
  have hbody : macBody f subc negr rt ra rb rc s =
      finishWith rt (s.resultWord f (s.macResult f subc negr ra rb rc).bits)
        (classBits f (s.macResult f subc negr ra rb rc).bits) (s.macResult f subc negr ra rb rc) s := rfl
  rw [exec_macInstr himp]
  exact completes_result hp hbody hen (holds_resultWord s f _)

/-! ### The fused operation on numbers -/

section
variable {f : Fmt} {a b c : Word}

/-- Infinity times what is no zero (R262). -/
def InfiniteProduct (f : Fmt) (a b : Word) : Prop :=
  isInf f a = true ∧ isZero f b = false ∨ isInf f b = true ∧ isZero f a = false

/-- An infinite product has an infinite operand, and is valid. -/
theorem InfiniteProduct.valid (h : InfiniteProduct f a b) :
    (isInf f a = true ∨ isInf f b = true) ∧
      ¬ (isInf f a = true ∧ isZero f b = true ∨ isZero f a = true ∧ isInf f b = true) := by
  rcases h with ⟨hinf, hzero⟩ | ⟨hinf, hzero⟩ <;> obtain ⟨-, hother, -⟩ := inf_excludes hinf <;>
    simp [hinf, hzero, hother]

variable (ha : isNaN f a = false) (hb : isNaN f b = false) (hc : isNaN f c = false)
include ha hb hc

/-- Operands that are no NaNs pass the two tests for one. -/
theorem no_nan_operand : ¬ (isSNaN f a = true ∨ isSNaN f b = true ∨ isSNaN f c = true) ∧
    ¬ (isNaN f a = true ∨ isNaN f b = true ∨ isNaN f c = true) := by
  simp [ha, hb, hc, snan_false]

/-! The cases of R262 for operands that are no NaNs, each under the conditions that select it. -/

theorem fusedMac_invalidProduct (h : isInf f a = true ∧ isZero f b = true ∨ isZero f a = true ∧ isInf f b = true)
    (t : Tininess) (nan : Word) : fusedMac f t nan a b c = .invalid 4 nan := by
  obtain ⟨hs, hn⟩ := no_nan_operand ha hb hc
  rw [fusedMac, if_neg hs, if_neg hn, if_pos h]

theorem fusedMac_opposite (h : InfiniteProduct f a b) (hic : isInf f c = true)
    (hsign : (fpSign f a != fpSign f b) ≠ fpSign f c) (t : Tininess) (nan : Word) :
    fusedMac f t nan a b c = .invalid 1 nan := by
  obtain ⟨hs, hn⟩ := no_nan_operand ha hb hc
  obtain ⟨hinf, hvalid⟩ := h.valid
  rw [fusedMac, if_neg hs, if_neg hn, if_neg hvalid, if_pos ⟨hinf, hic, hsign⟩]

theorem fusedMac_infiniteProduct (h : InfiniteProduct f a b)
    (hsign : isInf f c = true → (fpSign f a != fpSign f b) = fpSign f c) (t : Tininess) (nan : Word) :
    fusedMac f t nan a b c = .exact (fpInf f (fpSign f a != fpSign f b)) := by
  obtain ⟨hs, hn⟩ := no_nan_operand ha hb hc
  obtain ⟨hinf, hvalid⟩ := h.valid
  rw [fusedMac, if_neg hs, if_neg hn, if_neg hvalid, if_neg fun ⟨_, hic, hne⟩ => hne (hsign hic), if_pos hinf]

theorem fusedMac_inf_third (hia : isInf f a = false) (hib : isInf f b = false) (hic : isInf f c = true) (t : Tininess)
    (nan : Word) : fusedMac f t nan a b c = .exact c := by
  obtain ⟨hs, hn⟩ := no_nan_operand ha hb hc
  rw [fusedMac, if_neg hs, if_neg hn, if_neg (by simp [hia, hib]), if_neg (by simp [hia, hib]),
    if_neg (by simp [hia, hib]), if_pos hic]

end

/-- Of finite numbers the exact value, in units, is rounded once (R262). -/
theorem fusedMac_finite {f : Fmt} {a b c : Word} (ha : isFinite f a = true) (hb : isFinite f b = true)
    (hc : isFinite f c = true) (t : Tininess) (nan : Word) : fusedMac f t nan a b c =
      finishSum f t (fpValue f a * fpValue f b + fpValue f c * f.one) f.one
        ((fpSign f a != fpSign f b) && fpSign f c) := by
  obtain ⟨hna, hia, -⟩ := finite_cases ha
  obtain ⟨hnb, hib, -⟩ := finite_cases hb
  obtain ⟨hnc, hic, -⟩ := finite_cases hc
  obtain ⟨hs, hn⟩ := no_nan_operand hna hnb hnc
  rw [fusedMac, if_neg hs, if_neg hn, if_neg (by simp [hia, hib]), if_neg (by simp [hia, hib]),
    if_neg (by simp [hia, hib]), if_neg (by simp [hic])]

/-- A product and a third value, in units: the product of two numbers of units is scaled by one unit more (R262). -/
theorem realValue_mac_units (f : Fmt) (a b c : Word) :
    (realValue f a * realValue f b + realValue f c) * 2 ^ f.unitExp =
      ((fpValue f a * fpValue f b + fpValue f c * f.one : Int) : ℚ) / f.one := by
  have hone : (f.one : ℚ) = 2 ^ f.unitExp := by simp [Fmt.one]
  have hU : (2 : ℚ) ^ f.unitExp ≠ 0 := by positivity
  push_cast
  rw [hone, ← realValue_units, ← realValue_units, ← realValue_units]
  field_simp

/-- An exactly zero sum has the sign given for it (R136). -/
theorem finishSum_zero {f : Fmt} {n : Int} {den : Nat} {e : ℚ} (he : e * 2 ^ f.unitExp = (n : ℚ) / den)
    (hden : 0 < den) (hzero : e = 0) (t : Tininess) (zeroNeg : Bool) :
    finishSum f t n den zeroNeg = .exact (fpZero f zeroNeg) := by
  have hd : (den : ℚ) ≠ 0 := by exact_mod_cast hden.ne'
  rw [hzero, zero_mul, eq_comm, div_eq_zero_iff, or_iff_left hd] at he
  exact if_pos (by exact_mod_cast he)

/-! ### `FMacOp` -/

/-- The final negation inverts the sign of a result that is no NaN (R262). -/
theorem negateResult_eq (f : Fmt) (r : FpResult) : negateResult f r =
    ⟨if isNaN f r.bits then r.bits else flipSign f r.bits, r.kinds, r.types, r.inexact, r.away⟩ := by
  unfold negateResult
  split <;> rfl

/-- Settles O56: the fused operation by its cases, with the third operand's class, sign and value; the unfused one and
the negation as defined. -/
theorem multiplyAccumulate : Obligations.MultiplyAccumulate := by
  refine ⟨?finite, ?numbers, fun _ _ _ _ _ _ _ _ => rfl, fun f _ _ _ _ _ _ _ _ => negateResult_eq f _⟩
  case finite =>
    intro f t subc np nan a b c ha hb hc e r
    obtain ⟨-, -, -, -, hfinite, hsign, hvalue⟩ := third_operand f subc c
    have hunits := realValue_mac_units f a b (if subc then flipSign f c else c)
    have hr : r = _ := fusedMac_finite ha hb (hfinite.trans hc) t nan
    rw [hvalue] at hunits
    rw [hsign] at hr
    have hround : r.RoundsTo f t e := hr ▸ finishSum_roundsTo hunits f.one_pos t _
    exact ⟨fun he => hr.trans (finishSum_zero hunits f.one_pos he t _), hround.nonzero, hround.types⟩
  case numbers =>
    intro f t subc np nan a b c ha hb hc sign third r infiniteProduct
    obtain ⟨hnan, -, hinf, -, -, hsign, -⟩ := third_operand f subc c
    rw [← hsign, ← hinf]
    have hc' : isNaN f third = false := hnan.trans hc
    exact ⟨fun h => fusedMac_invalidProduct ha hb hc' h t nan,
      fun h hic hne => fusedMac_opposite ha hb hc' h hic hne t nan,
      fun h hs => fusedMac_infiniteProduct ha hb hc' h hs t nan,
      fun hic hia hib => fusedMac_inf_third ha hb hc' hia hib hic t nan⟩

end Sys2Proof.Machine
end

section
/-! Proofs for the families 60_exceptions.md and 70_reset_and_hazards.md: what the delivery of an exception leaves, the
program, and the reset state. -/

namespace Sys2Proof.Machine

/-! ### The delivery of an exception -/

section
variable {s d : State} {i : Instr} {en : Kinds}

/-- An exception is delivered by an instruction that records status or by FTX (R280). -/
theorem Faulted.recordsStatus_or_ftx (h : Faulted s i en d) : i.recordsStatus = true ∨ i.mnemonic = "FTX" := by
  cases h with
  | status hs => exact .inl hs
  | ftx => exact .inr rfl

/-- At a delivery pc is still the instruction's (R287). -/
theorem Faulted.pc_same (h : Faulted s i en d) : d.pc = s.pc := by
  cases h with
  | status => exact writeX_pc _ _ _
  | ftx => rfl

/-- A delivery leaves the enables as they were (R33). -/
theorem Faulted.enables_same (h : Faulted s i en d) : fpscrEnables d.fpscr = fpscrEnables s.fpscr := by
  cases h <;> simp [finishedFpscr]

/-- A delivery is of the enabled kinds among those that occurred, all of which are recorded (R146, R286). -/
theorem Faulted.recorded (h : Faulted s i en d) :
    ∃ ty k, en = enabledOf k s.fpscr ∧ enabledOf k s.fpscr ≠ 0 ∧
      LowRecorded s.params.gxPolicy ty k s.fpscr d.fpscr := by
  cases h with
  | @status _ _ _ cls r _ _ _ _ hen =>
    refine ⟨r.types, r.kinds, rfl, hen, ?_⟩
    rw [writeX_fpscr]
    exact lowRecorded_finishedFpscr _ cls r _
  | ftx hen => exact ⟨0, _, rfl, hen, lowRecorded_recordKinds _ _ _⟩

end

section
variable {pol : GxPolicy} {ty : Types} {k : Kinds} {v w : FpscrWord}

/-- A kind that is recorded and enabled is delivered with its X bit set and its E bit set (R33, R37). -/
theorem LowRecorded.enabled_and_occurred (h : LowRecorded pol ty k v w) {j : Nat} (hj : j < 5)
    (hen : (enabledOf k v).getLsbD j = true) : v.getLsbD (24 + j) = true ∧ w.getLsbD (10 + j) = true := by
  rw [getLsbD_enabledOf _ _ hj, Bool.and_eq_true] at hen
  obtain ⟨hkind, henabled⟩ := hen
  exact ⟨henabled, by rw [h.occurred j hj, hkind, Bool.or_true]⟩

/-- Once an enabled kind is recorded, GX reads 1 under either policy (R38). -/
theorem LowRecorded.gx_reads_one (h : LowRecorded pol ty k v w) (hen : enabledOf k v ≠ 0)
    (henables : fpscrEnables w = fpscrEnables v) : fpscrGX pol w = true := by
  cases pol with
  | sticky => exact h.gx.trans (by rw [decide_eq_true ⟨rfl, hen⟩, Bool.or_true])
  | derived =>
    have hsame : enabledOf k w = enabledOf k v := congrArg (k &&& ·) henables
    rw [← hsame] at hen
    obtain ⟨j, hj, hkind, henabled⟩ := (enabledOf_ne_zero_iff k w).mp hen
    exact (fpscrGX_derived_iff w).mpr ⟨j, hj, by rw [h.occurred j hj, hkind, Bool.or_true], henabled⟩

end

/-- Some kind is delivered only if some kind occurred (R146). -/
theorem ne_zero_of_enabledOf {k : Kinds} {v : FpscrWord} (h : enabledOf k v ≠ 0) : k ≠ 0 := by
  rintro rfl
  exact h BitVec.zero_and

/-- Settles O26: a fault is a delivery; what it records gives the bits of FPSCR, and the frame is the delivery's. -/
theorem faultsAreEnabledExceptions : Obligations.FaultsAreEnabledExceptions := by
  intro i s e h
  obtain ⟨hp, en, d, rfl, hfault⟩ := exec_fault h
  obtain ⟨ty, k, rfl, hen, hrec⟩ := hfault.recorded
  obtain ⟨hmem, hparams⟩ := hfault.rest
  exact ⟨hfault.recordsStatus_or_ftx, hp, enabledOf k s.fpscr, d, rfl, hen, fun j hj => hrec.enabled_and_occurred hj,
    hrec.summary_set (ne_zero_of_enabledOf hen), hrec.gx_reads_one hen hfault.enables_same, hfault.pc_same, hmem,
    hparams, hfault.readP_same, fun r => hfault.readX_other⟩

/-! ### The program and the reset state -/

/-- Settles O15: a step that gives a next state ran an instruction, and no instruction changes memory or parameters. -/
theorem programNeverChanges : Obligations.ProgramNeverChanges := by
  refine ⟨fun s t h => ?_, fun i s t => leads_mem_params⟩
  obtain ⟨i, -, hexec⟩ := step_next h
  exact leads_mem_params (.inl hexec)

/-- Settles O17: the empty memory is in canonical form, and no type is recorded in the FPSCR of reset (log 8, 11). -/
theorem resetMeetsInvariant : Obligations.ResetMeetsInvariant :=
  ⟨rfl, fun h => absurd rfl h⟩

end Sys2Proof.Machine
end
